-- ==== Sys2Proof/Word.lean ====
section
/-! DEFINITION. The data word, its width and its readings (00_scope.md R6, R7).

The width `W` is a parameter of the run (R6), so a data word (the accumulator, the address register, a memory cell, an
argument, a queue element) is an `Int`: the value that the spec reads it as, `sint(v)` of R7. It is a word of width `w` when
`fitsWord w` holds of it (log 1). -/

namespace Sys2Proof

/-- The signed range of a word of width `w`, `[-2^(w-1), 2^(w-1)-1]` (R7). -/
def fitsWord (w : Nat) (n : Int) : Bool := decide (-(2 ^ (w - 1)) ≤ n) && decide (n < 2 ^ (w - 1))

/-- `wrap(n)` of R7: the word of width `w` whose value is congruent to `n` modulo `2^w`. -/
abbrev wrap (w : Nat) (n : Int) : Int := n.bmod (2 ^ w)

/-- `uint(v)` of R7: the value of a word of width `w` as an unsigned integer. -/
abbrev uint (w : Nat) (v : Int) : Nat := (v % 2 ^ w).toNat

end Sys2Proof
end

