-- ==== Sys2Proof/Config.lean ====
section
/-! DEFINITION. The parameters of a run (00_scope.md R6). They are held beside the machine's state so that a
statement about every state is a statement about every value of the parameters. -/

namespace Sys2Proof

/-- The parameters that R6 leaves open; the ROM with its decode index is an argument of the tick (`Machine.tickOf`). -/
structure Config where
  /-- `W`, the width of a data word in bits. -/
  width : Nat
  /-- `DATA_MEM_SIZE`, the number of cells of data memory. -/
  dataMemSize : Nat
  /-- `INSTR_MEM_SIZE`, the number of words of instruction memory. -/
  instrMemSize : Nat
  /-- `TICK_LIMIT`, the tick ceiling; `none` is the unbounded ceiling that R6 and R225 allow. -/
  tickLimit : Option Nat
  deriving DecidableEq, Repr

/-- The parameters of `State.reset`: the default width and the default tick ceiling of R6 and the capacities of the
examples of 95_test_vectors.md. DESIGN CHOICE (log 7), unsafe for a claim that rests on the numbers: the spec gives the two
capacities no default. -/
def Config.standard : Config :=
  { width := 32, dataMemSize := 64, instrMemSize := 64, tickLimit := some 50000 }

end Sys2Proof
end

