-- ==== Sys2Proof/Syntax.lean ====
section
/-! DEFINITION. The lab3 ISA: 17 opcodes, 5 addressing modes, the 28 legal instructions, and the instruction word
(30_encoding.md R60, R61, R64, R66). -/

namespace Sys2Proof

/-- The closed enumeration of 17 opcodes (R60). -/
inductive Opcode where
  | inc | dec | cls | neg | add | sub
  | load | store
  | input | output | port1In | port1Out | port2In | port2Out
  | jmp | jmpz | hlt
  deriving DecidableEq, Repr

/-- The closed enumeration of 5 addressing modes (R61). -/
inductive Mode where
  | none | direct | labelAddr | labelValue | indirect
  deriving DecidableEq, Repr

/-- The instruction word of R66: the 8-bit code and the argument. -/
structure InstrWord where
  code : BitVec 8
  arg : Int
  deriving DecidableEq, Repr

/-- The zero word `(0, 0)` that pads instruction memory (20_memory.md R46). -/
def InstrWord.zero : InstrWord := ⟨0, 0⟩

/-- The 28 legal instructions, one constructor per row of the opcode table (R64). An instruction of mode `NONE`
carries no argument, since its argument is ignored (R61, R67). -/
inductive Instr where
  | inc
  | dec
  | cls
  | neg
  | addDirect (arg : Int)
  | addLabelAddr (arg : Int)
  | addLabelValue (arg : Int)
  | addIndirect (arg : Int)
  | subDirect (arg : Int)
  | subLabelAddr (arg : Int)
  | subLabelValue (arg : Int)
  | subIndirect (arg : Int)
  | loadDirect (arg : Int)
  | loadLabelAddr (arg : Int)
  | loadLabelValue (arg : Int)
  | loadIndirect (arg : Int)
  | storeDirect (arg : Int)
  | storeLabelAddr (arg : Int)
  | storeIndirect (arg : Int)
  | input
  | output
  | port1In
  | port1Out
  | port2In
  | port2Out
  | jmpLabelValue (arg : Int)
  | jmpzLabelValue (arg : Int)
  | hlt
  deriving DecidableEq, Repr

/-- The opcode of an instruction. -/
def Instr.opcode : Instr → Opcode
  | .inc => .inc
  | .dec => .dec
  | .cls => .cls
  | .neg => .neg
  | .addDirect _ | .addLabelAddr _ | .addLabelValue _ | .addIndirect _ => .add
  | .subDirect _ | .subLabelAddr _ | .subLabelValue _ | .subIndirect _ => .sub
  | .loadDirect _ | .loadLabelAddr _ | .loadLabelValue _ | .loadIndirect _ => .load
  | .storeDirect _ | .storeLabelAddr _ | .storeIndirect _ => .store
  | .input => .input
  | .output => .output
  | .port1In => .port1In
  | .port1Out => .port1Out
  | .port2In => .port2In
  | .port2Out => .port2Out
  | .jmpLabelValue _ => .jmp
  | .jmpzLabelValue _ => .jmpz
  | .hlt => .hlt

/-- The addressing mode of an instruction. -/
def Instr.mode : Instr → Mode
  | .addDirect _ | .subDirect _ | .loadDirect _ | .storeDirect _ => .direct
  | .addLabelAddr _ | .subLabelAddr _ | .loadLabelAddr _ | .storeLabelAddr _ => .labelAddr
  | .addLabelValue _ | .subLabelValue _ | .loadLabelValue _ => .labelValue
  | .addIndirect _ | .subIndirect _ | .loadIndirect _ | .storeIndirect _ => .indirect
  | .jmpLabelValue _ | .jmpzLabelValue _ => .labelValue
  | .inc | .dec | .cls | .neg => .none
  | .input | .output | .port1In | .port1Out | .port2In | .port2Out => .none
  | .hlt => .none

/-- The argument of an instruction; 0 when the mode is `NONE` (R46: "or 0 when the mode is `NONE`"). -/
def Instr.arg : Instr → Int
  | .addDirect a | .addLabelAddr a | .addLabelValue a | .addIndirect a => a
  | .subDirect a | .subLabelAddr a | .subLabelValue a | .subIndirect a => a
  | .loadDirect a | .loadLabelAddr a | .loadLabelValue a | .loadIndirect a => a
  | .storeDirect a | .storeLabelAddr a | .storeIndirect a => a
  | .jmpLabelValue a | .jmpzLabelValue a => a
  | .inc | .dec | .cls | .neg => 0
  | .input | .output | .port1In | .port1Out | .port2In | .port2Out => 0
  | .hlt => 0

end Sys2Proof
end

