-- ==== Sys2Proof/WellFormed.lean ====
section
/-! DEFINITION. The checks on what reaches the machine: the legality table of 30_encoding.md R63, the bounds on the
parameters (00_scope.md R6), the signed range of a word (20_memory.md R45, R46), and the names of the
configuration errors (60_exceptions.md R254). Well-formed control words and ROMs are in Machine/ControlWord.lean
and Machine/Microcode.lean. -/

namespace Sys2Proof

/-- The legality table of R63. -/
def legalPair : Opcode → Mode → Bool
  | .inc, .none | .dec, .none | .cls, .none | .neg, .none => true
  | .add, .direct | .add, .labelAddr | .add, .labelValue | .add, .indirect => true
  | .sub, .direct | .sub, .labelAddr | .sub, .labelValue | .sub, .indirect => true
  | .load, .direct | .load, .labelAddr | .load, .labelValue | .load, .indirect => true
  | .store, .direct | .store, .labelAddr | .store, .indirect => true
  | .input, .none | .output, .none => true
  | .port1In, .none | .port1Out, .none | .port2In, .none | .port2Out, .none => true
  | .jmp, .labelValue | .jmpz, .labelValue => true
  | .hlt, .none => true
  | _, _ => false

/-- An instruction is well formed at width `w` when its pair is in the legality table (R63) and its argument is a word of
that width (R66). `Instr` has a constructor for each legal pair and none other (`Instr.legalPair_all` in Laws/Decode.lean). -/
def Instr.wellFormed (w : Nat) (i : Instr) : Bool := legalPair i.opcode i.mode && fitsWord w i.arg

/-- The bounds of R6 on the parameters: `W >= 8`, `1 <= size <= 2^(W-1)` for both memories, and any tick ceiling. -/
def Config.wellFormed (c : Config) : Bool :=
  decide (8 ≤ c.width)
    && decide (1 ≤ c.dataMemSize) && decide (c.dataMemSize ≤ 2 ^ (c.width - 1))
    && decide (1 ≤ c.instrMemSize) && decide (c.instrMemSize ≤ 2 ^ (c.width - 1))

/-- Refusals before the run, when there is no machine state, no tick and no run result: the configuration errors of
60_exceptions.md R254, and two of the model's own, each marked. Where an input breaks several rules at once the spec asks for
a refusal and does not say which one is named; the order of the model's tests is its choice (DESIGN CHOICE, log 14). -/
inductive ConfigError where
  /-- A name outside the vocabulary of 31_control_word.md R84 (R87, "undefined signal"). -/
  | undefinedSignal (name : String)
  /-- Two names of one set drive the same column (R87). -/
  | columnDrivenTwice (column : Nat)
  /-- A set holds and drives the same column (R86, R87). -/
  | heldAndDriven (column : Nat)
  /-- A ROM with an ill-formed word, no word, or an offset beyond its end (R83). -/
  | illFormedRom
  /-- A parameter outside the bounds of R6. DESIGN CHOICE (log 13), safe: it is no error of R254's list, and the spec does
  not say what becomes of such parameters (R6, R282). -/
  | parameterOutOfBounds
  /-- An opcode string outside the vocabulary (R46). -/
  | unknownOpcode (name : String)
  /-- An address-mode string outside the vocabulary (R46). -/
  | unknownMode (name : String)
  /-- A pair outside the legality table (R46, R65). -/
  | illegalPair (opcode : Opcode) (mode : Mode)
  /-- An argument given as a string (R46, decision D26). -/
  | stringArgument (text : String)
  /-- An operand mode with no argument. DESIGN CHOICE (log 10), safe: the spec defaults the argument for mode
  `NONE` only (R46). -/
  | missingArgument
  /-- An argument, initial value or queue element outside the signed range of a word (R45, R46, R182). -/
  | valueOutOfRange (value : Int)
  /-- A data entry with a negative size (R45). -/
  | negativeSize (size : Int)
  /-- A data entry with more initial values than cells (R45). -/
  | initLongerThanSize
  /-- The sizes of the data entries exceed `DATA_MEM_SIZE` (R45). -/
  | dataTooLong
  /-- The program is longer than `INSTR_MEM_SIZE` (R46). -/
  | programTooLong
  deriving DecidableEq, Repr

end Sys2Proof
end

