-- ==== Sys2Proof/Decode.lean ====
section
/-! DEFINITION. Instruction codes, the decoder and the encoder (00_scope.md R8; 30_encoding.md R60 to R68). -/

namespace Sys2Proof

/-- `opcode_index` of an opcode: its position in the list of R60, from 0. -/
def Opcode.index : Opcode → Nat
  | .inc => 0
  | .dec => 1
  | .cls => 2
  | .neg => 3
  | .add => 4
  | .sub => 5
  | .load => 6
  | .store => 7
  | .input => 8
  | .output => 9
  | .port1In => 10
  | .port1Out => 11
  | .port2In => 12
  | .port2Out => 13
  | .jmp => 14
  | .jmpz => 15
  | .hlt => 16

/-- The opcodes in `opcode_index` order (R60). -/
def Opcode.all : List Opcode :=
  [.inc, .dec, .cls, .neg, .add, .sub, .load, .store, .input, .output,
   .port1In, .port1Out, .port2In, .port2Out, .jmp, .jmpz, .hlt]

/-- The opcode with a given `opcode_index`, if there is one. -/
def Opcode.ofIndex (n : Nat) : Option Opcode := Opcode.all[n]?

/-- `address_index` of a mode: its position in the list of R61, from 0. -/
def Mode.index : Mode → Nat
  | .none => 0
  | .direct => 1
  | .labelAddr => 2
  | .labelValue => 3
  | .indirect => 4

/-- The modes in `address_index` order (R61). -/
def Mode.all : List Mode := [.none, .direct, .labelAddr, .labelValue, .indirect]

/-- The mode with a given `address_index`, if there is one. -/
def Mode.ofIndex (n : Nat) : Option Mode := Mode.all[n]?

/-- The opcode strings of the program document (R60: "exactly these 17 names, in capitals"). -/
def Opcode.name : Opcode → String
  | .inc => "INC"
  | .dec => "DEC"
  | .cls => "CLS"
  | .neg => "NEG"
  | .add => "ADD"
  | .sub => "SUB"
  | .load => "LOAD"
  | .store => "STORE"
  | .input => "INPUT"
  | .output => "OUTPUT"
  | .port1In => "PORT1_IN"
  | .port1Out => "PORT1_OUT"
  | .port2In => "PORT2_IN"
  | .port2Out => "PORT2_OUT"
  | .jmp => "JMP"
  | .jmpz => "JMPZ"
  | .hlt => "HLT"

/-- The address-mode strings of the program document (R61, decision D3). -/
def Mode.name : Mode → String
  | .none => "NONE"
  | .direct => "DIRECT"
  | .labelAddr => "LABEL_ADDR"
  | .labelValue => "LABEL_VALUE"
  | .indirect => "INDIRECT"

/-- The opcode a string names (R44: the strings "must match the ISA's symbolic vocabulary exactly"). -/
def Opcode.ofName (text : String) : Option Opcode := Opcode.all.find? (fun o => o.name == text)

/-- The mode a string names (R44). -/
def Mode.ofName (text : String) : Option Mode := Mode.all.find? (fun m => m.name == text)

/-- `opcode_of(c) = c div 10` (R8). -/
def opcodeOf (c : BitVec 8) : Nat := c.toNat / 10

/-- `mode_of(c) = c mod 10` (R8). -/
def modeOf (c : BitVec 8) : Nat := c.toNat % 10

/-- `code = opcode_index*10 + address_index` (R62). -/
def codeNumber (o : Opcode) (m : Mode) : Nat := o.index * 10 + m.index

/-- The same in the 8 bits that hold a code (R62). -/
def encodeCode (o : Opcode) (m : Mode) : BitVec 8 := BitVec.ofNat 8 (codeNumber o m)

/-- `legal(c)` of R8: the indices of the code name an opcode and a mode, and the pair is in the table of R63. -/
def legalCode (c : BitVec 8) : Bool :=
  match Opcode.ofIndex (opcodeOf c), Mode.ofIndex (modeOf c) with
  | some o, some m => legalPair o m
  | _, _ => false

/-- A code decodes to the opcode HLT: it is legal and its quotient is HLT's index (31_control_word.md R95: "if the decoded
opcode is HLT"). An illegal code has no decoded opcode (R65; log 12). -/
def haltCode (c : BitVec 8) : Bool := legalCode c && decide (opcodeOf c = 16)

/-- The instruction of a pair and an argument: the rows of R64. -/
def Instr.make : Opcode → Mode → Int → Option Instr
  | .inc, .none, _ => some .inc
  | .dec, .none, _ => some .dec
  | .cls, .none, _ => some .cls
  | .neg, .none, _ => some .neg
  | .add, .direct, a => some (.addDirect a)
  | .add, .labelAddr, a => some (.addLabelAddr a)
  | .add, .labelValue, a => some (.addLabelValue a)
  | .add, .indirect, a => some (.addIndirect a)
  | .sub, .direct, a => some (.subDirect a)
  | .sub, .labelAddr, a => some (.subLabelAddr a)
  | .sub, .labelValue, a => some (.subLabelValue a)
  | .sub, .indirect, a => some (.subIndirect a)
  | .load, .direct, a => some (.loadDirect a)
  | .load, .labelAddr, a => some (.loadLabelAddr a)
  | .load, .labelValue, a => some (.loadLabelValue a)
  | .load, .indirect, a => some (.loadIndirect a)
  | .store, .direct, a => some (.storeDirect a)
  | .store, .labelAddr, a => some (.storeLabelAddr a)
  | .store, .indirect, a => some (.storeIndirect a)
  | .input, .none, _ => some .input
  | .output, .none, _ => some .output
  | .port1In, .none, _ => some .port1In
  | .port1Out, .none, _ => some .port1Out
  | .port2In, .none, _ => some .port2In
  | .port2Out, .none, _ => some .port2Out
  | .jmp, .labelValue, a => some (.jmpLabelValue a)
  | .jmpz, .labelValue, a => some (.jmpzLabelValue a)
  | .hlt, .none, _ => some .hlt
  | _, _, _ => none

/-- Why an instruction word is no instruction: its code is one of the 228 illegal ones (R65). -/
inductive DecodeError where
  | illegalCode (code : BitVec 8)
  deriving DecidableEq, Repr

/-- The decoder (R68): the quotient and the remainder of the code, then legality; total on every word, and the
illegal ones are rejected by name. -/
def decode (w : InstrWord) : Except DecodeError Instr :=
  match Opcode.ofIndex (opcodeOf w.code), Mode.ofIndex (modeOf w.code) with
  | some o, some m =>
    match Instr.make o m w.arg with
    | some i => .ok i
    | none => .error (.illegalCode w.code)
  | _, _ => .error (.illegalCode w.code)

/-- The encoder: the code of R62 and the argument, 0 when the mode is `NONE` (R46, R66). -/
def encode (i : Instr) : InstrWord := ⟨encodeCode i.opcode i.mode, i.arg⟩

/-- The word `{code, arg}` of R66, `W + 8` bits: the code above the argument in two's complement. -/
def InstrWord.toBits (width : Nat) (w : InstrWord) : BitVec (8 + width) :=
  w.code ++ BitVec.ofInt width w.arg

/-- The fields of a word of `W + 8` bits: `code` at bits `W+7:W` and `arg`, read as signed, at bits `W-1:0` (R66). -/
def InstrWord.ofBits (width : Nat) (b : BitVec (8 + width)) : InstrWord :=
  ⟨b.extractLsb' width 8, (b.extractLsb' 0 width).toInt⟩

/-- The instruction that the decoder reads from a word given as a number of `nbits` bits, numbered as the opcode
table numbers them, which is at `W = 32`; every bit above `nbits` is 0, and an instruction has 40 bits there (R66, R69). -/
def decodeTableWord (nbits w : Nat) : Option Instr :=
  let v := w % 2 ^ nbits
  if v < 2 ^ 40 then
    match decode (InstrWord.ofBits 32 (BitVec.ofNat 40 v)) with
    | .ok i => some i
    | .error _ => none
  else none

end Sys2Proof
end

