-- ==== Sys2Proof/Machine/State.lean ====
section
/-! DEFINITION. The machine's state as plain data (10_state.md R10 to R28), its reset value (R30;
70_reset_and_hazards.md R280), and the reasons a step can stop outside the spec's own events. -/

namespace Sys2Proof.Machine

/-- The three input queues (10_state.md R27; 42_io.md R180). -/
inductive InQueue where
  | in0 | p1in | p2in
  deriving DecidableEq, Repr

/-- The three output sequences (10_state.md R28; 42_io.md R180). -/
inductive OutQueue where
  | out0 | p1out | p2out
  deriving DecidableEq, Repr

/-- The causes of a stop, each with the information R226 has the controller record: the three terminations of
60_exceptions.md R250 to R252 and the six faults of R253. -/
inductive Cause where
  /-- HLT was latched into the instruction register (R250). -/
  | normalHalt
  /-- An input was read from an empty queue, which is recorded (R251). -/
  | bufferUnderrun (queue : InQueue)
  /-- The controller was about to begin a tick with `TICKS >= TICK_LIMIT` (R252). -/
  | tickCeilingExceeded
  /-- `LATCH_IP` was given a value outside instruction memory, which is recorded (R253). -/
  | instrAddrOutOfRange (value : Int)
  /-- `LATCH_IR` was to fetch zero padding at the recorded `IP` (R253). -/
  | fetchOutsideProgram (ip : Int)
  /-- A data access went outside data memory at the recorded `AR` (R253). -/
  | dataAddrOutOfRange (ar : Int)
  /-- The recorded `IR` is no key of the decode index (R253). -/
  | decodeIndexMiss (ir : BitVec 8)
  /-- The recorded new `MIP` is outside the ROM (R253). -/
  | microAddrOutOfRange (value : Nat)
  /-- `MICRO_SEL_IP = 3` was applied at the recorded `MIP` (R253). -/
  | reservedMicroSelect (mip : Nat)
  deriving DecidableEq, Repr

/-- `STATUS`, the controller's state (10_state.md R24). -/
inductive Status where
  | running
  | stopped (cause : Cause)
  deriving DecidableEq, Repr

/-- What an unlisted cell of data memory reads as: 0, the zero padding of 20_memory.md R45. -/
def unlistedCell : Int := 0

/-- Data memory: the cells that do not hold `unlistedCell`, as (index, word) pairs with rising indices
(20_memory.md R41; the canonical form is `Memory.wf` in Ops.lean; log 4, log 5). -/
abbrev Memory := List (Nat × Int)

/-- The state: every element of the table of 10_state.md R30, and the run's parameters. A word is held by its signed value
(log 1); that every word is one of the run's width is `State.wordsFit` in Safety.lean. -/
structure State where
  /-- The parameters of the run (00_scope.md R6); no step writes them. -/
  cfg : Config
  /-- `IMEM` and `PROG_LEN`: the program's instruction words from index 0; every later word is the zero word
  (10_state.md R26; 20_memory.md R46). No step writes it (R43). -/
  imem : List InstrWord
  /-- `DMEM`, data memory (10_state.md R25). -/
  dmem : Memory
  /-- `IP`, the instruction pointer (10_state.md R12). -/
  ip : Int
  /-- `IR`, the instruction register (10_state.md R13). -/
  ir : BitVec 8
  /-- `AR`, the address register (10_state.md R14). -/
  ar : Int
  /-- `ACC`, the accumulator (10_state.md R10). -/
  acc : Int
  /-- `Z`, the zero flag (10_state.md R15). -/
  z : Bool
  /-- `ALU_OUT`, the staged result (10_state.md R16). -/
  aluOut : Int
  /-- `ALU_Z`, the staged zero-ness (10_state.md R16). -/
  aluZ : Bool
  /-- `MDR`, the memory data latch (10_state.md R17). -/
  mdr : Int
  /-- `OPR`, the ALU operand latch (10_state.md R18). -/
  opr : Int
  /-- `MIP`, the micro-program counter (10_state.md R21). -/
  mip : Nat
  /-- `TICKS`, the tick counter (10_state.md R22). -/
  ticks : Nat
  /-- `ICOUNT`, the committed-instruction counter (10_state.md R23). -/
  icount : Nat
  /-- `STATUS`, the controller's state (10_state.md R24). -/
  status : Status
  /-- `IN0`, the primary input stream, first element first (10_state.md R27). -/
  in0 : List Int
  /-- `P1IN`, the incoming queue of port 1 (10_state.md R27). -/
  p1in : List Int
  /-- `P2IN`, the incoming queue of port 2 (10_state.md R27). -/
  p2in : List Int
  /-- `OUT0`, the primary output stream, oldest element first (10_state.md R28). -/
  out0 : List Int
  /-- `P1OUT`, the outgoing queue of port 1 (10_state.md R28). -/
  p1out : List Int
  /-- `P2OUT`, the outgoing queue of port 2 (10_state.md R28). -/
  p2out : List Int
  deriving DecidableEq, Repr

/-- Reasons a step has no next state. The spec's own terminations and faults are not here: they leave a state that
the spec describes, with `status = stopped cause`. -/
inductive Fault where
  /-- Raised by `tick` and `step` in a running state whose `IP` is outside instruction memory. R12 gives `IP` no such
  value, so the spec says nothing of it; no run reaches such a state. Safe (log 8). -/
  | ipOutsideMemory
  /-- Raised by `tick` and `step` in a running state whose `MIP` is outside the ROM. R21 gives `MIP` no such value; no
  run reaches such a state. Safe (log 8). -/
  | mipOutsideRom
  deriving DecidableEq, Repr

/-- Reasons an instruction has no meaning in the model. -/
inductive Refusal where
  /-- Raised by `exec` for an instruction that has no meaning yet; no arm raises it in this model. Safe. -/
  | notModelled (mnemonic : String)
  deriving DecidableEq, Repr

/-- The reset of R280, with the parameters, the two memories and the three input sequences that the host supplies
before it (R282). `OPR` is staged by the reset pulse with the argument of instruction word 0, the zero word's when the
program is empty, and the pulse is counted in `ICOUNT`. -/
def State.resetWith (cfg : Config) (imem : List InstrWord) (dmem : Memory)
    (in0 p1in p2in : List Int) : State :=
  { cfg, imem, dmem
    ip := 0
    ir := 0
    ar := 0
    acc := 0
    z := false
    aluOut := 0
    aluZ := false
    mdr := 0
    opr := (imem.headD InstrWord.zero).arg
    mip := 0
    ticks := 0
    icount := 1
    status := .running
    in0, p1in, p2in
    out0 := []
    p1out := []
    p2out := [] }

/-- The machine right after reset with nothing loaded: the standard parameters, no program, no data, empty input
queues (log 7, log 9). -/
def State.reset : State := State.resetWith Config.standard [] [] [] [] []

end Sys2Proof.Machine
end

