-- ==== Sys2Proof/Machine/Flags.lean ====
section
/-! DEFINITION. The ALU and the zero flag (40_arithmetic.md R140, R141, R142). -/

namespace Sys2Proof.Machine

/-- The seven functions of the ALU (R140). -/
inductive AluFn where
  | inc | dec | cls | neg | add | sub | pass
  deriving DecidableEq, Repr

/-- The function that an opcode number selects: the first six opcodes have their own, every other number selects
pass-through (R140, decision D12). -/
def aluFnOf : Nat → AluFn
  | 0 => .inc
  | 1 => .dec
  | 2 => .cls
  | 3 => .neg
  | 4 => .add
  | 5 => .sub
  | _ => .pass

/-- The result of a function at width `w` on the accumulator `a` and the selected input `x`, exact and then wrapped;
overflow is silent (R140, R141). -/
def aluResult (w : Nat) (fn : AluFn) (a x : Int) : Int :=
  match fn with
  | .inc => wrap w (x + 1)
  | .dec => wrap w (x - 1)
  | .cls => 0
  | .neg => wrap w (-x)
  | .add => wrap w (a + x)
  | .sub => wrap w (a - x)
  | .pass => x

/-- `alu(op, A, X)` of R140, at width `w`. -/
def alu (w : Nat) (op : Nat) (a x : Int) : Int := aluResult w (aluFnOf op) a x

/-- The zero-ness of a result: true exactly when it is the all-zero word (R142). -/
def zeroFlag (r : Int) : Bool := decide (r = 0)

end Sys2Proof.Machine
end

