-- ==== Sys2Proof/Machine/Ops.lean ====
section
/-! DEFINITION. The named operations over memories, queues and registers, the raising of an event (50_control_unit.md
R226) and the controller's loop body (R225). -/

namespace Sys2Proof.Machine

/-! Data memory (20_memory.md R41, R47). -/

/-- The word in a cell. -/
def Memory.read : Memory → Nat → Int
  | [], _ => unlistedCell
  | (b, v) :: m, a => if a = b then v else Memory.read m a

/-- Put a word in front of a memory whose indices all lie above, unless it is what an unlisted cell reads as. -/
def Memory.cons (a : Nat) (v : Int) (m : Memory) : Memory :=
  if v = unlistedCell then m else (a, v) :: m

/-- Write a word to a cell, keeping the canonical form. -/
def Memory.write : Memory → Nat → Int → Memory
  | [], a, v => Memory.cons a v []
  | (b, w) :: m, a, v =>
    if a < b then Memory.cons a v ((b, w) :: m)
    else if a = b then Memory.cons a v m
    else (b, w) :: Memory.write m a v

/-- An index is above an optional bound. -/
def aboveBound : Option Nat → Nat → Bool
  | none, _ => true
  | some k, a => decide (k < a)

/-- Every index of the memory is above `n`, the indices rise, and no entry holds what an unlisted cell reads as. -/
def Memory.wfAbove : Option Nat → Memory → Bool
  | _, [] => true
  | n, (a, v) :: m => aboveBound n a && decide (v ≠ unlistedCell) && Memory.wfAbove (some a) m

/-- The canonical form of data memory: strictly rising indices, no entry equal to an unlisted cell. -/
def Memory.wf (m : Memory) : Bool := Memory.wfAbove none m

/-- Every listed cell is a cell of a memory of `n` cells. -/
def Memory.within (n : Nat) (m : Memory) : Bool := m.all (fun c => decide (c.1 < n))

/-- An address names a cell of a memory of `n` cells when its signed value is in `0 .. n-1` (R47, R49; likewise the
instruction pointer, 10_state.md R12). -/
def inRange (n : Nat) (a : Int) : Bool := decide (0 ≤ a) && decide (a < (n : Int))

/-- `DMemRead(a)` of R47; `none` is its raise. -/
def State.dmemRead (s : State) (a : Int) : Option Int :=
  if inRange s.cfg.dataMemSize a then some (s.dmem.read a.toNat) else none

/-- `DMemWrite(a, v)` of R47; `none` is its raise. -/
def State.dmemWrite (s : State) (a v : Int) : Option State :=
  if inRange s.cfg.dataMemSize a then some { s with dmem := s.dmem.write a.toNat v } else none

/-! Instruction memory (20_memory.md R42, R46). -/

/-- `PROG_LEN`, the number of instruction words of the program (R46). -/
def State.progLen (s : State) : Nat := s.imem.length

/-- `IMem(a)` of R42 for an address of instruction memory: the program's word, or the zero word of the padding. -/
def State.imemRead (s : State) (a : Int) : InstrWord := s.imem.getD a.toNat InstrWord.zero

/-- The wire `CODE`: the code of the word at the current `IP` (10_state.md R19). -/
def State.wireCode (s : State) : BitVec 8 := (s.imemRead s.ip).code

/-- The wire `ARG`: the argument of the word at the current `IP` (10_state.md R19). -/
def State.wireArg (s : State) : Int := (s.imemRead s.ip).arg

/-- The instruction pointer names a word of instruction memory (10_state.md R12). -/
def State.ipInRange (s : State) : Bool := inRange s.cfg.instrMemSize s.ip

/-! Queues (42_io.md R181; 00_scope.md R7). -/

/-- The elements left in an input queue. -/
def State.inQueue (s : State) : InQueue → List Int
  | .in0 => s.in0
  | .p1in => s.p1in
  | .p2in => s.p2in

/-- Replace the elements of an input queue. -/
def State.setInQueue (s : State) (q : InQueue) (l : List Int) : State :=
  match q with
  | .in0 => { s with in0 := l }
  | .p1in => { s with p1in := l }
  | .p2in => { s with p2in := l }

/-- `pop(Q)` of R181: the first element and the state without it; `none` on an empty queue. -/
def State.popQueue (s : State) (q : InQueue) : Option (Int × State) :=
  match s.inQueue q with
  | [] => none
  | v :: rest => some (v, s.setInQueue q rest)

/-- The elements of an output sequence. -/
def State.outQueue (s : State) : OutQueue → List Int
  | .out0 => s.out0
  | .p1out => s.p1out
  | .p2out => s.p2out

/-- `append(S, v)` of R7 on an output sequence. -/
def State.appendOut (s : State) (q : OutQueue) (v : Int) : State :=
  match q with
  | .out0 => { s with out0 := s.out0 ++ [v] }
  | .p1out => { s with p1out := s.p1out ++ [v] }
  | .p2out => { s with p2out := s.p2out ++ [v] }

/-! The register writes of the primitives (31_control_word.md R93 to R105). -/

/-- Write `IP` and stage the argument at the new `IP` onto `OPR`, as every IP latch does (R93). -/
def State.setIp (s : State) (new : Int) : State :=
  { s with ip := new, opr := (s.imemRead new).arg }

/-- Write `IR` (R95). -/
def State.setIr (s : State) (code : BitVec 8) : State := { s with ir := code }

/-- Write `AR` (R97). -/
def State.setAr (s : State) (a : Int) : State := { s with ar := a }

/-- Write `ALU_OUT` with a result and `ALU_Z` with its zero-ness (R99). -/
def State.setAlu (s : State) (r : Int) : State := { s with aluOut := r, aluZ := zeroFlag r }

/-- Commit the staged result: write `ACC` and `Z` from `ALU_OUT` and `ALU_Z` (R100). -/
def State.commitAlu (s : State) : State := { s with acc := s.aluOut, z := s.aluZ }

/-- Write `MDR` and `OPR` with the cell just read (R102). -/
def State.setMdr (s : State) (t : Int) : State := { s with mdr := t, opr := t }

/-- Write `MIP` (R105). -/
def State.setMip (s : State) (m : Nat) : State := { s with mip := m }

/-- Return to the fetch block at offset 0 and count the instruction boundary (R105 with select 2; 10_state.md R23). -/
def State.boundary (s : State) : State := { s with mip := 0, icount := s.icount + 1 }

/-- Count a completed tick (50_control_unit.md R221). -/
def State.countTick (s : State) : State := { s with ticks := s.ticks + 1 }

/-! Events and the tick (50_control_unit.md R221, R225, R226). -/

/-- TAKING AN EVENT: the one thing a raise does to the state, whichever termination or fault it is. Nothing is saved,
no mode changes and control goes nowhere: `STATUS` records the cause and the machine stops (R226; 60_exceptions.md
R258). There is no return from an event (R259). -/
def State.stop (s : State) (c : Cause) : State := { s with status := .stopped c }

/-- How the application of one control word ends (R221, R226). -/
inductive TickResult where
  /-- Every primitive was applied. -/
  | done (s : State)
  /-- A primitive raised; the state holds every change made before the raise. -/
  | raised (c : Cause) (s : State)
  deriving DecidableEq, Repr

/-- Apply one more primitive, unless an earlier one has raised (R226, point 2). -/
def TickResult.andThen (r : TickResult) (f : State → TickResult) : TickResult :=
  match r with
  | .done s => f s
  | .raised c s => .raised c s

/-- `n >= TICK_LIMIT` (R225); an unbounded ceiling is never reached. -/
def ceilingAt (c : Config) (n : Nat) : Bool :=
  match c.tickLimit with
  | none => false
  | some limit => decide (limit ≤ n)

/-- `TICKS >= TICK_LIMIT`, the test before each tick (R225). -/
def State.atCeiling (s : State) : Bool := ceilingAt s.cfg s.ticks

/-- The loop body of R225 around the work `f` of one tick: nothing once stopped, the ceiling test, then the tick, which
is counted only if it did not raise (R221, R226). -/
def controlTick (f : State → TickResult) (s : State) : State :=
  match s.status with
  | .stopped _ => s
  | .running =>
    if s.atCeiling then s.stop .tickCeilingExceeded
    else
      match f s with
      | .done t => t.countTick
      | .raised c t => t.stop c

/-- The ticks of one instruction, in order. A raise or the ceiling stops the machine, and the ticks after it change
nothing. -/
def runTicks (fs : List (State → TickResult)) (s : State) : State :=
  fs.foldl (fun t f => controlTick f t) s

end Sys2Proof.Machine
end

