-- ==== Sys2Proof/Machine/Operands.lean ====
section
/-! DEFINITION. What each tick of an instruction does with the reference microcode: the fetch tick, the ticks of the
addressing-mode programs, the operation ticks and the last tick (40_arithmetic.md R143; 41_memory_ops.md R160 to R164;
32_microcode_rom.md R121 to R124). The effective address and the operand of every mode stand at the end (R164). -/

namespace Sys2Proof.Machine

/-- `MIP <- MIP + 1`, the advance inside a block (32_microcode_rom.md R123, `ADV`). -/
def State.advance (s : State) : State := s.setMip (s.mip + 1)

/-- The fetch tick of an instruction other than HLT: `IR <- code`, `MIP <-` the entry offset of the code (R143). -/
def fetchTick (code : BitVec 8) (entry : Nat) (s : State) : TickResult :=
  .done ((s.setIr code).setMip entry)

/-- The fetch tick of HLT: `IR` is written, then the halt is raised (31_control_word.md R95; 43_control.md R204). -/
def haltTick (code : BitVec 8) (s : State) : TickResult :=
  .raised .normalHalt (s.setIr code)

/-- Latch an address into `AR` and read the cell there onto `MDR` and `OPR`; the address stays latched when the read
raises (41_memory_ops.md R161, R162). -/
def readCellTick (a : Int) (s : State) : TickResult :=
  match s.dmemRead a with
  | some t => .done (((s.setAr a).setMdr t).advance)
  | none => .raised (.dataAddrOutOfRange a) (s.setAr a)

/-- The mode program of `DIRECT` and `LABEL_ADDR`, and the first word of `INDIRECT`: the address is the argument
(R161, R163). -/
def argCellTick (arg : Int) (s : State) : TickResult := readCellTick arg s

/-- The second word of `INDIRECT`: the address is the pointer just read, in `MDR` (R163). -/
def pointerCellTick (s : State) : TickResult := readCellTick s.mdr s

/-- Compute and commit: the ALU result is staged and latched into `ACC` and `Z` in one tick (31_control_word.md R99,
R100; 40_arithmetic.md R142). -/
def aluTick (fn : AluFn) (x : Int) (s : State) : TickResult :=
  .done (((s.setAlu (aluResult s.cfg.width fn s.acc x)).commitAlu).advance)

/-- The operation tick of the unary instructions: the input is `ACC` (40_arithmetic.md, section 2). -/
def unaryTick (fn : AluFn) (s : State) : TickResult := aluTick fn s.acc s

/-- The operation tick of ADD, SUB and LOAD after a memory mode: the input is `OPR`, which holds the cell just read
(R160). -/
def cellOperandTick (fn : AluFn) (s : State) : TickResult := aluTick fn s.opr s

/-- The operation tick of ADD, SUB and LOAD in mode `LABEL_VALUE`: the operand is the argument itself, which the latch
that made the instruction current has put in `OPR` (R164; log 11). -/
def valueOperandTick (fn : AluFn) (arg : Int) (s : State) : TickResult := aluTick fn arg s

/-- The operation tick of the input instructions: pop the queue and pass the element through the ALU into `ACC`
(31_control_word.md R99; 42_io.md R181). -/
def inputTick (q : InQueue) (s : State) : TickResult :=
  match s.popQueue q with
  | some (v, t) => aluTick .pass v t
  | none => .raised (.bufferUnderrun q) s

/-- The operation tick of the output instructions: append `ACC` (31_control_word.md R101, R106, R107). -/
def outputTick (q : OutQueue) (s : State) : TickResult :=
  .done ((s.appendOut q s.acc).advance)

/-- The operation tick of STORE: write `ACC` to the cell at `AR` (31_control_word.md R103). -/
def storeTick (s : State) : TickResult :=
  match s.dmemWrite s.ar s.acc with
  | some t => .done t.advance
  | none => .raised (.dataAddrOutOfRange s.ar) s

/-- The last tick of an instruction: latch `IP`, stage the argument there, return to the fetch block; a value outside
instruction memory raises before anything is written (31_control_word.md R93; 40_arithmetic.md R143). -/
def latchTick (new : Int) (s : State) : TickResult :=
  if inRange s.cfg.instrMemSize new then .done ((s.setIp new).boundary)
  else .raised (.instrAddrOutOfRange new) s

/-- The fall-through address `wrap(IP + 1)` (31_control_word.md R91). -/
def State.nextIp (s : State) : Int := wrap s.cfg.width (s.ip + 1)

/-- The word `NEXT` (32_microcode_rom.md R122). -/
def nextTick (s : State) : TickResult := latchTick s.nextIp s

/-- The word of JMP (43_control.md R202). -/
def jumpTick (target : Int) (s : State) : TickResult := latchTick target s

/-- The word of JMPZ: the argument if `Z` is set, else the fall-through address (43_control.md R203). -/
def jumpIfZeroTick (target : Int) (s : State) : TickResult :=
  latchTick (if s.z then target else s.nextIp) s

/-! The addressing modes as functions of the state before the instruction (41_memory_ops.md R164). -/

/-- `EA(mode, arg)` of R164: `none` where the mode has no effective address, and where the pointer of `INDIRECT` cannot
be read. -/
def State.effectiveAddr (s : State) (m : Mode) (arg : Int) : Option Int :=
  match m with
  | .direct | .labelAddr => some arg
  | .indirect => s.dmemRead arg
  | .none | .labelValue => none

/-- `operand(mode, arg)` of R164: `none` where the mode has no operand, and where a cell it needs cannot be read. -/
def State.operand (s : State) (m : Mode) (arg : Int) : Option Int :=
  match m with
  | .labelValue => some arg
  | .direct | .labelAddr => s.dmemRead arg
  | .indirect => (s.dmemRead arg).bind s.dmemRead
  | .none => none

end Sys2Proof.Machine
end

