-- ==== Sys2Proof/Machine/Arithmetic.lean ====
section
/-! DEFINITION. The arithmetic instructions (40_arithmetic.md R144 to R149). Each meaning is the instruction's ticks
in order, the fetch tick first, whose constants are the instruction's code and its entry offset in the ROM
(30_encoding.md R64; 32_microcode_rom.md R126). -/

namespace Sys2Proof.Machine

/-- INC (R144): `ACC <- wrap(sint(ACC) + 1)`, `Z`. -/
def execInc (s : State) : Host.Outcome State Fault Refusal :=
  .next (runTicks [fetchTick 0 1, unaryTick .inc, nextTick] s)

/-- DEC (R145): `ACC <- wrap(sint(ACC) - 1)`, `Z`. -/
def execDec (s : State) : Host.Outcome State Fault Refusal :=
  .next (runTicks [fetchTick 10 3, unaryTick .dec, nextTick] s)

/-- CLS (R146): `ACC <- 0`, `Z <- 1`. -/
def execCls (s : State) : Host.Outcome State Fault Refusal :=
  .next (runTicks [fetchTick 20 5, unaryTick .cls, nextTick] s)

/-- NEG (R147): `ACC <- wrap(-sint(ACC))`, `Z`. -/
def execNeg (s : State) : Host.Outcome State Fault Refusal :=
  .next (runTicks [fetchTick 30 7, unaryTick .neg, nextTick] s)

/-- ADD DIRECT (R148, R161). -/
def execAddDirect (arg : Int) (s : State) : Host.Outcome State Fault Refusal :=
  .next (runTicks [fetchTick 41 9, argCellTick arg, cellOperandTick .add, nextTick] s)

/-- ADD LABEL_ADDR (R148, R161). -/
def execAddLabelAddr (arg : Int) (s : State) : Host.Outcome State Fault Refusal :=
  .next (runTicks [fetchTick 42 12, argCellTick arg, cellOperandTick .add, nextTick] s)

/-- ADD LABEL_VALUE (R148, R164). -/
def execAddLabelValue (arg : Int) (s : State) : Host.Outcome State Fault Refusal :=
  .next (runTicks [fetchTick 43 15, valueOperandTick .add arg, nextTick] s)

/-- ADD INDIRECT (R148, R163). -/
def execAddIndirect (arg : Int) (s : State) : Host.Outcome State Fault Refusal :=
  .next (runTicks
    [fetchTick 44 17, argCellTick arg, pointerCellTick, cellOperandTick .add, nextTick] s)

/-- SUB DIRECT (R149, R161). -/
def execSubDirect (arg : Int) (s : State) : Host.Outcome State Fault Refusal :=
  .next (runTicks [fetchTick 51 21, argCellTick arg, cellOperandTick .sub, nextTick] s)

/-- SUB LABEL_ADDR (R149, R161). -/
def execSubLabelAddr (arg : Int) (s : State) : Host.Outcome State Fault Refusal :=
  .next (runTicks [fetchTick 52 24, argCellTick arg, cellOperandTick .sub, nextTick] s)

/-- SUB LABEL_VALUE (R149, R164). -/
def execSubLabelValue (arg : Int) (s : State) : Host.Outcome State Fault Refusal :=
  .next (runTicks [fetchTick 53 27, valueOperandTick .sub arg, nextTick] s)

/-- SUB INDIRECT (R149, R163). -/
def execSubIndirect (arg : Int) (s : State) : Host.Outcome State Fault Refusal :=
  .next (runTicks
    [fetchTick 54 29, argCellTick arg, pointerCellTick, cellOperandTick .sub, nextTick] s)

end Sys2Proof.Machine
end

