-- ==== Sys2Proof/Machine/Control.lean ====
section
/-! DEFINITION. The control instructions JMP, JMPZ and HLT (43_control.md R202, R203, R204), each as its ticks in
order. -/

namespace Sys2Proof.Machine

/-- JMP LABEL_VALUE (R202). -/
def execJmpLabelValue (arg : Int) (s : State) : Host.Outcome State Fault Refusal :=
  .next (runTicks [fetchTick 143 67, jumpTick arg] s)

/-- JMPZ LABEL_VALUE (R203). -/
def execJmpzLabelValue (arg : Int) (s : State) : Host.Outcome State Fault Refusal :=
  .next (runTicks [fetchTick 153 68, jumpIfZeroTick arg] s)

/-- HLT (R204): its fetch tick raises `NormalHalt`, and its block is empty. -/
def execHlt (s : State) : Host.Outcome State Fault Refusal :=
  .next (runTicks [haltTick 160] s)

end Sys2Proof.Machine
end

