-- ==== Sys2Proof/Machine/Io.lean ====
section
/-! DEFINITION. The six I/O instructions (42_io.md R183 to R188), each as its ticks in order. -/

namespace Sys2Proof.Machine

/-- INPUT (R183). -/
def execInput (s : State) : Host.Outcome State Fault Refusal :=
  .next (runTicks [fetchTick 80 55, inputTick .in0, nextTick] s)

/-- OUTPUT (R184). -/
def execOutput (s : State) : Host.Outcome State Fault Refusal :=
  .next (runTicks [fetchTick 90 57, outputTick .out0, nextTick] s)

/-- PORT1_IN (R185). -/
def execPort1In (s : State) : Host.Outcome State Fault Refusal :=
  .next (runTicks [fetchTick 100 59, inputTick .p1in, nextTick] s)

/-- PORT1_OUT (R186). -/
def execPort1Out (s : State) : Host.Outcome State Fault Refusal :=
  .next (runTicks [fetchTick 110 61, outputTick .p1out, nextTick] s)

/-- PORT2_IN (R187). -/
def execPort2In (s : State) : Host.Outcome State Fault Refusal :=
  .next (runTicks [fetchTick 120 63, inputTick .p2in, nextTick] s)

/-- PORT2_OUT (R188). -/
def execPort2Out (s : State) : Host.Outcome State Fault Refusal :=
  .next (runTicks [fetchTick 130 65, outputTick .p2out, nextTick] s)

end Sys2Proof.Machine
end

