-- ==== Sys2Proof/Machine/LoadStore.lean ====
section
/-! DEFINITION. The memory instructions LOAD and STORE (41_memory_ops.md R165, R166), each as its ticks in order. -/

namespace Sys2Proof.Machine

/-- LOAD DIRECT (R165, R161). -/
def execLoadDirect (arg : Int) (s : State) : Host.Outcome State Fault Refusal :=
  .next (runTicks [fetchTick 61 33, argCellTick arg, cellOperandTick .pass, nextTick] s)

/-- LOAD LABEL_ADDR (R165, R161). -/
def execLoadLabelAddr (arg : Int) (s : State) : Host.Outcome State Fault Refusal :=
  .next (runTicks [fetchTick 62 36, argCellTick arg, cellOperandTick .pass, nextTick] s)

/-- LOAD LABEL_VALUE (R165, R164): the machine's load-immediate. -/
def execLoadLabelValue (arg : Int) (s : State) : Host.Outcome State Fault Refusal :=
  .next (runTicks [fetchTick 63 39, valueOperandTick .pass arg, nextTick] s)

/-- LOAD INDIRECT (R165, R163). -/
def execLoadIndirect (arg : Int) (s : State) : Host.Outcome State Fault Refusal :=
  .next (runTicks
    [fetchTick 64 41, argCellTick arg, pointerCellTick, cellOperandTick .pass, nextTick] s)

/-- STORE DIRECT (R166, R161): the mode program reads the cell before the store writes it. -/
def execStoreDirect (arg : Int) (s : State) : Host.Outcome State Fault Refusal :=
  .next (runTicks [fetchTick 71 45, argCellTick arg, storeTick, nextTick] s)

/-- STORE LABEL_ADDR (R166, R161). -/
def execStoreLabelAddr (arg : Int) (s : State) : Host.Outcome State Fault Refusal :=
  .next (runTicks [fetchTick 72 48, argCellTick arg, storeTick, nextTick] s)

/-- STORE INDIRECT (R166, R163). -/
def execStoreIndirect (arg : Int) (s : State) : Host.Outcome State Fault Refusal :=
  .next (runTicks [fetchTick 74 51, argCellTick arg, pointerCellTick, storeTick, nextTick] s)

end Sys2Proof.Machine
end

