-- ==== Sys2Proof/Machine/Dispatch.lean ====
section
/-! DEFINITION. The dispatch: one arm per instruction of the opcode table. -/

namespace Sys2Proof.Machine

def exec (i : Instr) (s : State) : Host.Outcome State Fault Refusal :=
  match i with
  | .inc => Sys2Proof.Machine.execInc s
  | .dec => Sys2Proof.Machine.execDec s
  | .cls => Sys2Proof.Machine.execCls s
  | .neg => Sys2Proof.Machine.execNeg s
  | .addDirect arg => Sys2Proof.Machine.execAddDirect arg s
  | .addLabelAddr arg => Sys2Proof.Machine.execAddLabelAddr arg s
  | .addLabelValue arg => Sys2Proof.Machine.execAddLabelValue arg s
  | .addIndirect arg => Sys2Proof.Machine.execAddIndirect arg s
  | .subDirect arg => Sys2Proof.Machine.execSubDirect arg s
  | .subLabelAddr arg => Sys2Proof.Machine.execSubLabelAddr arg s
  | .subLabelValue arg => Sys2Proof.Machine.execSubLabelValue arg s
  | .subIndirect arg => Sys2Proof.Machine.execSubIndirect arg s
  | .loadDirect arg => Sys2Proof.Machine.execLoadDirect arg s
  | .loadLabelAddr arg => Sys2Proof.Machine.execLoadLabelAddr arg s
  | .loadLabelValue arg => Sys2Proof.Machine.execLoadLabelValue arg s
  | .loadIndirect arg => Sys2Proof.Machine.execLoadIndirect arg s
  | .storeDirect arg => Sys2Proof.Machine.execStoreDirect arg s
  | .storeLabelAddr arg => Sys2Proof.Machine.execStoreLabelAddr arg s
  | .storeIndirect arg => Sys2Proof.Machine.execStoreIndirect arg s
  | .input => Sys2Proof.Machine.execInput s
  | .output => Sys2Proof.Machine.execOutput s
  | .port1In => Sys2Proof.Machine.execPort1In s
  | .port1Out => Sys2Proof.Machine.execPort1Out s
  | .port2In => Sys2Proof.Machine.execPort2In s
  | .port2Out => Sys2Proof.Machine.execPort2Out s
  | .jmpLabelValue arg => Sys2Proof.Machine.execJmpLabelValue arg s
  | .jmpzLabelValue arg => Sys2Proof.Machine.execJmpzLabelValue arg s
  | .hlt => Sys2Proof.Machine.execHlt s

end Sys2Proof.Machine
end

