-- ==== Sys2Proof/Machine/ControlWord.lean ====
section
/-! DEFINITION. The control word: its 17 columns, its tuple and its packed form, and the control-word decoder
(31_control_word.md R80 to R83; 50_control_unit.md R222). -/

namespace Sys2Proof.Machine

/-- The 17 columns in canonical order (R81). -/
inductive Column where
  | selIp | selJump | latchIp | latchIr | selAddr | latchAddr | selAlu | selAluIn | doAlu | latchAcc
  | output | dataIn | dataOut | microSelIp | microLatchIp | port1Out | port2Out
  deriving DecidableEq, Repr

/-- The index of a column (R81). -/
def Column.index : Column → Nat
  | .selIp => 0
  | .selJump => 1
  | .latchIp => 2
  | .latchIr => 3
  | .selAddr => 4
  | .latchAddr => 5
  | .selAlu => 6
  | .selAluIn => 7
  | .doAlu => 8
  | .latchAcc => 9
  | .output => 10
  | .dataIn => 11
  | .dataOut => 12
  | .microSelIp => 13
  | .microLatchIp => 14
  | .port1Out => 15
  | .port2Out => 16

/-- A control word: two bits for columns 7 and 13, one bit for every other column (R81, R82, R108). -/
structure ControlWord where
  /-- Column 0, `SEL_IP`. -/
  selIp : Bool
  /-- Column 1, `SEL_JUMP`. -/
  selJump : Bool
  /-- Column 2, `LATCH_IP`. -/
  latchIp : Bool
  /-- Column 3, `LATCH_IR`. -/
  latchIr : Bool
  /-- Column 4, `SEL_ADDR`. -/
  selAddr : Bool
  /-- Column 5, `LATCH_ADDR`. -/
  latchAddr : Bool
  /-- Column 6, `SEL_ALU`. -/
  selAlu : Bool
  /-- Column 7, `SEL_ALU_IN`. -/
  selAluIn : BitVec 2
  /-- Column 8, `DO_ALU`. -/
  doAlu : Bool
  /-- Column 9, `LATCH_ACC`. -/
  latchAcc : Bool
  /-- Column 10, `OUTPUT`. -/
  output : Bool
  /-- Column 11, `DATA_IN`. -/
  dataIn : Bool
  /-- Column 12, `DATA_OUT`. -/
  dataOut : Bool
  /-- Column 13, `MICRO_SEL_IP`. -/
  microSelIp : BitVec 2
  /-- Column 14, `MICRO_LATCH_IP`. -/
  microLatchIp : Bool
  /-- Column 15, `PORT1_OUT`. -/
  port1Out : Bool
  /-- Column 16, `PORT2_OUT`. -/
  port2Out : Bool
  deriving DecidableEq, Repr

/-- The tuple form, column 0 first (R80). -/
def ControlWord.toTuple (w : ControlWord) : List Nat :=
  [w.selIp.toNat, w.selJump.toNat, w.latchIp.toNat, w.latchIr.toNat, w.selAddr.toNat,
   w.latchAddr.toNat, w.selAlu.toNat, w.selAluIn.toNat, w.doAlu.toNat, w.latchAcc.toNat,
   w.output.toNat, w.dataIn.toNat, w.dataOut.toNat, w.microSelIp.toNat, w.microLatchIp.toNat,
   w.port1Out.toNat, w.port2Out.toNat]

/-- `CW[c]`, the value in a column (00_scope.md R7). -/
def ControlWord.col (w : ControlWord) (c : Column) : Nat := w.toTuple.getD c.index 0

/-- The greatest legal value of a column (R81). -/
def Column.maxValue : Column → Nat
  | .selAluIn => 3
  | .microSelIp => 2
  | _ => 1

/-- The columns in canonical order (R81). -/
def Column.all : List Column :=
  [.selIp, .selJump, .latchIp, .latchIr, .selAddr, .latchAddr, .selAlu, .selAluIn, .doAlu,
   .latchAcc, .output, .dataIn, .dataOut, .microSelIp, .microLatchIp, .port1Out, .port2Out]

/-- A control word is well formed when every column holds one of its legal values (R83). -/
def ControlWord.wellFormed (w : ControlWord) : Bool :=
  Column.all.all (fun c => decide (w.col c ≤ c.maxValue))

/-- A tuple of small integers is a well-formed control word (R80, R83, R108). -/
def tupleWellFormed (t : List Nat) : Bool :=
  decide (t.length = 17) && Column.all.all (fun c => decide (t.getD c.index 0 ≤ c.maxValue))

/-- The control word of a tuple; an ill-formed tuple is refused (R83, R108). -/
def ControlWord.ofTuple (t : List Nat) : Option ControlWord :=
  if tupleWellFormed t then
    let bit (c : Column) : Bool := decide (t.getD c.index 0 = 1)
    some
      { selIp := bit .selIp
        selJump := bit .selJump
        latchIp := bit .latchIp
        latchIr := bit .latchIr
        selAddr := bit .selAddr
        latchAddr := bit .latchAddr
        selAlu := bit .selAlu
        selAluIn := BitVec.ofNat 2 (t.getD Column.selAluIn.index 0)
        doAlu := bit .doAlu
        latchAcc := bit .latchAcc
        output := bit .output
        dataIn := bit .dataIn
        dataOut := bit .dataOut
        microSelIp := BitVec.ofNat 2 (t.getD Column.microSelIp.index 0)
        microLatchIp := bit .microLatchIp
        port1Out := bit .port1Out
        port2Out := bit .port2Out }
  else none

/-- `lsb(c)`, the place of a column in the packed form (R82). -/
def Column.lsb : Column → Nat
  | .selIp => 0
  | .selJump => 1
  | .latchIp => 2
  | .latchIr => 3
  | .selAddr => 4
  | .latchAddr => 5
  | .selAlu => 6
  | .selAluIn => 7
  | .doAlu => 9
  | .latchAcc => 10
  | .output => 11
  | .dataIn => 12
  | .dataOut => 13
  | .microSelIp => 14
  | .microLatchIp => 16
  | .port1Out => 17
  | .port2Out => 18

/-- `packed(CW)`, the sum over the columns of `CW[c] << lsb(c)` (R82). -/
def ControlWord.pack (w : ControlWord) : BitVec 19 :=
  BitVec.ofNat 19 ((Column.all.map (fun c => w.col c * 2 ^ c.lsb)).sum)

/-- The control-word decoder on the packed form: the field extraction of R222, every column's bits at `lsb(c)`. -/
def ControlWord.unpack (p : BitVec 19) : ControlWord :=
  let bit (c : Column) : Bool := p.getLsbD c.lsb
  { selIp := bit .selIp
    selJump := bit .selJump
    latchIp := bit .latchIp
    latchIr := bit .latchIr
    selAddr := bit .selAddr
    latchAddr := bit .latchAddr
    selAlu := bit .selAlu
    selAluIn := p.extractLsb' Column.selAluIn.lsb 2
    doAlu := bit .doAlu
    latchAcc := bit .latchAcc
    output := bit .output
    dataIn := bit .dataIn
    dataOut := bit .dataOut
    microSelIp := p.extractLsb' Column.microSelIp.lsb 2
    microLatchIp := bit .microLatchIp
    port1Out := bit .port1Out
    port2Out := bit .port2Out }

/-- The activations that the decoder hands to the data path, column 0 first (R222). -/
def ControlWord.activations (w : ControlWord) : List (Column × Nat) :=
  Column.all.map (fun c => (c, w.col c))

end Sys2Proof.Machine
end

