-- ==== Sys2Proof/Machine/Microcode.lean ====
section
/-! DEFINITION. The microcode generator (31_control_word.md R84 to R88), the symbolic micro-programs of the reference
microcode (32_microcode_rom.md R121 to R124), and the reference ROM with its decode index (R125, R126). -/

namespace Sys2Proof.Machine

/-- The name vocabulary of R84. -/
inductive Signal where
  | selIp | selJump | latchIp | latchIr | selAddr | latchAddr | selAlu | selAluIn | port1In | port2In
  | doAlu | latchAcc | output | dataIn | dataOut | microSelIp | microResetIp | microLatchIp
  | port1Out | port2Out
  | holdSelIp | holdSelJump | holdSelAddr | holdSelAlu | holdSelAluIn
  deriving DecidableEq, Repr

/-- What a name does to the word being compiled: drive a column with a value, or hold the previous word's. -/
inductive SignalEffect where
  | drive (column : Column) (value : Nat)
  | hold (column : Column)
  deriving DecidableEq, Repr

/-- The column a name addresses and the value it writes there (R84, with the three overrides of R85), or the column a
hold variant holds (R86). -/
def Signal.effect : Signal → SignalEffect
  | .selIp => .drive .selIp 1
  | .selJump => .drive .selJump 1
  | .latchIp => .drive .latchIp 1
  | .latchIr => .drive .latchIr 1
  | .selAddr => .drive .selAddr 1
  | .latchAddr => .drive .latchAddr 1
  | .selAlu => .drive .selAlu 1
  | .selAluIn => .drive .selAluIn 1
  | .port1In => .drive .selAluIn 2
  | .port2In => .drive .selAluIn 3
  | .doAlu => .drive .doAlu 1
  | .latchAcc => .drive .latchAcc 1
  | .output => .drive .output 1
  | .dataIn => .drive .dataIn 1
  | .dataOut => .drive .dataOut 1
  | .microSelIp => .drive .microSelIp 1
  | .microResetIp => .drive .microSelIp 2
  | .microLatchIp => .drive .microLatchIp 1
  | .port1Out => .drive .port1Out 1
  | .port2Out => .drive .port2Out 1
  | .holdSelIp => .hold .selIp
  | .holdSelJump => .hold .selJump
  | .holdSelAddr => .hold .selAddr
  | .holdSelAlu => .hold .selAlu
  | .holdSelAluIn => .hold .selAluIn

/-- The spelling of a name (R84). -/
def Signal.name : Signal → String
  | .selIp => "SEL_IP"
  | .selJump => "SEL_JUMP"
  | .latchIp => "LATCH_IP"
  | .latchIr => "LATCH_IR"
  | .selAddr => "SEL_ADDR"
  | .latchAddr => "LATCH_ADDR"
  | .selAlu => "SEL_ALU"
  | .selAluIn => "SEL_ALU_IN"
  | .port1In => "PORT1_IN"
  | .port2In => "PORT2_IN"
  | .doAlu => "DO_ALU"
  | .latchAcc => "LATCH_ACC"
  | .output => "OUTPUT"
  | .dataIn => "DATA_IN"
  | .dataOut => "DATA_OUT"
  | .microSelIp => "MICRO_SEL_IP"
  | .microResetIp => "MICRO_RESET_IP"
  | .microLatchIp => "MICRO_LATCH_IP"
  | .port1Out => "PORT1_OUT"
  | .port2Out => "PORT2_OUT"
  | .holdSelIp => "HOLD_SEL_IP"
  | .holdSelJump => "HOLD_SEL_JUMP"
  | .holdSelAddr => "HOLD_SEL_ADDR"
  | .holdSelAlu => "HOLD_SEL_ALU"
  | .holdSelAluIn => "HOLD_SEL_ALU_IN"

/-- Every name of the vocabulary (R84). -/
def Signal.all : List Signal :=
  [.selIp, .selJump, .latchIp, .latchIr, .selAddr, .latchAddr, .selAlu, .selAluIn, .port1In, .port2In,
   .doAlu, .latchAcc, .output, .dataIn, .dataOut, .microSelIp, .microResetIp, .microLatchIp,
   .port1Out, .port2Out, .holdSelIp, .holdSelJump, .holdSelAddr, .holdSelAlu, .holdSelAluIn]

/-- The name that a string spells, if it is in the vocabulary. -/
def Signal.ofName (text : String) : Option Signal := Signal.all.find? (fun n => n.name == text)

/-! Compilation of one set of names (R87). A set is a list; a name written twice in it is one element of the set. -/

/-- The first loop of R87: the driving names. -/
def driveColumns : List Signal → List Nat → Except ConfigError (List Nat)
  | [], t => .ok t
  | n :: ns, t =>
    match n.effect with
    | .hold _ => driveColumns ns t
    | .drive c v =>
      if t.getD c.index 0 ≠ 0 then .error (.columnDrivenTwice c.index)
      else driveColumns ns (t.set c.index v)

/-- The second loop of R87: the hold variants copy the previous word's value, 0 when there is none (R86). -/
def holdColumns (previous : Option (List Nat)) :
    List Signal → List Nat → Except ConfigError (List Nat)
  | [], t => .ok t
  | n :: ns, t =>
    match n.effect with
    | .drive _ _ => holdColumns previous ns t
    | .hold c =>
      if t.getD c.index 0 ≠ 0 then .error (.heldAndDriven c.index)
      else
        match previous with
        | none => holdColumns previous ns t
        | some p => holdColumns previous ns (t.set c.index (p.getD c.index 0))

/-- `compile(S, P)` of R87 on names already looked up: the tuple of the word. The two errors come in the order of R87's
loops; which of several doubly driven columns is named, the first in the list's order, is the model's choice (DESIGN CHOICE,
log 14). -/
def compile (names : List Signal) (previous : Option (List Nat)) : Except ConfigError (List Nat) :=
  match driveColumns names.dedup (List.replicate 17 0) with
  | .error e => .error e
  | .ok t => holdColumns previous names.dedup t

/-- The look-up of a set's names, the first line of R87: a name outside the vocabulary is the configuration error "undefined
signal". Of several, the first in the list is named (DESIGN CHOICE, log 14). -/
def lookupNames : List String → Except ConfigError (List Signal)
  | [] => .ok []
  | text :: rest =>
    match Signal.ofName text with
    | none => .error (.undefinedSignal text)
    | some n =>
      match lookupNames rest with
      | .error e => .error e
      | .ok ns => .ok (n :: ns)

/-- `compile(S, P)` of R87, whole: the look-up of the names and then the two loops. -/
def compileNames (names : List String) (previous : Option (List Nat)) :
    Except ConfigError (List Nat) :=
  match lookupNames names with
  | .error e => .error e
  | .ok ns => compile ns previous

/-! The ROM and the decode index (R88; 32_microcode_rom.md R125, R126). -/

/-- A microcode: the ROM, offset 0 first, and the decode index from instruction codes to offsets. -/
structure Microcode where
  rom : List ControlWord
  index : List (Nat × Nat)
  deriving DecidableEq, Repr

/-- `DecodeIndex[c]`, if the code is a key. -/
def Microcode.entry (m : Microcode) (code : Nat) : Option Nat :=
  (m.index.find? (fun e => e.1 == code)).map Prod.snd

/-- A ROM is well formed when every word is, when it has at least one word, and when every offset in its decode index is
at most `ROM_LEN` (R83). -/
def Microcode.wellFormed (m : Microcode) : Bool :=
  m.rom.all ControlWord.wellFormed && decide (m.rom ≠ [])
    && m.index.all (fun e => decide (e.2 ≤ m.rom.length))

/-- The symbolic microcode that the generator works on: the bootstrap block, a micro-program per addressing mode, a
micro-program per opcode, each a sequence of sets of signal names as written (R84, R88). A name may be any string: the
generator refuses those outside the vocabulary (R87, R254). -/
structure MicroSource where
  boot : List (List String)
  mode : Mode → List (List String)
  opcode : Opcode → List (List String)

/-- The words of one block, appended to a table in which the previous word is the last. -/
def emitBlock : List (List String) → List (List Nat) → Except ConfigError (List (List Nat))
  | [], table => .ok table
  | names :: rest, table =>
    match compileNames names table.getLast? with
    | .error e => .error e
    | .ok t => emitBlock rest (table ++ [t])

/-- The legal pairs in the order of R88: opcodes in index order, for each the legal modes in index order. -/
def legalPairs : List (Opcode × Mode) :=
  Opcode.all.flatMap (fun o => (Mode.all.filter (legalPair o)).map (fun m => (o, m)))

/-- The blocks of a list of pairs: the mode program and then the opcode program, the starting offset recorded under the
pair's code (R88). -/
def emitPairs (src : MicroSource) :
    List (Opcode × Mode) → List (List Nat) → List (Nat × Nat) →
      Except ConfigError (List (List Nat) × List (Nat × Nat))
  | [], table, index => .ok (table, index)
  | (o, m) :: rest, table, index =>
    match emitBlock (src.mode m ++ src.opcode o) table with
    | .error e => .error e
    | .ok t => emitPairs src rest t (index ++ [(codeNumber o m, table.length)])

/-- The words of a list of tuples; an ill-formed tuple is an ill-formed ROM (R83). -/
def wordsOfTuples : List (List Nat) → Except ConfigError (List ControlWord)
  | [] => .ok []
  | t :: ts =>
    match ControlWord.ofTuple t with
    | none => .error .illFormedRom
    | some w =>
      match wordsOfTuples ts with
      | .error e => .error e
      | .ok ws => .ok (w :: ws)

/-- `build()` of R88; it refuses at the first set, in its own order, that does not compile (R87, R254). -/
def MicroSource.build (src : MicroSource) : Except ConfigError Microcode :=
  match emitBlock src.boot [] with
  | .error e => .error e
  | .ok boot =>
    match emitPairs src legalPairs boot [] with
    | .error e => .error e
    | .ok (table, index) =>
      match wordsOfTuples table with
      | .error e => .error e
      | .ok rom => .ok ⟨rom, index⟩

/-! The reference micro-programs (R121 to R124). -/

/-- `NEXT`, the last word of every opcode program except the jumps (R122). -/
def microNext : List Signal :=
  [.holdSelAddr, .holdSelAlu, .holdSelAluIn, .latchIp, .microResetIp, .microLatchIp]

/-- The bootstrap block, also the fetch block (R121). -/
def microBoot : List (List Signal) :=
  [[.holdSelIp, .holdSelJump, .holdSelAddr, .holdSelAlu, .holdSelAluIn,
    .latchIr, .microSelIp, .microLatchIp]]

/-- The addressing-mode micro-programs (R123). -/
def microMode : Mode → List (List Signal)
  | .none => []
  | .direct => [[.selAddr, .latchAddr, .dataIn, .microLatchIp]]
  | .labelAddr => [[.selAddr, .latchAddr, .dataIn, .microLatchIp]]
  | .labelValue => []
  | .indirect =>
    [[.selAddr, .latchAddr, .dataIn, .microLatchIp], [.latchAddr, .dataIn, .microLatchIp]]

/-- The opcode micro-programs (R124). -/
def microOpcode : Opcode → List (List Signal)
  | .inc | .dec | .cls | .neg => [[.doAlu, .latchAcc, .microLatchIp], microNext]
  | .add | .sub | .load => [[.selAlu, .doAlu, .latchAcc, .microLatchIp], microNext]
  | .store => [[.dataOut, .microLatchIp], microNext]
  | .input => [[.selAluIn, .doAlu, .latchAcc, .microLatchIp], microNext]
  | .output => [[.output, .microLatchIp], microNext]
  | .port1In => [[.port1In, .doAlu, .latchAcc, .microLatchIp], microNext]
  | .port1Out => [[.port1Out, .microLatchIp], microNext]
  | .port2In => [[.port2In, .doAlu, .latchAcc, .microLatchIp], microNext]
  | .port2Out => [[.port2Out, .microLatchIp], microNext]
  | .jmp => [[.selIp, .latchIp, .microResetIp, .microLatchIp]]
  | .jmpz => [[.selIp, .selJump, .latchIp, .microResetIp, .microLatchIp]]
  | .hlt => []

/-- A micro-program as it is written: the spellings of its names (R84). -/
def spell (program : List (List Signal)) : List (List String) := program.map (fun names => names.map Signal.name)

/-- The reference micro-programs as the generator's input (R121 to R124). -/
def referenceSource : MicroSource :=
  ⟨spell microBoot, fun m => spell (microMode m), fun o => spell (microOpcode o)⟩

/-- The packed words of the table of R125, offset 0 first: the fetch word, then the blocks in the order of the opcode
table. -/
def referencePacked : List (BitVec 19) :=
  [0x14008] ++
  [0x10600, 0x18004] ++ [0x10600, 0x18004] ++ [0x10600, 0x18004] ++ [0x10600, 0x18004] ++
  [0x11030, 0x10640, 0x18044] ++ [0x11030, 0x10640, 0x18044] ++ [0x10640, 0x18044] ++
  [0x11030, 0x11020, 0x10640, 0x18044] ++
  [0x11030, 0x10640, 0x18044] ++ [0x11030, 0x10640, 0x18044] ++ [0x10640, 0x18044] ++
  [0x11030, 0x11020, 0x10640, 0x18044] ++
  [0x11030, 0x10640, 0x18044] ++ [0x11030, 0x10640, 0x18044] ++ [0x10640, 0x18044] ++
  [0x11030, 0x11020, 0x10640, 0x18044] ++
  [0x11030, 0x12000, 0x18004] ++ [0x11030, 0x12000, 0x18004] ++
  [0x11030, 0x11020, 0x12000, 0x18004] ++
  [0x10680, 0x18084] ++ [0x10800, 0x18004] ++
  [0x10700, 0x18104] ++ [0x30000, 0x18004] ++ [0x10780, 0x18184] ++ [0x50000, 0x18004] ++
  [0x18005] ++ [0x18007]

/-- The decode index of R126. -/
def referenceIndex : List (Nat × Nat) :=
  [(0, 1), (10, 3), (20, 5), (30, 7),
   (41, 9), (42, 12), (43, 15), (44, 17), (51, 21), (52, 24), (53, 27), (54, 29),
   (61, 33), (62, 36), (63, 39), (64, 41), (71, 45), (72, 48), (74, 51),
   (80, 55), (90, 57), (100, 59), (110, 61), (120, 63), (130, 65),
   (143, 67), (153, 68), (160, 69)]

/-- The reference microcode (R125, R126): the words are the packed ones through the control-word decoder (R222). -/
def referenceMicrocode : Microcode := ⟨referencePacked.map ControlWord.unpack, referenceIndex⟩

end Sys2Proof.Machine
end

