-- ==== Sys2Proof/Machine/DataPath.lean ====
section
/-! DEFINITION. The data path: the multiplexers (31_control_word.md R90 to R92, R94, R96, R98, R104), the eleven action
primitives (R93 to R107) and `apply`, one control word in column order (R89, R109). The six select primitives change no
state: a latch reads its select in the word being applied (10_state.md R20). -/

namespace Sys2Proof.Machine

/-- The jump-type mux (R92): 0 passes `ARG`, 1 passes `ARG` if `Z` is set and `IP + 1` otherwise. -/
def jumpMux (w : ControlWord) (s : State) : Int :=
  if w.selJump = false ∨ s.z = true then s.wireArg else wrap s.cfg.width (s.ip + 1)

/-- The IP mux (R91): 0 advances, 1 passes the jump-type mux. Its reset input is `State.resetWith`'s. -/
def ipMux (w : ControlWord) (s : State) : Int :=
  if w.selIp then jumpMux w s else wrap s.cfg.width (s.ip + 1)

/-- The address mux (R90, R96): 0 the value just read, 1 the argument. -/
def addrMux (w : ControlWord) (s : State) : Int :=
  if w.selAddr then s.wireArg else s.mdr

/-- The ALU operand mux (R98): 0 the accumulator, 1 the operand latch. -/
def aluOperandMux (w : ControlWord) (s : State) : Int :=
  if w.selAlu then s.opr else s.acc

/-- The queue that the ALU input mux reads in its external positions 1, 2 and 3 (R98). -/
def aluInputQueue (w : ControlWord) : Option InQueue :=
  if w.selAluIn = 1 then some .in0
  else if w.selAluIn = 2 then some .p1in
  else if w.selAluIn = 3 then some .p2in
  else none

/-- `LATCH_IP`, column 2 (R93). -/
def primLatchIp (w : ControlWord) (s : State) : TickResult :=
  if w.latchIp then
    if inRange s.cfg.instrMemSize (ipMux w s) then .done (s.setIp (ipMux w s))
    else .raised (.instrAddrOutOfRange (ipMux w s)) s
  else .done s

/-- `LATCH_IR`, column 3 (R95): the padding test, the latch, the halt. An illegal code is latched and raises nothing here;
the look-up of column 14 misses it (R65, R105; log 12). -/
def primLatchIr (w : ControlWord) (s : State) : TickResult :=
  if w.latchIr then
    if s.ip ≥ (s.progLen : Int) then .raised (.fetchOutsideProgram s.ip) s
    else if haltCode s.wireCode then .raised .normalHalt (s.setIr s.wireCode)
    else .done (s.setIr s.wireCode)
  else .done s

/-- `LATCH_ADDR`, column 5 (R97). -/
def primLatchAddr (w : ControlWord) (s : State) : TickResult :=
  if w.latchAddr then .done (s.setAr (addrMux w s)) else .done s

/-- `DO_ALU`, column 8 (R99): an external position pops its queue whatever the function; an empty queue raises before
anything is written. -/
def primDoAlu (w : ControlWord) (s : State) : TickResult :=
  if w.doAlu then
    match aluInputQueue w with
    | none => .done (s.setAlu (alu s.cfg.width (opcodeOf s.ir) s.acc (aluOperandMux w s)))
    | some q =>
      match s.popQueue q with
      | none => .raised (.bufferUnderrun q) s
      | some (x, t) => .done (t.setAlu (alu t.cfg.width (opcodeOf t.ir) t.acc x))
  else .done s

/-- `LATCH_ACC`, column 9 (R100). -/
def primLatchAcc (w : ControlWord) (s : State) : TickResult :=
  if w.latchAcc then .done s.commitAlu else .done s

/-- `OUTPUT`, column 10 (R101). -/
def primOutput (w : ControlWord) (s : State) : TickResult :=
  if w.output then .done (s.appendOut .out0 s.acc) else .done s

/-- `DATA_IN`, column 11 (R102). -/
def primDataIn (w : ControlWord) (s : State) : TickResult :=
  if w.dataIn then
    match s.dmemRead s.ar with
    | some t => .done (s.setMdr t)
    | none => .raised (.dataAddrOutOfRange s.ar) s
  else .done s

/-- `DATA_OUT`, column 12 (R103). -/
def primDataOut (w : ControlWord) (s : State) : TickResult :=
  if w.dataOut then
    match s.dmemWrite s.ar s.acc with
    | some t => .done t
    | none => .raised (.dataAddrOutOfRange s.ar) s
  else .done s

/-- `MICRO_LATCH_IP`, column 14, with the micro mux of column 13 (R91, R104, R105). -/
def primMicroLatchIp (m : Microcode) (w : ControlWord) (s : State) : TickResult :=
  if w.microLatchIp then
    if w.microSelIp = 0 then
      if s.mip + 1 < m.rom.length then .done (s.setMip (s.mip + 1))
      else .raised (.microAddrOutOfRange (s.mip + 1)) s
    else if w.microSelIp = 1 then
      match m.entry s.ir.toNat with
      | none => .raised (.decodeIndexMiss s.ir) s
      | some offset =>
        if offset < m.rom.length then .done (s.setMip offset)
        else .raised (.microAddrOutOfRange offset) s
    else if w.microSelIp = 2 then .done s.boundary
    else .raised (.reservedMicroSelect s.mip) s
  else .done s

/-- `PORT1_OUT`, column 15 (R106). -/
def primPort1Out (w : ControlWord) (s : State) : TickResult :=
  if w.port1Out then .done (s.appendOut .p1out s.acc) else .done s

/-- `PORT2_OUT`, column 16 (R107). -/
def primPort2Out (w : ControlWord) (s : State) : TickResult :=
  if w.port2Out then .done (s.appendOut .p2out s.acc) else .done s

/-- The primitive of a column (R81, R222). The six selects are applied for every value and change no state (R89, R94,
R96, R98, R104). -/
def primitive (m : Microcode) (w : ControlWord) : Column → State → TickResult
  | .selIp => .done
  | .selJump => .done
  | .latchIp => primLatchIp w
  | .latchIr => primLatchIr w
  | .selAddr => .done
  | .latchAddr => primLatchAddr w
  | .selAlu => .done
  | .selAluIn => .done
  | .doAlu => primDoAlu w
  | .latchAcc => primLatchAcc w
  | .output => primOutput w
  | .dataIn => primDataIn w
  | .dataOut => primDataOut w
  | .microSelIp => .done
  | .microLatchIp => primMicroLatchIp m w
  | .port1Out => primPort1Out w
  | .port2Out => primPort2Out w

/-- `apply(CW)` of R109: the seventeen primitives in column order, each seeing the changes of those before it, a raise
abandoning the rest (R89, R226). -/
def applyWord (m : Microcode) (w : ControlWord) (s : State) : TickResult :=
  Column.all.foldl (fun r c => r.andThen (primitive m w c)) (.done s)

end Sys2Proof.Machine
end

