-- ==== Sys2Proof/Machine/Tick.lean ====
section
/-! DEFINITION. The tick-driven controller on a microcode (50_control_unit.md R220 to R226) and the run result (R227). -/

namespace Sys2Proof.Machine

/-- The loop body of R225 on a microcode: nothing once stopped; otherwise the ceiling test and one application of
`ROM[MIP]`. A running state with an `IP` or a `MIP` that R12 and R21 rule out faults (log 8). -/
def tickOf (m : Microcode) (s : State) : Host.Outcome State Fault Refusal :=
  match s.status with
  | .stopped _ => .next s
  | .running =>
    if s.ipInRange then
      match m.rom[s.mip]? with
      | some w => .next (controlTick (applyWord m w) s)
      | none => .fault .mipOutsideRom
    else .fault .ipOutsideMemory

/-- One tick of the machine with the reference microcode. -/
def tick (s : State) : Host.Outcome State Fault Refusal := tickOf referenceMicrocode s

/-- The machine that steps by ticks on a microcode: the transition system of R229, with its parameters `ROM` and
`DecodeIndex`. -/
def tickMachine (m : Microcode) : Host.Core :=
  { State := State, Fault := Fault, Refusal := Refusal, step := tickOf m, reset := State.reset }

/-- `n` ticks on a microcode. -/
def ticksFor (m : Microcode) (n : Nat) (s : State) : Host.Outcome State Fault Refusal :=
  (tickMachine m).run n s

/-- The document's per-tick states (R223). -/
inductive Phase where
  | fetching | executing | halted
  deriving DecidableEq, Repr

/-- The phase of a state: halted once stopped, fetching when `MIP = 0`, executing otherwise (R223). -/
def State.phase (s : State) : Phase :=
  match s.status with
  | .stopped _ => .halted
  | .running => if s.mip = 0 then .fetching else .executing

/-- The ticks of an instruction with the reference ROM, the fetch tick included (32_microcode_rom.md R129); the one tick
of HLT is begun, raises and is not counted. -/
def ticksOf (i : Instr) : Nat :=
  match i.opcode, i.mode with
  | .hlt, _ => 1
  | .jmp, _ | .jmpz, _ => 2
  | _, .none | _, .labelValue => 3
  | _, .direct | _, .labelAddr => 4
  | _, .indirect => 5

/-- The kinds of event of 60_exceptions.md R255: the document's terminations and the spec's faults. -/
inductive EventKind where
  | termination | fault
  deriving DecidableEq, Repr

/-- The kind of a cause (R250 to R253, R255). -/
def Cause.kind : Cause → EventKind
  | .normalHalt | .bufferUnderrun _ | .tickCeilingExceeded => .termination
  | .instrAddrOutOfRange _ | .fetchOutsideProgram _ | .dataAddrOutOfRange _ => .fault
  | .decodeIndexMiss _ | .microAddrOutOfRange _ | .reservedMicroSelect _ => .fault

/-- The run result of R227. -/
structure RunResult where
  cause : Cause
  ticks : Nat
  icount : Nat
  out0 : List Int
  p1out : List Int
  p2out : List Int
  deriving DecidableEq, Repr

/-- `result()` of R227: there is one once the machine has stopped. -/
def State.runResult (s : State) : Option RunResult :=
  match s.status with
  | .running => none
  | .stopped c =>
    some
      { cause := c, ticks := s.ticks, icount := s.icount
        out0 := s.out0, p1out := s.p1out, p2out := s.p2out }

/-- The document's single number: the tick count, or the sentinel -1 when the ceiling was exceeded (R227, decision
D19). -/
def RunResult.reportedTicks (r : RunResult) : Int :=
  if r.cause = .tickCeilingExceeded then -1 else (r.ticks : Int)

/-- The loop of R225, passed through at most `n` times: the stopped state in which the loop ends, or the fault that ends
it (log 8); `none` if the machine still runs after `n` passes. -/
def runWithin (m : Microcode) : Nat → State → Option (Host.Outcome State Fault Refusal)
  | 0, s =>
    match s.status with
    | .stopped _ => some (.next s)
    | .running => none
  | n + 1, s =>
    match s.status with
    | .stopped _ => some (.next s)
    | .running =>
      match tickOf m s with
      | .next t => runWithin m n t
      | .fault f => some (.fault f)
      | .refused r => some (.refused r)

/-- `run()` of R225, under any ceiling: from `s` the loop ends in the state `t`, whose `runResult` is what `run()` returns.
It holds of no `t` when the run does not end, which takes an unbounded ceiling (R225). -/
def State.RunsTo (m : Microcode) (s t : State) : Prop := ∃ n, runWithin m n s = some (.next t)

/-- `run()` of R225 under a finite ceiling, computed: one pass for every tick that is left and one more, in which the
machine stops at the latest. With an unbounded ceiling the number of passes is the caller's. -/
def State.runToEnd (m : Microcode) (passes : Nat) (s : State) : Option (Host.Outcome State Fault Refusal) :=
  match s.cfg.tickLimit with
  | none => runWithin m passes s
  | some limit => runWithin m (limit - s.ticks + 1) s

end Sys2Proof.Machine
end

