-- ==== Sys2Proof/Machine/Fetch.lean ====
section
/-! DEFINITION. Fetching at an instruction boundary (31_control_word.md R95, R105; 30_encoding.md R65), and placing an
instruction word where the machine fetches. -/

namespace Sys2Proof.Machine

/-- What a fetch at an instruction boundary finds. -/
inductive FetchResult where
  /-- The word at `IP` is a legal instruction of the program. -/
  | instr (i : Instr)
  /-- The fetch tick raises, or the ceiling stops it: the machine stops in the state given. -/
  | stop (s : State)
  deriving DecidableEq, Repr

/-- The fetch: the ceiling test that precedes the fetch tick (50_control_unit.md R225), the padding test (R95), and the
decoding of the word at `IP`. An illegal code is latched into `IR`, and the dispatch through the decode index misses (R65,
R105; log 12). -/
def State.fetch (s : State) : FetchResult :=
  if s.atCeiling then .stop (s.stop .tickCeilingExceeded)
  else if s.ip ≥ (s.progLen : Int) then .stop (s.stop (.fetchOutsideProgram s.ip))
  else
    match decode (s.imemRead s.ip) with
    | .ok i => .instr i
    | .error (.illegalCode code) => .stop ((s.setIr code).stop (.decodeIndexMiss code))

/-- An instruction memory with a word at an index: zero words fill the program up to it. -/
def placeWord : List InstrWord → Nat → InstrWord → List InstrWord
  | [], 0, w => [w]
  | _ :: ws, 0, w => w :: ws
  | [], n + 1, w => InstrWord.zero :: placeWord [] n w
  | v :: ws, n + 1, w => v :: placeWord ws n w

/-- The state with an instruction word at `IP`, its argument staged onto `OPR` as the latch or the reset that made the
instruction current would have done (10_state.md R18; 70_reset_and_hazards.md R280). -/
def State.placeAtIp (s : State) (w : InstrWord) : State :=
  { s with imem := placeWord s.imem s.ip.toNat w, opr := w.arg }

end Sys2Proof.Machine
end

