-- ==== Sys2Proof/Machine/Step.lean ====
section
/-! DEFINITION. The step of the machine (50_control_unit.md R225, R226, R229). -/

namespace Sys2Proof.Machine

/-- One step. A stopped machine stays as it is (R226: the terminal state is absorbing). At an instruction boundary
(`MIP = 0`) the instruction at `IP` is fetched and run to the next boundary or to the event that stops it: the
instruction-level step of R229. In the middle of a micro-program one tick is applied (R221; log 2). A running state
whose `IP` is outside instruction memory faults (log 8). -/
def step (s : State) : Host.Outcome State Fault Refusal :=
  match s.status with
  | .stopped _ => .next s
  | .running =>
    if s.ipInRange then
      if s.mip = 0 then
        match s.fetch with
        | .instr i => exec i s
        | .stop t => .next t
      else tick s
    else .fault .ipOutsideMemory

/-- The state with the instruction word of the number `w`, of whose bits those from `nbits` up are 0, stored at `IP` at
the state's width and its argument staged, so that the next step fetches and runs it. It stands for the host's loading of a
program (log 9). -/
def State.withFetchWord (s : State) (nbits w : Nat) : State :=
  s.placeAtIp (InstrWord.ofBits s.cfg.width (BitVec.ofNat _ (w % 2 ^ nbits)))

end Sys2Proof.Machine
end

