-- ==== Sys2Proof/Machine/Loader.lean ====
section
/-! DEFINITION. The program document, the loader, the queue builder and the host's sequence before reset (20_memory.md
R44 to R46; 42_io.md R182; 70_reset_and_hazards.md R280, R282). -/

namespace Sys2Proof.Machine

/-- An entry of the `data` segment: `size` cells, the first of them with initial values (R44). Any other field of an
entry is ignored (decision D22) and is not represented. -/
structure DataEntry where
  size : Int
  init : List Int
  deriving DecidableEq, Repr

/-- The argument of a `code` entry, `int|string` or absent (R44, R46). -/
inductive DocArg where
  | absent
  | int (n : Int)
  | str (text : String)
  deriving DecidableEq, Repr

/-- An entry of the `code` segment (R44). -/
structure CodeEntry where
  opcode : String
  addressType : String
  arg : DocArg
  deriving DecidableEq, Repr

/-- The program document (R44). -/
structure ProgramDocument where
  data : List DataEntry
  code : List CodeEntry
  deriving DecidableEq, Repr

/-- A host integer as a word of width `w`; refused outside the signed range (decision D23). -/
def wordOfInt (w : Nat) (n : Int) : Except ConfigError Int :=
  if fitsWord w n then .ok n else .error (.valueOutOfRange n)

/-- A host sequence as words: the queue builder (R182). Of several elements out of range the first is named (DESIGN CHOICE,
log 14). -/
def wordsOfInts (w : Nat) : List Int → Except ConfigError (List Int)
  | [] => .ok []
  | n :: ns =>
    match wordOfInt w n with
    | .error e => .error e
    | .ok v =>
      match wordsOfInts w ns with
      | .error e => .error e
      | .ok vs => .ok (v :: vs)

/-- The cells of the data segment in order from cell 0: each entry's initial values and then zeros up to its size
(R45). The refusal that is named is that of the first entry that breaks a rule, and in it the negative size first, then the
length, then the values (DESIGN CHOICE, log 14). -/
def dataCells (w : Nat) : List DataEntry → Except ConfigError (List Int)
  | [] => .ok []
  | e :: es =>
    if e.size < 0 then .error (.negativeSize e.size)
    else if e.size < (e.init.length : Int) then .error .initLongerThanSize
    else
      match wordsOfInts w e.init with
      | .error r => .error r
      | .ok vs =>
        match dataCells w es with
        | .error r => .error r
        | .ok cells => .ok (vs ++ List.replicate (e.size.toNat - vs.length) 0 ++ cells)

/-- The canonical memory of a list of cells that starts at an index. -/
def memoryOfCells : Nat → List Int → Memory
  | _, [] => []
  | a, v :: vs => Memory.cons a v (memoryOfCells (a + 1) vs)

/-- Loading data memory (R45): the cells laid out from 0, refused when they exceed `DATA_MEM_SIZE`, which is tested after the
entries (DESIGN CHOICE, log 14). -/
def loadData (cfg : Config) (data : List DataEntry) : Except ConfigError Memory :=
  match dataCells cfg.width data with
  | .error e => .error e
  | .ok cells =>
    if cells.length ≤ cfg.dataMemSize then .ok (memoryOfCells 0 cells) else .error .dataTooLong

/-- The argument word of a `code` entry (R46): a string is refused; an absent argument is 0 in mode `NONE`; in another
mode it is refused (log 10). -/
def docArgWord (w : Nat) (m : Mode) : DocArg → Except ConfigError Int
  | .int n => wordOfInt w n
  | .str text => .error (.stringArgument text)
  | .absent => if m = .none then .ok 0 else .error .missingArgument

/-- The instruction word of a `code` entry (R46). R46 lists the grounds for refusing and gives them no order; that an entry
with several faults is refused for its opcode string first, then its mode string, then the pair, then the argument, is the
model's choice (DESIGN CHOICE, log 14). -/
def loadEntry (w : Nat) (e : CodeEntry) : Except ConfigError InstrWord :=
  match Opcode.ofName e.opcode, Mode.ofName e.addressType with
  | none, _ => .error (.unknownOpcode e.opcode)
  | some _, none => .error (.unknownMode e.addressType)
  | some o, some m =>
    if legalPair o m then
      match docArgWord w m e.arg with
      | .error r => .error r
      | .ok a => .ok ⟨encodeCode o m, a⟩
    else .error (.illegalPair o m)

/-- The instruction words of the `code` segment in order from index 0 (R46); the first entry refused names the refusal
(DESIGN CHOICE, log 14). -/
def loadEntries (w : Nat) : List CodeEntry → Except ConfigError (List InstrWord)
  | [] => .ok []
  | e :: es =>
    match loadEntry w e with
    | .error r => .error r
    | .ok v =>
      match loadEntries w es with
      | .error r => .error r
      | .ok vs => .ok (v :: vs)

/-- Loading instruction memory (R46): refused when the program is longer than `INSTR_MEM_SIZE`, which is tested after the
entries (DESIGN CHOICE, log 14). -/
def loadCode (cfg : Config) (code : List CodeEntry) : Except ConfigError (List InstrWord) :=
  match loadEntries cfg.width code with
  | .error e => .error e
  | .ok ws => if ws.length ≤ cfg.instrMemSize then .ok ws else .error .programTooLong

/-- What a run starts from (R229, R282): the microcode, which is a parameter of every tick, and the state. -/
structure Prepared where
  microcode : Microcode
  state : State
  deriving DecidableEq, Repr

/-- What the host does before a run, in the order of R282, with the microcode already built, and the reset: the
parameters, the ROM, the two memories, the three queues, then `reset()` of R280. A refusal means that no run takes place;
that parameters outside their bounds are refused is the model's choice (DESIGN CHOICE, log 13), and so is that inside a step of
R282 data memory is refused before instruction memory, and the queues in the order of R27 (DESIGN CHOICE, log 14). -/
def loadAndReset (cfg : Config) (m : Microcode) (doc : ProgramDocument) (in0 p1in p2in : List Int) :
    Except ConfigError Prepared :=
  if cfg.wellFormed = false then .error .parameterOutOfBounds
  else if m.wellFormed = false then .error .illFormedRom
  else
    match loadData cfg doc.data, loadCode cfg doc.code with
    | .error e, _ => .error e
    | .ok _, .error e => .error e
    | .ok dmem, .ok imem =>
      match wordsOfInts cfg.width in0, wordsOfInts cfg.width p1in, wordsOfInts cfg.width p2in with
      | .error e, _, _ => .error e
      | .ok _, .error e, _ => .error e
      | .ok _, .ok _, .error e => .error e
      | .ok q0, .ok q1, .ok q2 => .ok ⟨m, State.resetWith cfg imem dmem q0 q1 q2⟩

/-- The ROM and the decode index that the host takes: the reference ones, or those that the generator builds (R282,
step 2). -/
inductive RomChoice where
  | reference
  | built (src : MicroSource)

/-- The microcode of the choice; the generator may refuse (R254). -/
def RomChoice.microcode : RomChoice → Except ConfigError Microcode
  | .reference => .ok referenceMicrocode
  | .built src => src.build

/-- The whole of R282 up to the run, the building of the ROM included. -/
def prepare (cfg : Config) (rom : RomChoice) (doc : ProgramDocument) (in0 p1in p2in : List Int) :
    Except ConfigError Prepared :=
  if cfg.wellFormed = false then .error .parameterOutOfBounds
  else
    match rom.microcode with
    | .error e => .error e
    | .ok m => loadAndReset cfg m doc in0 p1in p2in

/-- The run of what was prepared, on its own microcode, and what the host reads after it (R282, R225, R227); `none` when
the run has not ended within the passes given for an unbounded ceiling, or faults (log 8). -/
def Prepared.result (p : Prepared) (passes : Nat) : Option RunResult :=
  match p.state.runToEnd p.microcode passes with
  | some (.next t) => t.runResult
  | _ => none

end Sys2Proof.Machine
end

