-- ==== Sys2Proof/Safety.lean ====
section
/-! DEFINITION. What a sound state is: the invariants that the rules of 10_state.md give the state between ticks, in the
terms claims use. -/

namespace Sys2Proof.Machine

/-- Data memory is in its canonical form and lists cells of data memory only (20_memory.md R45, R47). -/
def State.memorySound (s : State) : Bool := s.dmem.wf && s.dmem.within s.cfg.dataMemSize

/-- At an instruction boundary the operand latch holds the argument at `IP` (10_state.md R18; 41_memory_ops.md R164). -/
def State.staged (s : State) : Bool := decide (s.mip = 0 → s.opr = s.wireArg)

/-- Every word of the state is a word of the run's width: the registers and latches, the cells, the arguments of the
program, the elements of the queues and of the outputs (00_scope.md R6, R7; 10_state.md R10 to R28). -/
def State.wordsFit (s : State) : Bool :=
  [s.ip, s.ar, s.acc, s.aluOut, s.mdr, s.opr].all (fitsWord s.cfg.width)
    && s.dmem.all (fun c => fitsWord s.cfg.width c.2)
    && s.imem.all (fun w => fitsWord s.cfg.width w.arg)
    && [s.in0, s.p1in, s.p2in, s.out0, s.p1out, s.p2out].all (fun q => q.all (fitsWord s.cfg.width))

/-- `TICKS` does not exceed a finite ceiling (10_state.md R22). -/
def State.withinCeiling (s : State) : Bool :=
  match s.cfg.tickLimit with
  | none => true
  | some limit => decide (s.ticks ≤ limit)

/-- The bound of 60_exceptions.md R261 on the instruction counter, with the fetch tick of the current instruction
accounted for once its block has begun: every instruction but the last takes at least two ticks. -/
def State.countersSound (s : State) : Bool :=
  decide (1 ≤ s.icount) &&
    decide (2 * (s.icount - 1) + (if s.mip = 0 then 0 else 1) ≤ s.ticks)

/-- What holds of the state at reset and after every tick, whatever program was loaded: canonical memory, words of the
run's width (00_scope.md R6), `IP` inside instruction memory (10_state.md R12), `MIP` inside the ROM (R21), the staged
argument, the program inside instruction memory (20_memory.md R46), the parameters within their bounds (00_scope.md R6),
and the counters' bounds. -/
def State.sound (s : State) : Bool :=
  s.memorySound && s.wordsFit && s.ipInRange && decide (s.mip < referenceMicrocode.rom.length) && s.staged
    && decide (s.progLen ≤ s.cfg.instrMemSize) && s.cfg.wellFormed && s.withinCeiling && s.countersSound

/-- The machine is running and at an instruction boundary (50_control_unit.md R223). -/
def State.atBoundary (s : State) : Bool := decide (s.status = .running) && decide (s.mip = 0)

/-- `n` more ticks fit under the ceiling (50_control_unit.md R225: exactly `TICK_LIMIT` ticks can complete). -/
def State.hasTicks (s : State) (n : Nat) : Bool :=
  match s.cfg.tickLimit with
  | none => true
  | some limit => decide (s.ticks + n ≤ limit)

/-- A running machine in which an instruction of `n` ticks that ends with `NEXT` meets neither the ceiling nor the end
of instruction memory. -/
def State.readyFor (s : State) (n : Nat) : Bool :=
  decide (s.status = .running) && s.hasTicks n && inRange s.cfg.instrMemSize s.nextIp

/-! The net effect of an instruction on the state (40_arithmetic.md, opening; R143). -/

/-- A result in the accumulator: `ACC` and `Z`, and the staged `ALU_OUT` and `ALU_Z` with the same values (R142). -/
def State.withResult (s : State) (r : Int) : State :=
  { s with acc := r, z := decide (r = 0), aluOut := r, aluZ := decide (r = 0) }

/-- A cell read by a mode program: `AR` holds its address, `MDR` and `OPR` its word (41_memory_ops.md R164). -/
def State.withCell (s : State) (a v : Int) : State := { s with ar := a, mdr := v, opr := v }

/-- The state a mode program leaves for an effective address and an operand (R164, last column): modes with no effective
address change nothing. -/
def State.afterMode (s : State) (ea : Option Int) (v : Int) : State :=
  match ea with
  | some a => s.withCell a v
  | none => s

/-- What every instruction other than HLT does besides its own effect (R143): the code in `IR`, the new `IP` with the
argument there on `OPR`, `MIP` back at the fetch block, the instruction and its `n` ticks counted. -/
def State.finish (s : State) (code : BitVec 8) (new : Int) (n : Nat) : State :=
  { s with
    ir := code
    ip := new
    opr := (s.imemRead new).arg
    mip := 0
    icount := s.icount + 1
    ticks := s.ticks + n }

end Sys2Proof.Machine
end

