-- ==== Sys2Proof/Certificates/Slice0/Obligations.lean ====
section
/-! DEFINITION. The statements for the provers. Each docstring names the rule of spec/ that the statement formalises. -/

open Sys2Proof Sys2Proof.Machine

/-! ## The ALU and the zero flag (40_arithmetic.md) -/

/-- R140, R141: the ALU's functions at every width, as arithmetic modulo `2^w` on the unsigned reading; pass-through for every
opcode number from 6 on; and every result of a word is a word. -/
def Obligations.AluIsArithmeticModuloPowerOfTwo : Prop :=
  ∀ (w : Nat) (a x : Int), 1 ≤ w →
    uint w (alu w 0 a x) = (uint w x + 1) % 2 ^ w ∧
    uint w (alu w 1 a x) = (uint w x + (2 ^ w - 1)) % 2 ^ w ∧
    alu w 2 a x = 0 ∧
    uint w (alu w 3 a x) = (2 ^ w - uint w x) % 2 ^ w ∧
    uint w (alu w 4 a x) = (uint w a + uint w x) % 2 ^ w ∧
    uint w (alu w 5 a x) = (uint w a + (2 ^ w - uint w x)) % 2 ^ w ∧
    (∀ op, 6 ≤ op → alu w op a x = x) ∧
    (fitsWord w x = true → ∀ op, fitsWord w (alu w op a x) = true)

/-- R141, decision D1: an ALU result is the exact one whenever that fits a word; the most negative word is its own
negation. -/
def Obligations.AluIsExactWhenTheResultFits : Prop :=
  ∀ (w : Nat) (a x : Int), 1 ≤ w →
    (fitsWord w (x + 1) = true → alu w 0 a x = x + 1) ∧
    (fitsWord w (x - 1) = true → alu w 1 a x = x - 1) ∧
    (fitsWord w (-x) = true → alu w 3 a x = -x) ∧
    (fitsWord w (a + x) = true → alu w 4 a x = a + x) ∧
    (fitsWord w (a - x) = true → alu w 5 a x = a - x) ∧
    (fitsWord w x = true → fitsWord w (-x) = false → alu w 3 a x = x)

/-- R15, R142: whatever an instruction does, completing or stopped on the way, `ACC` and `Z` are written together or not at
all; where they are written, by one of the ten instructions of R10, `Z` is the zero-ness of the new `ACC`. -/
def Obligations.FlagAndAccumulatorAreWrittenTogether : Prop :=
  ∀ (i : Instr) (s t : State), exec i s = .next t →
    (t.acc = s.acc ∧ t.z = s.z) ∨
      (i.opcode ∈ [Opcode.inc, .dec, .cls, .neg, .add, .sub, .load, .input, .port1In, .port2In] ∧
        t.z = decide (t.acc = 0) ∧ t.acc = t.aluOut ∧ t.z = t.aluZ)

/-- 95_test_vectors.md section 9, R142: once `Z` says whether `ACC` is zero, it says so after every step. -/
def Obligations.StepKeepsFlagMatchingAccumulator : Prop :=
  ∀ s t : State, s.z = decide (s.acc = 0) → step s = .next t → t.z = decide (t.acc = 0)

/-! ## What each instruction computes (40_arithmetic.md, 41_memory_ops.md, 42_io.md, 43_control.md)

Each equation gives the whole next state, so it says what the instruction writes and that it leaves the rest alone. -/

/-- R144, R143: INC. -/
def Obligations.IncIncrementsAccumulator : Prop :=
  ∀ s : State, s.readyFor 3 = true →
    exec .inc s = .next ((s.withResult (wrap s.cfg.width (s.acc + 1))).finish 0 s.nextIp 3)

/-- R145, R143: DEC. -/
def Obligations.DecDecrementsAccumulator : Prop :=
  ∀ s : State, s.readyFor 3 = true →
    exec .dec s = .next ((s.withResult (wrap s.cfg.width (s.acc - 1))).finish 10 s.nextIp 3)

/-- R146, R143: CLS. -/
def Obligations.ClsClearsAccumulator : Prop :=
  ∀ s : State, s.readyFor 3 = true →
    exec .cls s = .next ((s.withResult 0).finish 20 s.nextIp 3)

/-- R147, R143: NEG. -/
def Obligations.NegNegatesAccumulator : Prop :=
  ∀ s : State, s.readyFor 3 = true →
    exec .neg s = .next ((s.withResult (wrap s.cfg.width (-s.acc))).finish 30 s.nextIp 3)

/-- R148, R143, R164: ADD in its four modes (`addDirect`, `addLabelAddr`, `addLabelValue`, `addIndirect`), with the operand
and the state its mode leaves. -/
def Obligations.AddAddsOperandInEveryMode : Prop :=
  ∀ (i : Instr) (s : State) (v : Int), i.opcode = .add →
    s.operand i.mode i.arg = some v → s.readyFor (ticksOf i) = true →
    exec i s = .next
      (((s.afterMode (s.effectiveAddr i.mode i.arg) v).withResult
        (wrap s.cfg.width (s.acc + v))).finish (encode i).code s.nextIp (ticksOf i))

/-- R149, R143, R164: SUB in its four modes (`subDirect`, `subLabelAddr`, `subLabelValue`, `subIndirect`); the accumulator is
the minuend. -/
def Obligations.SubSubtractsOperandInEveryMode : Prop :=
  ∀ (i : Instr) (s : State) (v : Int), i.opcode = .sub →
    s.operand i.mode i.arg = some v → s.readyFor (ticksOf i) = true →
    exec i s = .next
      (((s.afterMode (s.effectiveAddr i.mode i.arg) v).withResult
        (wrap s.cfg.width (s.acc - v))).finish (encode i).code s.nextIp (ticksOf i))

/-- R165, R143, R164: LOAD in its four modes (`loadDirect`, `loadLabelAddr`, `loadLabelValue`, `loadIndirect`). -/
def Obligations.LoadLoadsOperandInEveryMode : Prop :=
  ∀ (i : Instr) (s : State) (v : Int), i.opcode = .load →
    s.operand i.mode i.arg = some v → s.readyFor (ticksOf i) = true →
    exec i s = .next
      (((s.afterMode (s.effectiveAddr i.mode i.arg) v).withResult v).finish
        (encode i).code s.nextIp (ticksOf i))

/-- R166, R143, R164: STORE in its three modes (`storeDirect`, `storeLabelAddr`, `storeIndirect`): the cell at the effective
address receives `ACC`, and `MDR` and `OPR` its old content. -/
def Obligations.StoreWritesAccumulatorInEveryMode : Prop :=
  ∀ (i : Instr) (s : State) (ea old : Int), i.opcode = .store →
    s.effectiveAddr i.mode i.arg = some ea → s.dmemRead ea = some old →
    s.readyFor (ticksOf i) = true →
    exec i s = .next
      ({ s.withCell ea old with dmem := s.dmem.write ea.toNat s.acc }.finish
        (encode i).code s.nextIp (ticksOf i))

/-- R166: the frame of STORE on data memory, whether it completes or stops: a cell other than the one at the effective address
keeps its word, and a STORE that has reached the next instruction has put `ACC` in that one. -/
def Obligations.StoreChangesOneCell : Prop :=
  ∀ (i : Instr) (s t : State), i.opcode = .store → s.memorySound = true → exec i s = .next t →
    (∀ (ea : Int) (a : Nat), s.effectiveAddr i.mode i.arg = some ea → a ≠ ea.toNat →
      t.dmem.read a = s.dmem.read a) ∧
    (∀ ea : Int, s.effectiveAddr i.mode i.arg = some ea → s.status = .running →
      t.status = .running → t.dmem.read ea.toNat = s.acc) ∧
    (s.effectiveAddr i.mode i.arg = none → ∀ a, t.dmem.read a = s.dmem.read a)

/-- R285, R55: what a STORE in any of its modes has stored is what a LOAD of the same cell after it loads, in any mode whose
effective address is then that cell. -/
def Obligations.LoadAfterStoreLoadsWhatWasStored : Prop :=
  ∀ (i j : Instr) (ea : Int) (s t : State), i.opcode = .store → j.opcode = .load →
    s.memorySound = true → s.status = .running → s.effectiveAddr i.mode i.arg = some ea →
    exec i s = .next t → t.effectiveAddr j.mode j.arg = some ea → t.readyFor (ticksOf j) = true →
    ∃ u, exec j t = .next u ∧ u.acc = s.acc ∧ u.z = decide (s.acc = 0) ∧ u.dmem = t.dmem

/-- R183, R185, R187, R143: the three input instructions take the first element of their own queue. -/
def Obligations.InputInstructionsPopTheirQueue : Prop :=
  ∀ (s : State) (v : Int) (rest : List Int), s.readyFor 3 = true →
    (s.in0 = v :: rest →
      exec .input s = .next (({ s with in0 := rest }.withResult v).finish 80 s.nextIp 3)) ∧
    (s.p1in = v :: rest →
      exec .port1In s = .next (({ s with p1in := rest }.withResult v).finish 100 s.nextIp 3)) ∧
    (s.p2in = v :: rest →
      exec .port2In s = .next (({ s with p2in := rest }.withResult v).finish 120 s.nextIp 3))

/-- R184, R186, R188, R143: the three output instructions append `ACC` to their own sequence. -/
def Obligations.OutputInstructionsAppendAccumulator : Prop :=
  ∀ s : State, s.readyFor 3 = true →
    exec .output s = .next ({ s with out0 := s.out0 ++ [s.acc] }.finish 90 s.nextIp 3) ∧
    exec .port1Out s = .next ({ s with p1out := s.p1out ++ [s.acc] }.finish 110 s.nextIp 3) ∧
    exec .port2Out s = .next ({ s with p2out := s.p2out ++ [s.acc] }.finish 130 s.nextIp 3)

/-- R202, R143: JMP goes to its argument; a target outside instruction memory stops it in the tick of the latch, with `IP`
unchanged. -/
def Obligations.JmpGoesToTarget : Prop :=
  ∀ (a : Int) (s : State), s.status = .running → s.hasTicks 2 = true →
    (inRange s.cfg.instrMemSize a = true →
      exec (.jmpLabelValue a) s = .next (s.finish 143 a 2)) ∧
    (inRange s.cfg.instrMemSize a = false →
      exec (.jmpLabelValue a) s = .next
        { s with ir := 143, mip := 67, ticks := s.ticks + 1, status := .stopped (.instrAddrOutOfRange a) })

/-- R203, R143: JMPZ goes to its argument if `Z` is set and to the next instruction otherwise; it stops in the tick of the
latch, with `IP` unchanged, when the address it goes to is outside instruction memory, and the other address does not matter.
-/
def Obligations.JmpzGoesToTargetIfZero : Prop :=
  ∀ (a new : Int) (s : State), s.status = .running → s.hasTicks 2 = true →
    (s.z = true → new = a) → (s.z = false → new = s.nextIp) →
    (inRange s.cfg.instrMemSize new = true →
      exec (.jmpzLabelValue a) s = .next (s.finish 153 new 2)) ∧
    (inRange s.cfg.instrMemSize new = false →
      exec (.jmpzLabelValue a) s = .next
        { s with ir := 153, mip := 68, ticks := s.ticks + 1, status := .stopped (.instrAddrOutOfRange new) })

/-- R204, R250: HLT writes `IR` and stops the machine with `NormalHalt`; nothing else changes, its tick is not counted, and
the machine stays as it then is. -/
def Obligations.HltStopsTheMachine : Prop :=
  ∀ s : State, s.status = .running → s.hasTicks 1 = true →
    ∃ t, exec .hlt s = .next t ∧ t = { s with ir := 160, status := .stopped .normalHalt } ∧
      step t = .next t ∧ ∀ i, exec i t = .next t

/-- The frame of every instruction, completing or stopped (R10, R15, R27, R28, R43, R161 to R166): the parameters and
instruction memory never change; data memory only under STORE; `AR` and `MDR` only in the modes that read memory; the
accumulator, the flag and the staged result only under the ten instructions of R10; each queue only under its own
instruction. -/
def Obligations.EveryInstructionFrame : Prop :=
  ∀ (i : Instr) (s t : State), exec i s = .next t →
    t.cfg = s.cfg ∧ t.imem = s.imem ∧
    (i.opcode ≠ .store → ∀ a, t.dmem.read a = s.dmem.read a) ∧
    (i.mode = .none ∨ i.mode = .labelValue → t.ar = s.ar ∧ t.mdr = s.mdr) ∧
    (i.opcode ∉ [Opcode.inc, .dec, .cls, .neg, .add, .sub, .load, .input, .port1In, .port2In] →
      t.acc = s.acc ∧ t.z = s.z ∧ t.aluOut = s.aluOut ∧ t.aluZ = s.aluZ) ∧
    (i.opcode ≠ .input → t.in0 = s.in0) ∧
    (i.opcode ≠ .port1In → t.p1in = s.p1in) ∧
    (i.opcode ≠ .port2In → t.p2in = s.p2in) ∧
    (i.opcode ≠ .output → t.out0 = s.out0) ∧
    (i.opcode ≠ .port1Out → t.p1out = s.p1out) ∧
    (i.opcode ≠ .port2Out → t.p2out = s.p2out)

/-- R143, R129: what an instruction that reaches the next boundary has done besides its own effect: its code in `IR`, the
argument at the new `IP` on `OPR`, `MIP` at the fetch block, itself counted once in `ICOUNT`, its ticks in `TICKS`, with the
numbers of R129. -/
def Obligations.CompletedInstructionIsCounted : Prop :=
  (∀ (i : Instr) (s t : State), s.status = .running → exec i s = .next t → t.status = .running →
    t.ir = (encode i).code ∧ t.opr = (s.imemRead t.ip).arg ∧ t.mip = 0 ∧
    t.icount = s.icount + 1 ∧ t.ticks = s.ticks + ticksOf i) ∧
  (∀ a : Int,
    [ticksOf .inc, ticksOf .dec, ticksOf .cls, ticksOf .neg, ticksOf .input, ticksOf .output,
      ticksOf .port1In, ticksOf .port1Out, ticksOf .port2In, ticksOf .port2Out] =
      List.replicate 10 3 ∧
    [ticksOf (.addLabelValue a), ticksOf (.subLabelValue a), ticksOf (.loadLabelValue a)] =
      [3, 3, 3] ∧
    [ticksOf (.addDirect a), ticksOf (.subDirect a), ticksOf (.loadDirect a),
      ticksOf (.storeDirect a), ticksOf (.addLabelAddr a), ticksOf (.subLabelAddr a),
      ticksOf (.loadLabelAddr a), ticksOf (.storeLabelAddr a)] = List.replicate 8 4 ∧
    [ticksOf (.addIndirect a), ticksOf (.subIndirect a), ticksOf (.loadIndirect a),
      ticksOf (.storeIndirect a)] = [5, 5, 5, 5] ∧
    [ticksOf (.jmpLabelValue a), ticksOf (.jmpzLabelValue a)] = [2, 2])

/-! ## Events (60_exceptions.md) -/

/-- R162, R49: a memory-mode instruction whose argument is no cell of data memory stops in its first mode tick: `AR` holds the
bad address, `MDR`, `OPR`, `ACC`, `Z`, memory and the queues are as before, `IP` and `ICOUNT` too. -/
def Obligations.BadAddressStopsInFirstModeTick : Prop :=
  ∀ (i : Instr) (s : State) (entry : Nat),
    i.mode = .direct ∨ i.mode = .labelAddr ∨ i.mode = .indirect →
    s.status = .running → s.hasTicks 2 = true → inRange s.cfg.dataMemSize i.arg = false →
    referenceMicrocode.entry (encode i).code.toNat = some entry →
    exec i s = .next
      { s with
        ir := (encode i).code
        ar := i.arg
        mip := entry
        ticks := s.ticks + 1
        status := .stopped (.dataAddrOutOfRange i.arg) }

/-- R162, R163: an `INDIRECT` instruction whose pointer is no cell of data memory stops one tick later, with the bad pointer
in `AR`, `MDR` and `OPR`. -/
def Obligations.BadPointerStopsInSecondModeTick : Prop :=
  ∀ (i : Instr) (s : State) (entry : Nat) (pointer : Int), i.mode = .indirect →
    s.status = .running → s.hasTicks 3 = true → s.dmemRead i.arg = some pointer →
    inRange s.cfg.dataMemSize pointer = false →
    referenceMicrocode.entry (encode i).code.toNat = some entry →
    exec i s = .next
      { s with
        ir := (encode i).code
        ar := pointer
        mdr := pointer
        opr := pointer
        mip := entry + 1
        ticks := s.ticks + 2
        status := .stopped (.dataAddrOutOfRange pointer) }

/-- R251, R183, R185, R187: an input instruction that finds its queue empty stops with `BufferUnderrun`, `MIP` at its entry
offset, the fetch tick counted and nothing else changed; the other two queues do not matter. -/
def Obligations.EmptyQueueStopsInputInstruction : Prop :=
  ∀ s : State, s.status = .running → s.hasTicks 2 = true →
    (s.in0 = [] → exec .input s = .next
      { s with ir := 80, mip := 55, ticks := s.ticks + 1, status := .stopped (.bufferUnderrun .in0) }) ∧
    (s.p1in = [] → exec .port1In s = .next
      { s with ir := 100, mip := 59, ticks := s.ticks + 1, status := .stopped (.bufferUnderrun .p1in) }) ∧
    (s.p2in = [] → exec .port2In s = .next
      { s with ir := 120, mip := 63, ticks := s.ticks + 1, status := .stopped (.bufferUnderrun .p2in) })

/-- R253 (first row), R201: an instruction that stops with `InstrAddrOutOfRange` has raised it in its last tick on the value it
was to latch, which lies outside instruction memory; that tick writes neither `IP` nor `OPR` nor `ICOUNT`, is not counted, and
leaves `MIP` at the instruction's last word. -/
def Obligations.LatchOutsideMemoryStopsInLastTick : Prop :=
  ∀ (i : Instr) (s t : State) (v : Int), s.status = .running → exec i s = .next t →
    t.status = .stopped (.instrAddrOutOfRange v) →
    inRange s.cfg.instrMemSize v = false ∧ t.ip = s.ip ∧ t.icount = s.icount ∧
    t.ticks + 1 = s.ticks + ticksOf i ∧
    (∀ entry, referenceMicrocode.entry (encode i).code.toNat = some entry → t.mip + 2 = entry + ticksOf i) ∧
    (i.mode = .none ∨ i.mode = .labelValue → t.opr = s.opr) ∧
    (i.mode = .direct ∨ i.mode = .labelAddr ∨ i.mode = .indirect →
      s.operand i.mode i.arg = some t.opr ∧ t.mdr = t.opr) ∧
    (i.opcode = .jmp → v = i.arg) ∧
    (i.opcode = .jmpz → v = if s.z then i.arg else s.nextIp) ∧
    (i.opcode ≠ .jmp → i.opcode ≠ .jmpz → v = s.nextIp)

/-- R252, R225, R257: at the ceiling no tick is begun: whatever the instruction, whatever the microcode and whatever the next
tick would have raised, the machine stops with `TickCeilingExceeded` and nothing else changes. -/
def Obligations.CeilingStopsBeforeTheTick : Prop :=
  ∀ s : State, s.status = .running → s.atCeiling = true →
    (∀ i, exec i s = .next (s.stop .tickCeilingExceeded)) ∧
    (∀ m : Microcode, s.ipInRange = true → s.mip < m.rom.length →
      tickOf m s = .next (s.stop .tickCeilingExceeded)) ∧
    (s.ipInRange = true → s.mip < referenceMicrocode.rom.length →
      step s = .next (s.stop .tickCeilingExceeded))

/-- R225, R252: an instruction that the ceiling cuts has completed exactly the ticks that were left, and no instruction counts a
tick beyond the ceiling. -/
def Obligations.CeilingCutsInstructionAtTheLimit : Prop :=
  ∀ (i : Instr) (s t : State) (limit : Nat), s.cfg.tickLimit = some limit → s.ticks ≤ limit →
    s.status = .running → exec i s = .next t →
    t.ticks ≤ limit ∧ s.ticks ≤ t.ticks ∧ t.ticks ≤ s.ticks + ticksOf i ∧
    (t.status = .stopped .tickCeilingExceeded → t.ticks = limit)

/-- R226: the terminal state is absorbing, for the step, for every instruction and for the tick on every microcode. -/
def Obligations.StoppedMachineStaysAsItIs : Prop :=
  ∀ (s : State) (c : Cause), s.status = .stopped c →
    step s = .next s ∧ (∀ i, exec i s = .next s) ∧ (∀ m, tickOf m s = .next s)

/-- R227: there is a run result exactly when the machine has stopped; it carries the cause, the true counts and the outputs, and
the single number that stands for it is -1 for the tick ceiling alone. -/
def Obligations.RunResultCarriesTheCause : Prop :=
  ∀ s : State,
    (s.status = .running → s.runResult = none) ∧
    (∀ c, s.status = .stopped c →
      ∃ r, s.runResult = some r ∧ r.cause = c ∧ r.ticks = s.ticks ∧ r.icount = s.icount ∧
        r.out0 = s.out0 ∧ r.p1out = s.p1out ∧ r.p2out = s.p2out ∧
        (r.reportedTicks = -1 ↔ c = .tickCeilingExceeded) ∧
        (c ≠ .tickCeilingExceeded → r.reportedTicks = (s.ticks : Int)))

/-! ## Steps and ticks (50_control_unit.md) -/

/-- R229, R68: at an instruction boundary, under the ceiling and inside the program, the step of a state whose word at `IP`
decodes to `i` is `exec i`; the step adds nothing around it. -/
def Obligations.StepRunsTheDecodedInstruction : Prop :=
  ∀ (s : State) (i : Instr), s.status = .running → s.mip = 0 → s.ipInRange = true →
    s.atCeiling = false → s.ip < (s.progLen : Int) → decode (s.imemRead s.ip) = .ok i →
    step s = exec i s

/-- The model's own loading of one word (log 9), with R229: the encoding of a well-formed instruction placed where a boundary
state fetches is the instruction that the next step runs, with its argument staged (R18). -/
def Obligations.PlacedWordIsRunNext : Prop :=
  ∀ (i : Instr) (s : State), i.wellFormed s.cfg.width = true → s.cfg.wellFormed = true →
    s.status = .running → s.mip = 0 → s.ipInRange = true → s.atCeiling = false →
    let t := s.withFetchWord (8 + s.cfg.width) ((encode i).toBits s.cfg.width).toNat
    t.staged = true ∧ step t = exec i t

/-- R95, R65, R105: a step at a padding word stops with `FetchOutsideProgram` and changes nothing else; a step at an illegal
code latches the code into `IR` and stops with `DecodeIndexMiss`. That the codes 161 to 169 stop so too is R65's word, which
the model follows over the quotient test of R95 (DEDUCED, log 12). -/
def Obligations.StepOnNoInstructionStops : Prop :=
  ∀ s : State, s.status = .running → s.mip = 0 → s.ipInRange = true → s.atCeiling = false →
    (s.ip ≥ (s.progLen : Int) → step s = .next (s.stop (.fetchOutsideProgram s.ip))) ∧
    (s.ip < (s.progLen : Int) → legalCode (s.imemRead s.ip).code = false →
      step s = .next
        { s with
          ir := (s.imemRead s.ip).code
          status := .stopped (.decodeIndexMiss (s.imemRead s.ip).code) })

/-- R229, the two designs agree: at every instruction boundary whose operand latch is staged, the instruction-level step is the
tick machine's run of that instruction's ticks on the reference ROM, whether the instruction completes, raises or is cut by the
ceiling; where the fetch finds no instruction it is one tick. -/
def Obligations.StepIsTheTicksOfItsInstruction : Prop :=
  ∀ s : State, s.atBoundary = true → s.ipInRange = true → s.staged = true →
    (∀ i, s.fetch = .instr i → step s = ticksFor referenceMicrocode (ticksOf i) s) ∧
    (∀ t, s.fetch = .stop t → step s = ticksFor referenceMicrocode 1 s)

/-- R6, R12, R21, R22, R45, R261, R18: what is sound stays sound over every step (`State.sound`: among the rest, every word stays
a word of the run's width; the canonical form of data memory in it is the model's, logs 4 and 5). -/
def Obligations.StepKeepsStateSound : Prop :=
  ∀ s t : State, s.sound = true → step s = .next t → t.sound = true

/-- The same over every tick of the reference ROM, in the middle of instructions too. -/
def Obligations.TickKeepsStateSound : Prop :=
  ∀ s t : State, s.sound = true → tick s = .next t → t.sound = true

/-- R30, with the model's own parameters of the reset state (DESIGN CHOICE, log 7): it is sound, and it runs. -/
def Obligations.ResetStateIsSound : Prop :=
  State.reset.sound = true ∧ State.reset.status = .running

/-- R261: in a sound state the instruction counter is between 1 and half the ticks, rounded down, plus 1. -/
def Obligations.InstructionCountIsBoundedByTicks : Prop :=
  ∀ s : State, s.sound = true → 1 ≤ s.icount ∧ s.icount ≤ s.ticks / 2 + 1

/-- R12, R21, R228: the step and the tick of a sound state always have a next state; the model's own faults (log 8) are out of
reach. -/
def Obligations.SoundStateNeverFaults : Prop :=
  ∀ s : State, s.sound = true → (∃ t, step s = .next t) ∧ (∃ t, tick s = .next t)

/-- R105 (its last sentences), R127: with the reference ROM and a program of legal codes, no step of a sound running state stops
with `DecodeIndexMiss`, `MicroAddrOutOfRange` or `ReservedMicroSelect`. -/
def Obligations.LegalProgramMeetsNoMicrocodeFault : Prop :=
  ∀ s t : State, s.sound = true → s.status = .running →
    (∀ w ∈ s.imem, legalCode w.code = true) → step s = .next t →
    (∀ c, t.status ≠ .stopped (.decodeIndexMiss c)) ∧
    (∀ n, t.status ≠ .stopped (.microAddrOutOfRange n)) ∧
    (∀ n, t.status ≠ .stopped (.reservedMicroSelect n))

/-- R225: under a finite ceiling the run loop of a sound state ends, after the ticks that are left and one more pass at the
latest, with no more ticks counted than the ceiling allows. On every microcode and under every ceiling, the unbounded one
included: a run that ends does so in one state, a stopped one, whose run result `run()` returns; a tick moves the run on and
does not change where it ends; and the passes given to the computed loop do not matter once they suffice. -/
def Obligations.RunUnderFiniteCeilingEnds : Prop :=
  (∀ (s : State) (limit passes : Nat), s.sound = true → s.cfg.tickLimit = some limit →
    ∃ t c, s.runToEnd referenceMicrocode passes = some (.next t) ∧ s.RunsTo referenceMicrocode t ∧
      t.status = .stopped c ∧ t.ticks ≤ limit) ∧
  (∀ (m : Microcode) (s t u : State), s.RunsTo m t → s.RunsTo m u →
    u = t ∧ ∃ c r, t.status = .stopped c ∧ t.runResult = some r ∧ r.cause = c) ∧
  (∀ (m : Microcode) (s t u : State), tickOf m s = .next t → (s.RunsTo m u ↔ t.RunsTo m u)) ∧
  (∀ (m : Microcode) (s t : State) (n passes : Nat), s.cfg.tickLimit = none →
    runWithin m n s = some (.next t) → n ≤ passes → s.runToEnd m passes = some (.next t))

/-- R43: no tick of any microcode and no step writes instruction memory or the parameters. -/
def Obligations.InstructionMemoryIsImmutable : Prop :=
  (∀ (m : Microcode) (s t : State), tickOf m s = .next t → t.imem = s.imem ∧ t.cfg = s.cfg) ∧
  (∀ s t : State, step s = .next t → t.imem = s.imem ∧ t.cfg = s.cfg)

/-- R28: the output sequences are empty at reset; on every microcode a tick appends at most one element to each, and only
under the word's own column for it; a step keeps everything that is in them in front. -/
def Obligations.OutputsOnlyGrow : Prop :=
  (∀ (cfg : Config) (imem : List InstrWord) (dmem : Memory) (q0 q1 q2 : List Int),
    (State.resetWith cfg imem dmem q0 q1 q2).out0 = [] ∧
    (State.resetWith cfg imem dmem q0 q1 q2).p1out = [] ∧
    (State.resetWith cfg imem dmem q0 q1 q2).p2out = []) ∧
  (∀ (m : Microcode) (s t : State) (w : ControlWord), m.rom[s.mip]? = some w →
    tickOf m s = .next t →
    (t.out0 = s.out0 ∨ w.output = true ∧ ∃ v, t.out0 = s.out0 ++ [v]) ∧
    (t.p1out = s.p1out ∨ w.port1Out = true ∧ ∃ v, t.p1out = s.p1out ++ [v]) ∧
    (t.p2out = s.p2out ∨ w.port2Out = true ∧ ∃ v, t.p2out = s.p2out ++ [v])) ∧
  (∀ s t : State, step s = .next t →
    s.out0 <+: t.out0 ∧ s.p1out <+: t.p1out ∧ s.p2out <+: t.p2out)

/-- R27: the input queues are at reset what the host gives; on every microcode a tick takes at most the first element, and only
under `DO_ALU` from the queue that `SEL_ALU_IN` selects, and a completed tick with that word takes it; a step leaves a tail of
each. -/
def Obligations.InputQueuesOnlyDrain : Prop :=
  (∀ (cfg : Config) (imem : List InstrWord) (dmem : Memory) (q0 q1 q2 : List Int),
    (State.resetWith cfg imem dmem q0 q1 q2).in0 = q0 ∧
    (State.resetWith cfg imem dmem q0 q1 q2).p1in = q1 ∧
    (State.resetWith cfg imem dmem q0 q1 q2).p2in = q2) ∧
  (∀ (m : Microcode) (s t : State) (w : ControlWord), m.rom[s.mip]? = some w →
    tickOf m s = .next t →
    (t.in0 = s.in0 ∨ w.doAlu = true ∧ w.selAluIn = 1 ∧ ∃ v, s.in0 = v :: t.in0) ∧
    (t.p1in = s.p1in ∨ w.doAlu = true ∧ w.selAluIn = 2 ∧ ∃ v, s.p1in = v :: t.p1in) ∧
    (t.p2in = s.p2in ∨ w.doAlu = true ∧ w.selAluIn = 3 ∧ ∃ v, s.p2in = v :: t.p2in) ∧
    (w.doAlu = true → t.status = .running →
      (w.selAluIn = 1 → ∃ v, s.in0 = v :: t.in0) ∧
      (w.selAluIn = 2 → ∃ v, s.p1in = v :: t.p1in) ∧
      (w.selAluIn = 3 → ∃ v, s.p2in = v :: t.p2in))) ∧
  (∀ s t : State, step s = .next t →
    t.in0 <:+ s.in0 ∧ t.p1in <:+ s.p1in ∧ t.p2in <:+ s.p2in)

/-- R12, R93: the instruction pointer is 0 at reset; on every microcode a tick without `LATCH_IP` leaves it alone, no tick gives
it a value outside instruction memory, and a latch that would do so faults instead; with the reference ROM it changes only in the
tick that ends an instruction, to `IP + 1` or to the argument. -/
def Obligations.InstructionPointerStaysLegal : Prop :=
  (∀ (cfg : Config) (imem : List InstrWord) (dmem : Memory) (q0 q1 q2 : List Int),
    (State.resetWith cfg imem dmem q0 q1 q2).ip = 0) ∧
  (∀ (m : Microcode) (s t : State) (w : ControlWord), m.rom[s.mip]? = some w →
    tickOf m s = .next t →
    (0 ≤ t.ip ∧ t.ip < (s.cfg.instrMemSize : Int) ∨ t = s) ∧
    (w.latchIp = false → t.ip = s.ip) ∧
    (w.latchIp = true → s.status = .running → s.atCeiling = false →
      inRange s.cfg.instrMemSize (ipMux w s) = false →
      t = s.stop (.instrAddrOutOfRange (ipMux w s)))) ∧
  (∀ s t : State, tick s = .next t → t.ip ≠ s.ip →
    t.mip = 0 ∧ t.icount = s.icount + 1 ∧ (t.ip = wrap s.cfg.width (s.ip + 1) ∨ t.ip = s.wireArg))

/-- R47: a data access in range reads the cell, or writes it and leaves every other cell and the rest of the state alone; one out
of range does neither; the two primitives that access data memory do so at the current `AR`, and raise `DataAddrOutOfRange` with
that address where the access is out of range. (The premise is the canonical form of the model's memory, logs 4 and 5, which
every access keeps: `StepKeepsStateSound`, `TickKeepsStateSound`.) -/
def Obligations.DataAccessReachesItsCellOnly : Prop :=
  ∀ (s : State) (a v : Int), s.memorySound = true →
    (0 ≤ a ∧ a < (s.cfg.dataMemSize : Int) →
      s.dmemRead a = some (s.dmem.read a.toNat) ∧
      ∃ t, s.dmemWrite a v = some t ∧ t.dmem.read a.toNat = v ∧
        (∀ b, b ≠ a.toNat → t.dmem.read b = s.dmem.read b) ∧ t = { s with dmem := t.dmem }) ∧
    (¬ (0 ≤ a ∧ a < (s.cfg.dataMemSize : Int)) →
      s.dmemRead a = none ∧ s.dmemWrite a v = none) ∧
    (∀ w : ControlWord, a = s.ar →
      (w.dataIn = true → s.dmemRead a = none → primDataIn w s = .raised (.dataAddrOutOfRange a) s) ∧
      (w.dataIn = true → s.dmemRead a = some v → primDataIn w s = .done (s.setMdr v)) ∧
      (w.dataOut = true → s.dmemWrite a s.acc = none → primDataOut w s = .raised (.dataAddrOutOfRange a) s) ∧
      (∀ t, w.dataOut = true → s.dmemWrite a s.acc = some t → primDataOut w s = .done t))

/-- R226: a raise abandons the tick: the primitives of the columns before the raising one were applied and none after it;
`TICKS`, `MIP` and `ICOUNT` are as before the tick, and the machine stops with the cause. -/
def Obligations.RaiseAbandonsTheTick : Prop :=
  ∀ (m : Microcode) (w : ControlWord) (s t : State) (c : Cause), applyWord m w s = .raised c t →
    (∃ (before after : List Column) (col : Column) (u : State), Column.all = before ++ col :: after ∧
      before.foldl (fun (r : TickResult) k => r.andThen (primitive m w k)) (TickResult.done s) = .done u ∧
      primitive m w col u = .raised c t) ∧
    t.ticks = s.ticks ∧ t.mip = s.mip ∧ t.icount = s.icount ∧
    (s.status = .running → s.ipInRange = true → s.atCeiling = false → m.rom[s.mip]? = some w →
      tickOf m s = .next { t with status := .stopped c })

/-! ## Control words and microcode (31_control_word.md, 32_microcode_rom.md) -/

/-- R89, R100, R286: whatever the word and the microcode, the primitives of later columns see the accumulator that `LATCH_ACC` has
latched in the same tick, and a result computed in a tick can be latched in it. -/
def Obligations.LaterColumnsSeeTheLatchedAccumulator : Prop :=
  ∀ (m : Microcode) (w : ControlWord) (s t : State), applyWord m w s = .done t →
    (w.latchAcc = true → t.acc = t.aluOut ∧ t.z = t.aluZ) ∧
    (w.latchAcc = false → t.acc = s.acc ∧ t.z = s.z) ∧
    (w.output = true → t.out0 = s.out0 ++ [t.acc]) ∧
    (w.port1Out = true → t.p1out = s.p1out ++ [t.acc]) ∧
    (w.port2Out = true → t.p2out = s.p2out ++ [t.acc]) ∧
    (w.dataOut = true → s.memorySound = true → t.dmem.read t.ar.toNat = t.acc)

/-- R105, R23: whatever the word and the microcode, `MIP` and `ICOUNT` change only under `MICRO_LATCH_IP`, as the micro mux
selects; without it the word is applied again. -/
def Obligations.MicroLatchAloneMovesMip : Prop :=
  ∀ (m : Microcode) (w : ControlWord) (s t : State), applyWord m w s = .done t →
    (w.microLatchIp = false → t.mip = s.mip ∧ t.icount = s.icount) ∧
    (w.microLatchIp = true → w.microSelIp = 0 →
      t.mip = s.mip + 1 ∧ t.mip < m.rom.length ∧ t.icount = s.icount) ∧
    (w.microLatchIp = true → w.microSelIp = 1 →
      m.entry t.ir.toNat = some t.mip ∧ t.mip < m.rom.length ∧ t.icount = s.icount) ∧
    (w.microLatchIp = true → w.microSelIp = 2 → t.mip = 0 ∧ t.icount = s.icount + 1) ∧
    ¬ (w.microLatchIp = true ∧ w.microSelIp = 3)

/-- R82, R222: the packed form and the control word are the same information, both ways, and the activations are the packed
form's fields. -/
def Obligations.PackedWordDecodesBothWays : Prop :=
  (∀ w : ControlWord, w.pack.toNat = (Column.all.map (fun c => w.col c * 2 ^ c.lsb)).sum) ∧
  (∀ w : ControlWord, ControlWord.unpack w.pack = w) ∧
  (∀ p : BitVec 19, (ControlWord.unpack p).pack = p) ∧
  (∀ (p : BitVec 19) (c : Column),
    (ControlWord.unpack p).col c =
      (p.toNat / 2 ^ c.lsb) % (if c = .selAluIn ∨ c = .microSelIp then 4 else 2))

/-- R83, R108: a tuple is taken as a control word exactly when it is well formed, and then it is that word's tuple; in the
packed form the only ill-formed pattern is the reserved select. -/
def Obligations.TupleIsTakenExactlyWhenWellFormed : Prop :=
  (∀ w : ControlWord, w.wellFormed = true → ControlWord.ofTuple w.toTuple = some w) ∧
  (∀ (t : List Nat) (w : ControlWord), ControlWord.ofTuple t = some w →
    w.toTuple = t ∧ w.wellFormed = true) ∧
  (∀ t : List Nat, tupleWellFormed t = false → ControlWord.ofTuple t = none) ∧
  (∀ p : BitVec 19, (ControlWord.unpack p).wellFormed = false ↔ (ControlWord.unpack p).microSelIp = 3)

/-- R84, R86, R87: in a word compiled from a set of names, a driven column has the value its name writes, a held column the
previous word's value (0 without one), and a column that no name addresses 0. -/
def Obligations.CompiledColumnIsDrivenHeldOrZero : Prop :=
  ∀ (names : List Signal) (previous : Option (List Nat)) (t : List Nat),
    compile names previous = .ok t →
    t.length = 17 ∧
    (∀ n ∈ names, ∀ c v, n.effect = .drive c v → t.getD c.index 0 = v) ∧
    (∀ n ∈ names, ∀ c, n.effect = .hold c →
      t.getD c.index 0 = (previous.getD (List.replicate 17 0)).getD c.index 0) ∧
    (∀ c : Column, (∀ n ∈ names, (∀ v, n.effect ≠ .drive c v) ∧ n.effect ≠ .hold c) →
      t.getD c.index 0 = 0)

/-- R88, R87, R121 to R126: the generator turns the symbolic micro-programs into the reference ROM of 69 words and its decode
index. A set with a name outside the vocabulary is refused as an undefined signal before anything else in it, with such a name
of the set, and a source with such a set anywhere is refused. -/
def Obligations.GeneratorBuildsTheReferenceRom : Prop :=
  (referenceSource.build = .ok referenceMicrocode ∧ referenceMicrocode.rom.length = 69 ∧
    referenceMicrocode.wellFormed = true) ∧
  (∀ (names : List String) (previous : Option (List Nat)), (∃ text ∈ names, ∀ n : Signal, n.name ≠ text) →
    ∃ text ∈ names, (∀ n : Signal, n.name ≠ text) ∧ compileNames names previous = .error (.undefinedSignal text)) ∧
  (∀ (src : MicroSource) (names : List String), (∃ text ∈ names, ∀ n : Signal, n.name ≠ text) →
    (names ∈ src.boot ∨ (∃ m, names ∈ src.mode m) ∨ (∃ o, names ∈ src.opcode o)) →
    ∃ e, src.build = .error e ∧
      (∀ (cfg : Config) (doc : ProgramDocument) (in0 p1in p2in : List Int), cfg.wellFormed = true →
        prepare cfg (.built src) doc in0 p1in p2in = .error e))

/-- R127: the structural properties (a) to (f) of the reference ROM. -/
def Obligations.ReferenceRomStructure : Prop :=
  (∀ w ∈ referenceMicrocode.rom, w.microLatchIp = true) ∧
  ((referenceMicrocode.rom.filter (fun w => w.microSelIp = 1)).length = 1 ∧
    (referenceMicrocode.rom.head?.map (fun w => w.microSelIp)) = some 1) ∧
  (∀ e ∈ referenceMicrocode.index, e.1 ≠ 160 → ∃ n ≤ 3,
    (∀ k < n, ((referenceMicrocode.rom[e.2 + k]?).map (fun w => (w.microSelIp, w.latchIp))) =
      some (0, false)) ∧
    ((referenceMicrocode.rom[e.2 + n]?).map (fun w => (w.microSelIp, w.latchIp))) = some (2, true)) ∧
  ((referenceMicrocode.rom.tail.all (fun w => !w.latchIr)) = true ∧
    (referenceMicrocode.rom.head?.map (fun w => w.latchIr)) = some true ∧
    (∀ w ∈ referenceMicrocode.rom, w.latchIp = true → w.microSelIp = 2)) ∧
  (∀ w ∈ referenceMicrocode.rom,
    ¬ (w.latchIp = true ∧ w.doAlu = true) ∧ ¬ (w.dataIn = true ∧ w.doAlu = true) ∧
    ¬ (w.dataIn = true ∧ w.dataOut = true)) ∧
  (∀ w ∈ referenceMicrocode.rom, w.wellFormed = true)

/-! ## Encoding (30_encoding.md) -/

/-- R62, R66, R68: the code of every instruction is the formula's and its two digits give the indices back; decoding the word of
an instruction gives the instruction back, with its argument, as a pair, in the bits of every width at which the instruction is
well formed, and in the opcode table's numbering. -/
def Obligations.DecodeInvertsEncode : Prop :=
  ∀ i : Instr,
    (encode i).code.toNat = i.opcode.index * 10 + i.mode.index ∧ (encode i).code.toNat ≤ 160 ∧
    opcodeOf (encode i).code = i.opcode.index ∧ modeOf (encode i).code = i.mode.index ∧
    decode (encode i) = .ok i ∧
    (∀ w, 1 ≤ w → i.wellFormed w = true → decode (InstrWord.ofBits w ((encode i).toBits w)) = .ok i) ∧
    (i.wellFormed 32 = true → decodeTableWord 40 ((encode i).toBits 32).toNat = some i)

/-- R64, R65, R61, R66: a word decodes to an instruction exactly when its code is the instruction's and, unless the mode is
`NONE`, its argument is; every other word is rejected by its code; and the bits of a word are its code above its argument in
two's complement. -/
def Obligations.DecodeAcceptsExactlyTheEncodings : Prop :=
  (∀ (w : InstrWord) (i : Instr),
    decode w = .ok i ↔ w.code = (encode i).code ∧ (i.mode = .none ∨ w.arg = i.arg)) ∧
  (∀ w : InstrWord, legalCode w.code = false → decode w = .error (.illegalCode w.code)) ∧
  (∀ (width : Nat) (w : InstrWord), (w.toBits width).toNat = w.code.toNat * 2 ^ width + uint width w.arg)

/-- R64: the 28 legal instruction codes, which are also the keys of the decode index, each with its instruction. -/
def Obligations.LegalCodesAreTheTable : Prop :=
  (∀ c : BitVec 8, legalCode c =
    decide (c.toNat ∈ [0, 10, 20, 30, 41, 42, 43, 44, 51, 52, 53, 54, 61, 62, 63, 64, 71, 72, 74, 80, 90,
      100, 110, 120, 130, 143, 153, 160])) ∧
  referenceMicrocode.index.map Prod.fst =
    [0, 10, 20, 30, 41, 42, 43, 44, 51, 52, 53, 54, 61, 62, 63, 64, 71, 72, 74, 80, 90,
      100, 110, 120, 130, 143, 153, 160] ∧
  (∀ a : Int, ([.inc, .dec, .cls, .neg, .addDirect a, .addLabelAddr a, .addLabelValue a, .addIndirect a,
      .subDirect a, .subLabelAddr a, .subLabelValue a, .subIndirect a,
      .loadDirect a, .loadLabelAddr a, .loadLabelValue a, .loadIndirect a,
      .storeDirect a, .storeLabelAddr a, .storeIndirect a, .input, .output,
      .port1In, .port1Out, .port2In, .port2Out, .jmpLabelValue a, .jmpzLabelValue a,
      .hlt] : List Instr).map (fun i => (encode i).code.toNat) =
    referenceMicrocode.index.map Prod.fst)

/-- 95_test_vectors.md 2.1, 2.2: words of each family, written out from the encoding, decode to their instructions, and an illegal
one is rejected. -/
def Obligations.WrittenWordsDecode : Prop :=
  decodeTableWord 40 0x0000000000 = some .inc ∧
  decodeTableWord 40 0x2C00000000 = some (.addIndirect 0) ∧
  decodeTableWord 40 0x3FFFFFFFFF = some (.loadLabelValue (-1)) ∧
  decodeTableWord 40 0x4A00000001 = some (.storeIndirect 1) ∧
  decodeTableWord 40 0x7800000000 = some .port2In ∧
  decodeTableWord 40 0x9900000004 = some (.jmpzLabelValue 4) ∧
  decodeTableWord 40 0xA000000000 = some .hlt ∧
  decodeTableWord 40 0x4900000000 = none

/-! ## Loading and reset (20_memory.md, 70_reset_and_hazards.md) -/

/-- R30, R280, R45, R46, R282: what loading and reset make, element by element: data memory is, entry after entry, the initial
values and then zeros up to the entry's size, and zeros after the last entry; instruction memory is, entry after entry, the word
that the loader makes of it, and zero words after the last. And what the loader accepts: parameters and a ROM within their
bounds, entries that fit their sizes and data memory, legal pairs with their arguments, a program that fits instruction memory,
and values in the range of a word. -/
def Obligations.LoadedResetState : Prop :=
  ∀ (cfg : Config) (m : Microcode) (doc : ProgramDocument) (in0 p1in p2in : List Int),
    (∀ p, loadAndReset cfg m doc in0 p1in p2in = .ok p →
      p.microcode = m ∧ p.state.cfg = cfg ∧
      p.state.ip = 0 ∧ p.state.mip = 0 ∧ p.state.icount = 1 ∧ p.state.ticks = 0 ∧ p.state.status = .running ∧
      p.state.opr = (p.state.imemRead 0).arg ∧ p.state.acc = 0 ∧ p.state.z = false ∧ p.state.ir = 0 ∧
      p.state.ar = 0 ∧ p.state.mdr = 0 ∧ p.state.aluOut = 0 ∧ p.state.aluZ = false ∧
      (∀ a, p.state.dmem.read a =
        (doc.data.flatMap (fun e => e.init ++ List.replicate (e.size.toNat - e.init.length) 0)).getD a 0) ∧
      p.state.progLen = doc.code.length ∧
      (∀ (k : Nat) (e : CodeEntry), doc.code[k]? = some e →
        ∃ w, p.state.imem[k]? = some w ∧ loadEntry cfg.width e = .ok w) ∧
      (∀ a : Int, (p.state.progLen : Int) ≤ a → p.state.imemRead a = ⟨0, 0⟩) ∧
      p.state.in0 = in0 ∧ p.state.p1in = p1in ∧ p.state.p2in = p2in ∧
      p.state.out0 = [] ∧ p.state.p1out = [] ∧ p.state.p2out = []) ∧
    (cfg.wellFormed = true → m.wellFormed = true →
      (∀ e ∈ doc.data, (e.init.length : Int) ≤ e.size ∧ ∀ v ∈ e.init, fitsWord cfg.width v = true) →
      (doc.data.map (fun e => e.size.toNat)).sum ≤ cfg.dataMemSize →
      (∀ e ∈ doc.code, ∃ o mode, e.opcode = o.name ∧ e.addressType = mode.name ∧ legalPair o mode = true ∧
        ((∃ n, e.arg = .int n ∧ fitsWord cfg.width n = true) ∨ (mode = .none ∧ e.arg = .absent))) →
      doc.code.length ≤ cfg.instrMemSize →
      (∀ v ∈ in0 ++ p1in ++ p2in, fitsWord cfg.width v = true) →
      ∃ p, loadAndReset cfg m doc in0 p1in p2in = .ok p)

/-- R45, R46, R12, R282: whatever the loader accepts gives a sound running state whose program holds legal codes only; and the
host's whole sequence before a run is the loading with the reference microcode or with what the generator builds. -/
def Obligations.LoadedStateIsSoundAndLegal : Prop :=
  (∀ (cfg : Config) (m : Microcode) (doc : ProgramDocument) (in0 p1in p2in : List Int) (p : Prepared),
    loadAndReset cfg m doc in0 p1in p2in = .ok p →
    p.state.sound = true ∧ p.state.atBoundary = true ∧ (∀ w ∈ p.state.imem, legalCode w.code = true)) ∧
  (∀ (cfg : Config) (rom : RomChoice) (doc : ProgramDocument) (in0 p1in p2in : List Int) (p : Prepared),
    prepare cfg rom doc in0 p1in p2in = .ok p →
    rom.microcode = .ok p.microcode ∧ loadAndReset cfg p.microcode doc in0 p1in p2in = .ok p ∧
    ∀ t r passes, p.state.runToEnd p.microcode passes = some (.next t) → t.runResult = some r →
      p.result passes = some r)

/-- R46, R65: what the loader makes of one code entry, at every width: the encoded pair for a legal pair whose integer argument
fits a word, and for a legal pair of mode `NONE` without an argument, with argument 0; a refusal by name for an illegal pair,
an unknown string, a string argument, and an argument outside the signed range. (An operand mode without an argument is the
model's choice, log 10, and stands in no clause. Where an entry breaks several rules at once, which refusal is named is the
model's choice, log 14, and no rule of the spec.) -/
def Obligations.LoaderEncodesOrRefusesAnEntry : Prop :=
  ∀ width : Nat,
    (∀ (o : Opcode) (m : Mode) (n : Int), legalPair o m = true →
      (fitsWord width n = true → loadEntry width ⟨o.name, m.name, .int n⟩ = .ok ⟨encodeCode o m, n⟩) ∧
      (fitsWord width n = false → loadEntry width ⟨o.name, m.name, .int n⟩ = .error (.valueOutOfRange n))) ∧
    (∀ o : Opcode, legalPair o .none = true →
      loadEntry width ⟨o.name, Mode.none.name, .absent⟩ = .ok ⟨encodeCode o .none, 0⟩) ∧
    (∀ (o : Opcode) (m : Mode) (text : String), legalPair o m = true →
      loadEntry width ⟨o.name, m.name, .str text⟩ = .error (.stringArgument text)) ∧
    (∀ (o : Opcode) (m : Mode) (a : DocArg), legalPair o m = false →
      loadEntry width ⟨o.name, m.name, a⟩ = .error (.illegalPair o m)) ∧
    (∀ (text : String) (a : DocArg), (∀ o : Opcode, o.name ≠ text) →
      ∀ mode, loadEntry width ⟨text, mode, a⟩ = .error (.unknownOpcode text)) ∧
    (∀ (o : Opcode) (text : String) (a : DocArg), (∀ m : Mode, m.name ≠ text) →
      loadEntry width ⟨o.name, text, a⟩ = .error (.unknownMode text))
end

