-- ==== Sys2Proof/Laws/State.lean ====
section
/-! SUPPORT. One lemma per field per update of the state, each true by `rfl` (or by the case of the queue it names), so that
no later proof unfolds a record update. -/

namespace Sys2Proof.Machine

variable (s : State)

/-! `State.setIp` -/

@[simp] theorem State.setIp_cfg (new : Int) : (s.setIp new).cfg = s.cfg := rfl
@[simp] theorem State.setIp_imem (new : Int) : (s.setIp new).imem = s.imem := rfl
@[simp] theorem State.setIp_dmem (new : Int) : (s.setIp new).dmem = s.dmem := rfl
@[simp] theorem State.setIp_ip (new : Int) : (s.setIp new).ip = new := rfl
@[simp] theorem State.setIp_ir (new : Int) : (s.setIp new).ir = s.ir := rfl
@[simp] theorem State.setIp_ar (new : Int) : (s.setIp new).ar = s.ar := rfl
@[simp] theorem State.setIp_acc (new : Int) : (s.setIp new).acc = s.acc := rfl
@[simp] theorem State.setIp_z (new : Int) : (s.setIp new).z = s.z := rfl
@[simp] theorem State.setIp_aluOut (new : Int) : (s.setIp new).aluOut = s.aluOut := rfl
@[simp] theorem State.setIp_aluZ (new : Int) : (s.setIp new).aluZ = s.aluZ := rfl
@[simp] theorem State.setIp_mdr (new : Int) : (s.setIp new).mdr = s.mdr := rfl
@[simp] theorem State.setIp_opr (new : Int) : (s.setIp new).opr = (s.imemRead new).arg := rfl
@[simp] theorem State.setIp_mip (new : Int) : (s.setIp new).mip = s.mip := rfl
@[simp] theorem State.setIp_ticks (new : Int) : (s.setIp new).ticks = s.ticks := rfl
@[simp] theorem State.setIp_icount (new : Int) : (s.setIp new).icount = s.icount := rfl
@[simp] theorem State.setIp_status (new : Int) : (s.setIp new).status = s.status := rfl
@[simp] theorem State.setIp_in0 (new : Int) : (s.setIp new).in0 = s.in0 := rfl
@[simp] theorem State.setIp_p1in (new : Int) : (s.setIp new).p1in = s.p1in := rfl
@[simp] theorem State.setIp_p2in (new : Int) : (s.setIp new).p2in = s.p2in := rfl
@[simp] theorem State.setIp_out0 (new : Int) : (s.setIp new).out0 = s.out0 := rfl
@[simp] theorem State.setIp_p1out (new : Int) : (s.setIp new).p1out = s.p1out := rfl
@[simp] theorem State.setIp_p2out (new : Int) : (s.setIp new).p2out = s.p2out := rfl

/-! `State.setIr` -/

@[simp] theorem State.setIr_cfg (code : BitVec 8) : (s.setIr code).cfg = s.cfg := rfl
@[simp] theorem State.setIr_imem (code : BitVec 8) : (s.setIr code).imem = s.imem := rfl
@[simp] theorem State.setIr_dmem (code : BitVec 8) : (s.setIr code).dmem = s.dmem := rfl
@[simp] theorem State.setIr_ip (code : BitVec 8) : (s.setIr code).ip = s.ip := rfl
@[simp] theorem State.setIr_ir (code : BitVec 8) : (s.setIr code).ir = code := rfl
@[simp] theorem State.setIr_ar (code : BitVec 8) : (s.setIr code).ar = s.ar := rfl
@[simp] theorem State.setIr_acc (code : BitVec 8) : (s.setIr code).acc = s.acc := rfl
@[simp] theorem State.setIr_z (code : BitVec 8) : (s.setIr code).z = s.z := rfl
@[simp] theorem State.setIr_aluOut (code : BitVec 8) : (s.setIr code).aluOut = s.aluOut := rfl
@[simp] theorem State.setIr_aluZ (code : BitVec 8) : (s.setIr code).aluZ = s.aluZ := rfl
@[simp] theorem State.setIr_mdr (code : BitVec 8) : (s.setIr code).mdr = s.mdr := rfl
@[simp] theorem State.setIr_opr (code : BitVec 8) : (s.setIr code).opr = s.opr := rfl
@[simp] theorem State.setIr_mip (code : BitVec 8) : (s.setIr code).mip = s.mip := rfl
@[simp] theorem State.setIr_ticks (code : BitVec 8) : (s.setIr code).ticks = s.ticks := rfl
@[simp] theorem State.setIr_icount (code : BitVec 8) : (s.setIr code).icount = s.icount := rfl
@[simp] theorem State.setIr_status (code : BitVec 8) : (s.setIr code).status = s.status := rfl
@[simp] theorem State.setIr_in0 (code : BitVec 8) : (s.setIr code).in0 = s.in0 := rfl
@[simp] theorem State.setIr_p1in (code : BitVec 8) : (s.setIr code).p1in = s.p1in := rfl
@[simp] theorem State.setIr_p2in (code : BitVec 8) : (s.setIr code).p2in = s.p2in := rfl
@[simp] theorem State.setIr_out0 (code : BitVec 8) : (s.setIr code).out0 = s.out0 := rfl
@[simp] theorem State.setIr_p1out (code : BitVec 8) : (s.setIr code).p1out = s.p1out := rfl
@[simp] theorem State.setIr_p2out (code : BitVec 8) : (s.setIr code).p2out = s.p2out := rfl

/-! `State.setAr` -/

@[simp] theorem State.setAr_cfg (a : Int) : (s.setAr a).cfg = s.cfg := rfl
@[simp] theorem State.setAr_imem (a : Int) : (s.setAr a).imem = s.imem := rfl
@[simp] theorem State.setAr_dmem (a : Int) : (s.setAr a).dmem = s.dmem := rfl
@[simp] theorem State.setAr_ip (a : Int) : (s.setAr a).ip = s.ip := rfl
@[simp] theorem State.setAr_ir (a : Int) : (s.setAr a).ir = s.ir := rfl
@[simp] theorem State.setAr_ar (a : Int) : (s.setAr a).ar = a := rfl
@[simp] theorem State.setAr_acc (a : Int) : (s.setAr a).acc = s.acc := rfl
@[simp] theorem State.setAr_z (a : Int) : (s.setAr a).z = s.z := rfl
@[simp] theorem State.setAr_aluOut (a : Int) : (s.setAr a).aluOut = s.aluOut := rfl
@[simp] theorem State.setAr_aluZ (a : Int) : (s.setAr a).aluZ = s.aluZ := rfl
@[simp] theorem State.setAr_mdr (a : Int) : (s.setAr a).mdr = s.mdr := rfl
@[simp] theorem State.setAr_opr (a : Int) : (s.setAr a).opr = s.opr := rfl
@[simp] theorem State.setAr_mip (a : Int) : (s.setAr a).mip = s.mip := rfl
@[simp] theorem State.setAr_ticks (a : Int) : (s.setAr a).ticks = s.ticks := rfl
@[simp] theorem State.setAr_icount (a : Int) : (s.setAr a).icount = s.icount := rfl
@[simp] theorem State.setAr_status (a : Int) : (s.setAr a).status = s.status := rfl
@[simp] theorem State.setAr_in0 (a : Int) : (s.setAr a).in0 = s.in0 := rfl
@[simp] theorem State.setAr_p1in (a : Int) : (s.setAr a).p1in = s.p1in := rfl
@[simp] theorem State.setAr_p2in (a : Int) : (s.setAr a).p2in = s.p2in := rfl
@[simp] theorem State.setAr_out0 (a : Int) : (s.setAr a).out0 = s.out0 := rfl
@[simp] theorem State.setAr_p1out (a : Int) : (s.setAr a).p1out = s.p1out := rfl
@[simp] theorem State.setAr_p2out (a : Int) : (s.setAr a).p2out = s.p2out := rfl

/-! `State.setAlu` -/

@[simp] theorem State.setAlu_cfg (r : Int) : (s.setAlu r).cfg = s.cfg := rfl
@[simp] theorem State.setAlu_imem (r : Int) : (s.setAlu r).imem = s.imem := rfl
@[simp] theorem State.setAlu_dmem (r : Int) : (s.setAlu r).dmem = s.dmem := rfl
@[simp] theorem State.setAlu_ip (r : Int) : (s.setAlu r).ip = s.ip := rfl
@[simp] theorem State.setAlu_ir (r : Int) : (s.setAlu r).ir = s.ir := rfl
@[simp] theorem State.setAlu_ar (r : Int) : (s.setAlu r).ar = s.ar := rfl
@[simp] theorem State.setAlu_acc (r : Int) : (s.setAlu r).acc = s.acc := rfl
@[simp] theorem State.setAlu_z (r : Int) : (s.setAlu r).z = s.z := rfl
@[simp] theorem State.setAlu_aluOut (r : Int) : (s.setAlu r).aluOut = r := rfl
@[simp] theorem State.setAlu_aluZ (r : Int) : (s.setAlu r).aluZ = zeroFlag r := rfl
@[simp] theorem State.setAlu_mdr (r : Int) : (s.setAlu r).mdr = s.mdr := rfl
@[simp] theorem State.setAlu_opr (r : Int) : (s.setAlu r).opr = s.opr := rfl
@[simp] theorem State.setAlu_mip (r : Int) : (s.setAlu r).mip = s.mip := rfl
@[simp] theorem State.setAlu_ticks (r : Int) : (s.setAlu r).ticks = s.ticks := rfl
@[simp] theorem State.setAlu_icount (r : Int) : (s.setAlu r).icount = s.icount := rfl
@[simp] theorem State.setAlu_status (r : Int) : (s.setAlu r).status = s.status := rfl
@[simp] theorem State.setAlu_in0 (r : Int) : (s.setAlu r).in0 = s.in0 := rfl
@[simp] theorem State.setAlu_p1in (r : Int) : (s.setAlu r).p1in = s.p1in := rfl
@[simp] theorem State.setAlu_p2in (r : Int) : (s.setAlu r).p2in = s.p2in := rfl
@[simp] theorem State.setAlu_out0 (r : Int) : (s.setAlu r).out0 = s.out0 := rfl
@[simp] theorem State.setAlu_p1out (r : Int) : (s.setAlu r).p1out = s.p1out := rfl
@[simp] theorem State.setAlu_p2out (r : Int) : (s.setAlu r).p2out = s.p2out := rfl

/-! `State.commitAlu` -/

@[simp] theorem State.commitAlu_cfg : s.commitAlu.cfg = s.cfg := rfl
@[simp] theorem State.commitAlu_imem : s.commitAlu.imem = s.imem := rfl
@[simp] theorem State.commitAlu_dmem : s.commitAlu.dmem = s.dmem := rfl
@[simp] theorem State.commitAlu_ip : s.commitAlu.ip = s.ip := rfl
@[simp] theorem State.commitAlu_ir : s.commitAlu.ir = s.ir := rfl
@[simp] theorem State.commitAlu_ar : s.commitAlu.ar = s.ar := rfl
@[simp] theorem State.commitAlu_acc : s.commitAlu.acc = s.aluOut := rfl
@[simp] theorem State.commitAlu_z : s.commitAlu.z = s.aluZ := rfl
@[simp] theorem State.commitAlu_aluOut : s.commitAlu.aluOut = s.aluOut := rfl
@[simp] theorem State.commitAlu_aluZ : s.commitAlu.aluZ = s.aluZ := rfl
@[simp] theorem State.commitAlu_mdr : s.commitAlu.mdr = s.mdr := rfl
@[simp] theorem State.commitAlu_opr : s.commitAlu.opr = s.opr := rfl
@[simp] theorem State.commitAlu_mip : s.commitAlu.mip = s.mip := rfl
@[simp] theorem State.commitAlu_ticks : s.commitAlu.ticks = s.ticks := rfl
@[simp] theorem State.commitAlu_icount : s.commitAlu.icount = s.icount := rfl
@[simp] theorem State.commitAlu_status : s.commitAlu.status = s.status := rfl
@[simp] theorem State.commitAlu_in0 : s.commitAlu.in0 = s.in0 := rfl
@[simp] theorem State.commitAlu_p1in : s.commitAlu.p1in = s.p1in := rfl
@[simp] theorem State.commitAlu_p2in : s.commitAlu.p2in = s.p2in := rfl
@[simp] theorem State.commitAlu_out0 : s.commitAlu.out0 = s.out0 := rfl
@[simp] theorem State.commitAlu_p1out : s.commitAlu.p1out = s.p1out := rfl
@[simp] theorem State.commitAlu_p2out : s.commitAlu.p2out = s.p2out := rfl

/-! `State.setMdr` -/

@[simp] theorem State.setMdr_cfg (t : Int) : (s.setMdr t).cfg = s.cfg := rfl
@[simp] theorem State.setMdr_imem (t : Int) : (s.setMdr t).imem = s.imem := rfl
@[simp] theorem State.setMdr_dmem (t : Int) : (s.setMdr t).dmem = s.dmem := rfl
@[simp] theorem State.setMdr_ip (t : Int) : (s.setMdr t).ip = s.ip := rfl
@[simp] theorem State.setMdr_ir (t : Int) : (s.setMdr t).ir = s.ir := rfl
@[simp] theorem State.setMdr_ar (t : Int) : (s.setMdr t).ar = s.ar := rfl
@[simp] theorem State.setMdr_acc (t : Int) : (s.setMdr t).acc = s.acc := rfl
@[simp] theorem State.setMdr_z (t : Int) : (s.setMdr t).z = s.z := rfl
@[simp] theorem State.setMdr_aluOut (t : Int) : (s.setMdr t).aluOut = s.aluOut := rfl
@[simp] theorem State.setMdr_aluZ (t : Int) : (s.setMdr t).aluZ = s.aluZ := rfl
@[simp] theorem State.setMdr_mdr (t : Int) : (s.setMdr t).mdr = t := rfl
@[simp] theorem State.setMdr_opr (t : Int) : (s.setMdr t).opr = t := rfl
@[simp] theorem State.setMdr_mip (t : Int) : (s.setMdr t).mip = s.mip := rfl
@[simp] theorem State.setMdr_ticks (t : Int) : (s.setMdr t).ticks = s.ticks := rfl
@[simp] theorem State.setMdr_icount (t : Int) : (s.setMdr t).icount = s.icount := rfl
@[simp] theorem State.setMdr_status (t : Int) : (s.setMdr t).status = s.status := rfl
@[simp] theorem State.setMdr_in0 (t : Int) : (s.setMdr t).in0 = s.in0 := rfl
@[simp] theorem State.setMdr_p1in (t : Int) : (s.setMdr t).p1in = s.p1in := rfl
@[simp] theorem State.setMdr_p2in (t : Int) : (s.setMdr t).p2in = s.p2in := rfl
@[simp] theorem State.setMdr_out0 (t : Int) : (s.setMdr t).out0 = s.out0 := rfl
@[simp] theorem State.setMdr_p1out (t : Int) : (s.setMdr t).p1out = s.p1out := rfl
@[simp] theorem State.setMdr_p2out (t : Int) : (s.setMdr t).p2out = s.p2out := rfl

/-! `State.setMip` -/

@[simp] theorem State.setMip_cfg (m : Nat) : (s.setMip m).cfg = s.cfg := rfl
@[simp] theorem State.setMip_imem (m : Nat) : (s.setMip m).imem = s.imem := rfl
@[simp] theorem State.setMip_dmem (m : Nat) : (s.setMip m).dmem = s.dmem := rfl
@[simp] theorem State.setMip_ip (m : Nat) : (s.setMip m).ip = s.ip := rfl
@[simp] theorem State.setMip_ir (m : Nat) : (s.setMip m).ir = s.ir := rfl
@[simp] theorem State.setMip_ar (m : Nat) : (s.setMip m).ar = s.ar := rfl
@[simp] theorem State.setMip_acc (m : Nat) : (s.setMip m).acc = s.acc := rfl
@[simp] theorem State.setMip_z (m : Nat) : (s.setMip m).z = s.z := rfl
@[simp] theorem State.setMip_aluOut (m : Nat) : (s.setMip m).aluOut = s.aluOut := rfl
@[simp] theorem State.setMip_aluZ (m : Nat) : (s.setMip m).aluZ = s.aluZ := rfl
@[simp] theorem State.setMip_mdr (m : Nat) : (s.setMip m).mdr = s.mdr := rfl
@[simp] theorem State.setMip_opr (m : Nat) : (s.setMip m).opr = s.opr := rfl
@[simp] theorem State.setMip_mip (m : Nat) : (s.setMip m).mip = m := rfl
@[simp] theorem State.setMip_ticks (m : Nat) : (s.setMip m).ticks = s.ticks := rfl
@[simp] theorem State.setMip_icount (m : Nat) : (s.setMip m).icount = s.icount := rfl
@[simp] theorem State.setMip_status (m : Nat) : (s.setMip m).status = s.status := rfl
@[simp] theorem State.setMip_in0 (m : Nat) : (s.setMip m).in0 = s.in0 := rfl
@[simp] theorem State.setMip_p1in (m : Nat) : (s.setMip m).p1in = s.p1in := rfl
@[simp] theorem State.setMip_p2in (m : Nat) : (s.setMip m).p2in = s.p2in := rfl
@[simp] theorem State.setMip_out0 (m : Nat) : (s.setMip m).out0 = s.out0 := rfl
@[simp] theorem State.setMip_p1out (m : Nat) : (s.setMip m).p1out = s.p1out := rfl
@[simp] theorem State.setMip_p2out (m : Nat) : (s.setMip m).p2out = s.p2out := rfl

/-! `State.advance` -/

@[simp] theorem State.advance_cfg : s.advance.cfg = s.cfg := rfl
@[simp] theorem State.advance_imem : s.advance.imem = s.imem := rfl
@[simp] theorem State.advance_dmem : s.advance.dmem = s.dmem := rfl
@[simp] theorem State.advance_ip : s.advance.ip = s.ip := rfl
@[simp] theorem State.advance_ir : s.advance.ir = s.ir := rfl
@[simp] theorem State.advance_ar : s.advance.ar = s.ar := rfl
@[simp] theorem State.advance_acc : s.advance.acc = s.acc := rfl
@[simp] theorem State.advance_z : s.advance.z = s.z := rfl
@[simp] theorem State.advance_aluOut : s.advance.aluOut = s.aluOut := rfl
@[simp] theorem State.advance_aluZ : s.advance.aluZ = s.aluZ := rfl
@[simp] theorem State.advance_mdr : s.advance.mdr = s.mdr := rfl
@[simp] theorem State.advance_opr : s.advance.opr = s.opr := rfl
@[simp] theorem State.advance_mip : s.advance.mip = s.mip + 1 := rfl
@[simp] theorem State.advance_ticks : s.advance.ticks = s.ticks := rfl
@[simp] theorem State.advance_icount : s.advance.icount = s.icount := rfl
@[simp] theorem State.advance_status : s.advance.status = s.status := rfl
@[simp] theorem State.advance_in0 : s.advance.in0 = s.in0 := rfl
@[simp] theorem State.advance_p1in : s.advance.p1in = s.p1in := rfl
@[simp] theorem State.advance_p2in : s.advance.p2in = s.p2in := rfl
@[simp] theorem State.advance_out0 : s.advance.out0 = s.out0 := rfl
@[simp] theorem State.advance_p1out : s.advance.p1out = s.p1out := rfl
@[simp] theorem State.advance_p2out : s.advance.p2out = s.p2out := rfl

/-! `State.boundary` -/

@[simp] theorem State.boundary_cfg : s.boundary.cfg = s.cfg := rfl
@[simp] theorem State.boundary_imem : s.boundary.imem = s.imem := rfl
@[simp] theorem State.boundary_dmem : s.boundary.dmem = s.dmem := rfl
@[simp] theorem State.boundary_ip : s.boundary.ip = s.ip := rfl
@[simp] theorem State.boundary_ir : s.boundary.ir = s.ir := rfl
@[simp] theorem State.boundary_ar : s.boundary.ar = s.ar := rfl
@[simp] theorem State.boundary_acc : s.boundary.acc = s.acc := rfl
@[simp] theorem State.boundary_z : s.boundary.z = s.z := rfl
@[simp] theorem State.boundary_aluOut : s.boundary.aluOut = s.aluOut := rfl
@[simp] theorem State.boundary_aluZ : s.boundary.aluZ = s.aluZ := rfl
@[simp] theorem State.boundary_mdr : s.boundary.mdr = s.mdr := rfl
@[simp] theorem State.boundary_opr : s.boundary.opr = s.opr := rfl
@[simp] theorem State.boundary_mip : s.boundary.mip = 0 := rfl
@[simp] theorem State.boundary_ticks : s.boundary.ticks = s.ticks := rfl
@[simp] theorem State.boundary_icount : s.boundary.icount = s.icount + 1 := rfl
@[simp] theorem State.boundary_status : s.boundary.status = s.status := rfl
@[simp] theorem State.boundary_in0 : s.boundary.in0 = s.in0 := rfl
@[simp] theorem State.boundary_p1in : s.boundary.p1in = s.p1in := rfl
@[simp] theorem State.boundary_p2in : s.boundary.p2in = s.p2in := rfl
@[simp] theorem State.boundary_out0 : s.boundary.out0 = s.out0 := rfl
@[simp] theorem State.boundary_p1out : s.boundary.p1out = s.p1out := rfl
@[simp] theorem State.boundary_p2out : s.boundary.p2out = s.p2out := rfl

/-! `State.countTick` -/

@[simp] theorem State.countTick_cfg : s.countTick.cfg = s.cfg := rfl
@[simp] theorem State.countTick_imem : s.countTick.imem = s.imem := rfl
@[simp] theorem State.countTick_dmem : s.countTick.dmem = s.dmem := rfl
@[simp] theorem State.countTick_ip : s.countTick.ip = s.ip := rfl
@[simp] theorem State.countTick_ir : s.countTick.ir = s.ir := rfl
@[simp] theorem State.countTick_ar : s.countTick.ar = s.ar := rfl
@[simp] theorem State.countTick_acc : s.countTick.acc = s.acc := rfl
@[simp] theorem State.countTick_z : s.countTick.z = s.z := rfl
@[simp] theorem State.countTick_aluOut : s.countTick.aluOut = s.aluOut := rfl
@[simp] theorem State.countTick_aluZ : s.countTick.aluZ = s.aluZ := rfl
@[simp] theorem State.countTick_mdr : s.countTick.mdr = s.mdr := rfl
@[simp] theorem State.countTick_opr : s.countTick.opr = s.opr := rfl
@[simp] theorem State.countTick_mip : s.countTick.mip = s.mip := rfl
@[simp] theorem State.countTick_ticks : s.countTick.ticks = s.ticks + 1 := rfl
@[simp] theorem State.countTick_icount : s.countTick.icount = s.icount := rfl
@[simp] theorem State.countTick_status : s.countTick.status = s.status := rfl
@[simp] theorem State.countTick_in0 : s.countTick.in0 = s.in0 := rfl
@[simp] theorem State.countTick_p1in : s.countTick.p1in = s.p1in := rfl
@[simp] theorem State.countTick_p2in : s.countTick.p2in = s.p2in := rfl
@[simp] theorem State.countTick_out0 : s.countTick.out0 = s.out0 := rfl
@[simp] theorem State.countTick_p1out : s.countTick.p1out = s.p1out := rfl
@[simp] theorem State.countTick_p2out : s.countTick.p2out = s.p2out := rfl

/-! `State.stop` -/

@[simp] theorem State.stop_cfg (c : Cause) : (s.stop c).cfg = s.cfg := rfl
@[simp] theorem State.stop_imem (c : Cause) : (s.stop c).imem = s.imem := rfl
@[simp] theorem State.stop_dmem (c : Cause) : (s.stop c).dmem = s.dmem := rfl
@[simp] theorem State.stop_ip (c : Cause) : (s.stop c).ip = s.ip := rfl
@[simp] theorem State.stop_ir (c : Cause) : (s.stop c).ir = s.ir := rfl
@[simp] theorem State.stop_ar (c : Cause) : (s.stop c).ar = s.ar := rfl
@[simp] theorem State.stop_acc (c : Cause) : (s.stop c).acc = s.acc := rfl
@[simp] theorem State.stop_z (c : Cause) : (s.stop c).z = s.z := rfl
@[simp] theorem State.stop_aluOut (c : Cause) : (s.stop c).aluOut = s.aluOut := rfl
@[simp] theorem State.stop_aluZ (c : Cause) : (s.stop c).aluZ = s.aluZ := rfl
@[simp] theorem State.stop_mdr (c : Cause) : (s.stop c).mdr = s.mdr := rfl
@[simp] theorem State.stop_opr (c : Cause) : (s.stop c).opr = s.opr := rfl
@[simp] theorem State.stop_mip (c : Cause) : (s.stop c).mip = s.mip := rfl
@[simp] theorem State.stop_ticks (c : Cause) : (s.stop c).ticks = s.ticks := rfl
@[simp] theorem State.stop_icount (c : Cause) : (s.stop c).icount = s.icount := rfl
@[simp] theorem State.stop_status (c : Cause) : (s.stop c).status = .stopped c := rfl
@[simp] theorem State.stop_in0 (c : Cause) : (s.stop c).in0 = s.in0 := rfl
@[simp] theorem State.stop_p1in (c : Cause) : (s.stop c).p1in = s.p1in := rfl
@[simp] theorem State.stop_p2in (c : Cause) : (s.stop c).p2in = s.p2in := rfl
@[simp] theorem State.stop_out0 (c : Cause) : (s.stop c).out0 = s.out0 := rfl
@[simp] theorem State.stop_p1out (c : Cause) : (s.stop c).p1out = s.p1out := rfl
@[simp] theorem State.stop_p2out (c : Cause) : (s.stop c).p2out = s.p2out := rfl

/-! `State.placeAtIp` -/

@[simp] theorem State.placeAtIp_cfg (w : InstrWord) : (s.placeAtIp w).cfg = s.cfg := rfl
@[simp] theorem State.placeAtIp_imem (w : InstrWord) : (s.placeAtIp w).imem = placeWord s.imem s.ip.toNat w := rfl
@[simp] theorem State.placeAtIp_dmem (w : InstrWord) : (s.placeAtIp w).dmem = s.dmem := rfl
@[simp] theorem State.placeAtIp_ip (w : InstrWord) : (s.placeAtIp w).ip = s.ip := rfl
@[simp] theorem State.placeAtIp_ir (w : InstrWord) : (s.placeAtIp w).ir = s.ir := rfl
@[simp] theorem State.placeAtIp_ar (w : InstrWord) : (s.placeAtIp w).ar = s.ar := rfl
@[simp] theorem State.placeAtIp_acc (w : InstrWord) : (s.placeAtIp w).acc = s.acc := rfl
@[simp] theorem State.placeAtIp_z (w : InstrWord) : (s.placeAtIp w).z = s.z := rfl
@[simp] theorem State.placeAtIp_aluOut (w : InstrWord) : (s.placeAtIp w).aluOut = s.aluOut := rfl
@[simp] theorem State.placeAtIp_aluZ (w : InstrWord) : (s.placeAtIp w).aluZ = s.aluZ := rfl
@[simp] theorem State.placeAtIp_mdr (w : InstrWord) : (s.placeAtIp w).mdr = s.mdr := rfl
@[simp] theorem State.placeAtIp_opr (w : InstrWord) : (s.placeAtIp w).opr = w.arg := rfl
@[simp] theorem State.placeAtIp_mip (w : InstrWord) : (s.placeAtIp w).mip = s.mip := rfl
@[simp] theorem State.placeAtIp_ticks (w : InstrWord) : (s.placeAtIp w).ticks = s.ticks := rfl
@[simp] theorem State.placeAtIp_icount (w : InstrWord) : (s.placeAtIp w).icount = s.icount := rfl
@[simp] theorem State.placeAtIp_status (w : InstrWord) : (s.placeAtIp w).status = s.status := rfl
@[simp] theorem State.placeAtIp_in0 (w : InstrWord) : (s.placeAtIp w).in0 = s.in0 := rfl
@[simp] theorem State.placeAtIp_p1in (w : InstrWord) : (s.placeAtIp w).p1in = s.p1in := rfl
@[simp] theorem State.placeAtIp_p2in (w : InstrWord) : (s.placeAtIp w).p2in = s.p2in := rfl
@[simp] theorem State.placeAtIp_out0 (w : InstrWord) : (s.placeAtIp w).out0 = s.out0 := rfl
@[simp] theorem State.placeAtIp_p1out (w : InstrWord) : (s.placeAtIp w).p1out = s.p1out := rfl
@[simp] theorem State.placeAtIp_p2out (w : InstrWord) : (s.placeAtIp w).p2out = s.p2out := rfl

/-! `State.withResult` -/

@[simp] theorem State.withResult_cfg (r : Int) : (s.withResult r).cfg = s.cfg := rfl
@[simp] theorem State.withResult_imem (r : Int) : (s.withResult r).imem = s.imem := rfl
@[simp] theorem State.withResult_dmem (r : Int) : (s.withResult r).dmem = s.dmem := rfl
@[simp] theorem State.withResult_ip (r : Int) : (s.withResult r).ip = s.ip := rfl
@[simp] theorem State.withResult_ir (r : Int) : (s.withResult r).ir = s.ir := rfl
@[simp] theorem State.withResult_ar (r : Int) : (s.withResult r).ar = s.ar := rfl
@[simp] theorem State.withResult_acc (r : Int) : (s.withResult r).acc = r := rfl
@[simp] theorem State.withResult_z (r : Int) : (s.withResult r).z = decide (r = 0) := rfl
@[simp] theorem State.withResult_aluOut (r : Int) : (s.withResult r).aluOut = r := rfl
@[simp] theorem State.withResult_aluZ (r : Int) : (s.withResult r).aluZ = decide (r = 0) := rfl
@[simp] theorem State.withResult_mdr (r : Int) : (s.withResult r).mdr = s.mdr := rfl
@[simp] theorem State.withResult_opr (r : Int) : (s.withResult r).opr = s.opr := rfl
@[simp] theorem State.withResult_mip (r : Int) : (s.withResult r).mip = s.mip := rfl
@[simp] theorem State.withResult_ticks (r : Int) : (s.withResult r).ticks = s.ticks := rfl
@[simp] theorem State.withResult_icount (r : Int) : (s.withResult r).icount = s.icount := rfl
@[simp] theorem State.withResult_status (r : Int) : (s.withResult r).status = s.status := rfl
@[simp] theorem State.withResult_in0 (r : Int) : (s.withResult r).in0 = s.in0 := rfl
@[simp] theorem State.withResult_p1in (r : Int) : (s.withResult r).p1in = s.p1in := rfl
@[simp] theorem State.withResult_p2in (r : Int) : (s.withResult r).p2in = s.p2in := rfl
@[simp] theorem State.withResult_out0 (r : Int) : (s.withResult r).out0 = s.out0 := rfl
@[simp] theorem State.withResult_p1out (r : Int) : (s.withResult r).p1out = s.p1out := rfl
@[simp] theorem State.withResult_p2out (r : Int) : (s.withResult r).p2out = s.p2out := rfl

/-! `State.withCell` -/

@[simp] theorem State.withCell_cfg (a v : Int) : (s.withCell a v).cfg = s.cfg := rfl
@[simp] theorem State.withCell_imem (a v : Int) : (s.withCell a v).imem = s.imem := rfl
@[simp] theorem State.withCell_dmem (a v : Int) : (s.withCell a v).dmem = s.dmem := rfl
@[simp] theorem State.withCell_ip (a v : Int) : (s.withCell a v).ip = s.ip := rfl
@[simp] theorem State.withCell_ir (a v : Int) : (s.withCell a v).ir = s.ir := rfl
@[simp] theorem State.withCell_ar (a v : Int) : (s.withCell a v).ar = a := rfl
@[simp] theorem State.withCell_acc (a v : Int) : (s.withCell a v).acc = s.acc := rfl
@[simp] theorem State.withCell_z (a v : Int) : (s.withCell a v).z = s.z := rfl
@[simp] theorem State.withCell_aluOut (a v : Int) : (s.withCell a v).aluOut = s.aluOut := rfl
@[simp] theorem State.withCell_aluZ (a v : Int) : (s.withCell a v).aluZ = s.aluZ := rfl
@[simp] theorem State.withCell_mdr (a v : Int) : (s.withCell a v).mdr = v := rfl
@[simp] theorem State.withCell_opr (a v : Int) : (s.withCell a v).opr = v := rfl
@[simp] theorem State.withCell_mip (a v : Int) : (s.withCell a v).mip = s.mip := rfl
@[simp] theorem State.withCell_ticks (a v : Int) : (s.withCell a v).ticks = s.ticks := rfl
@[simp] theorem State.withCell_icount (a v : Int) : (s.withCell a v).icount = s.icount := rfl
@[simp] theorem State.withCell_status (a v : Int) : (s.withCell a v).status = s.status := rfl
@[simp] theorem State.withCell_in0 (a v : Int) : (s.withCell a v).in0 = s.in0 := rfl
@[simp] theorem State.withCell_p1in (a v : Int) : (s.withCell a v).p1in = s.p1in := rfl
@[simp] theorem State.withCell_p2in (a v : Int) : (s.withCell a v).p2in = s.p2in := rfl
@[simp] theorem State.withCell_out0 (a v : Int) : (s.withCell a v).out0 = s.out0 := rfl
@[simp] theorem State.withCell_p1out (a v : Int) : (s.withCell a v).p1out = s.p1out := rfl
@[simp] theorem State.withCell_p2out (a v : Int) : (s.withCell a v).p2out = s.p2out := rfl

/-! `State.finish` -/

@[simp] theorem State.finish_cfg (code : BitVec 8) (new : Int) (n : Nat) : (s.finish code new n).cfg = s.cfg := rfl
@[simp] theorem State.finish_imem (code : BitVec 8) (new : Int) (n : Nat) : (s.finish code new n).imem = s.imem := rfl
@[simp] theorem State.finish_dmem (code : BitVec 8) (new : Int) (n : Nat) : (s.finish code new n).dmem = s.dmem := rfl
@[simp] theorem State.finish_ip (code : BitVec 8) (new : Int) (n : Nat) : (s.finish code new n).ip = new := rfl
@[simp] theorem State.finish_ir (code : BitVec 8) (new : Int) (n : Nat) : (s.finish code new n).ir = code := rfl
@[simp] theorem State.finish_ar (code : BitVec 8) (new : Int) (n : Nat) : (s.finish code new n).ar = s.ar := rfl
@[simp] theorem State.finish_acc (code : BitVec 8) (new : Int) (n : Nat) : (s.finish code new n).acc = s.acc := rfl
@[simp] theorem State.finish_z (code : BitVec 8) (new : Int) (n : Nat) : (s.finish code new n).z = s.z := rfl
@[simp] theorem State.finish_aluOut (code : BitVec 8) (new : Int) (n : Nat) : (s.finish code new n).aluOut = s.aluOut := rfl
@[simp] theorem State.finish_aluZ (code : BitVec 8) (new : Int) (n : Nat) : (s.finish code new n).aluZ = s.aluZ := rfl
@[simp] theorem State.finish_mdr (code : BitVec 8) (new : Int) (n : Nat) : (s.finish code new n).mdr = s.mdr := rfl
@[simp] theorem State.finish_opr (code : BitVec 8) (new : Int) (n : Nat) : (s.finish code new n).opr = (s.imemRead new).arg := rfl
@[simp] theorem State.finish_mip (code : BitVec 8) (new : Int) (n : Nat) : (s.finish code new n).mip = 0 := rfl
@[simp] theorem State.finish_ticks (code : BitVec 8) (new : Int) (n : Nat) : (s.finish code new n).ticks = s.ticks + n := rfl
@[simp] theorem State.finish_icount (code : BitVec 8) (new : Int) (n : Nat) : (s.finish code new n).icount = s.icount + 1 := rfl
@[simp] theorem State.finish_status (code : BitVec 8) (new : Int) (n : Nat) : (s.finish code new n).status = s.status := rfl
@[simp] theorem State.finish_in0 (code : BitVec 8) (new : Int) (n : Nat) : (s.finish code new n).in0 = s.in0 := rfl
@[simp] theorem State.finish_p1in (code : BitVec 8) (new : Int) (n : Nat) : (s.finish code new n).p1in = s.p1in := rfl
@[simp] theorem State.finish_p2in (code : BitVec 8) (new : Int) (n : Nat) : (s.finish code new n).p2in = s.p2in := rfl
@[simp] theorem State.finish_out0 (code : BitVec 8) (new : Int) (n : Nat) : (s.finish code new n).out0 = s.out0 := rfl
@[simp] theorem State.finish_p1out (code : BitVec 8) (new : Int) (n : Nat) : (s.finish code new n).p1out = s.p1out := rfl
@[simp] theorem State.finish_p2out (code : BitVec 8) (new : Int) (n : Nat) : (s.finish code new n).p2out = s.p2out := rfl

/-! `State.setInQueue` -/

@[simp] theorem State.setInQueue_cfg (q : InQueue) (l : List Int) :
    (s.setInQueue q l).cfg = s.cfg := by cases q <;> rfl
@[simp] theorem State.setInQueue_imem (q : InQueue) (l : List Int) :
    (s.setInQueue q l).imem = s.imem := by cases q <;> rfl
@[simp] theorem State.setInQueue_dmem (q : InQueue) (l : List Int) :
    (s.setInQueue q l).dmem = s.dmem := by cases q <;> rfl
@[simp] theorem State.setInQueue_ip (q : InQueue) (l : List Int) :
    (s.setInQueue q l).ip = s.ip := by cases q <;> rfl
@[simp] theorem State.setInQueue_ir (q : InQueue) (l : List Int) :
    (s.setInQueue q l).ir = s.ir := by cases q <;> rfl
@[simp] theorem State.setInQueue_ar (q : InQueue) (l : List Int) :
    (s.setInQueue q l).ar = s.ar := by cases q <;> rfl
@[simp] theorem State.setInQueue_acc (q : InQueue) (l : List Int) :
    (s.setInQueue q l).acc = s.acc := by cases q <;> rfl
@[simp] theorem State.setInQueue_z (q : InQueue) (l : List Int) :
    (s.setInQueue q l).z = s.z := by cases q <;> rfl
@[simp] theorem State.setInQueue_aluOut (q : InQueue) (l : List Int) :
    (s.setInQueue q l).aluOut = s.aluOut := by cases q <;> rfl
@[simp] theorem State.setInQueue_aluZ (q : InQueue) (l : List Int) :
    (s.setInQueue q l).aluZ = s.aluZ := by cases q <;> rfl
@[simp] theorem State.setInQueue_mdr (q : InQueue) (l : List Int) :
    (s.setInQueue q l).mdr = s.mdr := by cases q <;> rfl
@[simp] theorem State.setInQueue_opr (q : InQueue) (l : List Int) :
    (s.setInQueue q l).opr = s.opr := by cases q <;> rfl
@[simp] theorem State.setInQueue_mip (q : InQueue) (l : List Int) :
    (s.setInQueue q l).mip = s.mip := by cases q <;> rfl
@[simp] theorem State.setInQueue_ticks (q : InQueue) (l : List Int) :
    (s.setInQueue q l).ticks = s.ticks := by cases q <;> rfl
@[simp] theorem State.setInQueue_icount (q : InQueue) (l : List Int) :
    (s.setInQueue q l).icount = s.icount := by cases q <;> rfl
@[simp] theorem State.setInQueue_status (q : InQueue) (l : List Int) :
    (s.setInQueue q l).status = s.status := by cases q <;> rfl
@[simp] theorem State.setInQueue_in0 (q : InQueue) (l : List Int) :
    (s.setInQueue q l).in0 = if q = .in0 then l else s.in0 := by cases q <;> rfl
@[simp] theorem State.setInQueue_p1in (q : InQueue) (l : List Int) :
    (s.setInQueue q l).p1in = if q = .p1in then l else s.p1in := by cases q <;> rfl
@[simp] theorem State.setInQueue_p2in (q : InQueue) (l : List Int) :
    (s.setInQueue q l).p2in = if q = .p2in then l else s.p2in := by cases q <;> rfl
@[simp] theorem State.setInQueue_out0 (q : InQueue) (l : List Int) :
    (s.setInQueue q l).out0 = s.out0 := by cases q <;> rfl
@[simp] theorem State.setInQueue_p1out (q : InQueue) (l : List Int) :
    (s.setInQueue q l).p1out = s.p1out := by cases q <;> rfl
@[simp] theorem State.setInQueue_p2out (q : InQueue) (l : List Int) :
    (s.setInQueue q l).p2out = s.p2out := by cases q <;> rfl

/-! `State.appendOut` -/

@[simp] theorem State.appendOut_cfg (q : OutQueue) (v : Int) :
    (s.appendOut q v).cfg = s.cfg := by cases q <;> rfl
@[simp] theorem State.appendOut_imem (q : OutQueue) (v : Int) :
    (s.appendOut q v).imem = s.imem := by cases q <;> rfl
@[simp] theorem State.appendOut_dmem (q : OutQueue) (v : Int) :
    (s.appendOut q v).dmem = s.dmem := by cases q <;> rfl
@[simp] theorem State.appendOut_ip (q : OutQueue) (v : Int) :
    (s.appendOut q v).ip = s.ip := by cases q <;> rfl
@[simp] theorem State.appendOut_ir (q : OutQueue) (v : Int) :
    (s.appendOut q v).ir = s.ir := by cases q <;> rfl
@[simp] theorem State.appendOut_ar (q : OutQueue) (v : Int) :
    (s.appendOut q v).ar = s.ar := by cases q <;> rfl
@[simp] theorem State.appendOut_acc (q : OutQueue) (v : Int) :
    (s.appendOut q v).acc = s.acc := by cases q <;> rfl
@[simp] theorem State.appendOut_z (q : OutQueue) (v : Int) :
    (s.appendOut q v).z = s.z := by cases q <;> rfl
@[simp] theorem State.appendOut_aluOut (q : OutQueue) (v : Int) :
    (s.appendOut q v).aluOut = s.aluOut := by cases q <;> rfl
@[simp] theorem State.appendOut_aluZ (q : OutQueue) (v : Int) :
    (s.appendOut q v).aluZ = s.aluZ := by cases q <;> rfl
@[simp] theorem State.appendOut_mdr (q : OutQueue) (v : Int) :
    (s.appendOut q v).mdr = s.mdr := by cases q <;> rfl
@[simp] theorem State.appendOut_opr (q : OutQueue) (v : Int) :
    (s.appendOut q v).opr = s.opr := by cases q <;> rfl
@[simp] theorem State.appendOut_mip (q : OutQueue) (v : Int) :
    (s.appendOut q v).mip = s.mip := by cases q <;> rfl
@[simp] theorem State.appendOut_ticks (q : OutQueue) (v : Int) :
    (s.appendOut q v).ticks = s.ticks := by cases q <;> rfl
@[simp] theorem State.appendOut_icount (q : OutQueue) (v : Int) :
    (s.appendOut q v).icount = s.icount := by cases q <;> rfl
@[simp] theorem State.appendOut_status (q : OutQueue) (v : Int) :
    (s.appendOut q v).status = s.status := by cases q <;> rfl
@[simp] theorem State.appendOut_in0 (q : OutQueue) (v : Int) :
    (s.appendOut q v).in0 = s.in0 := by cases q <;> rfl
@[simp] theorem State.appendOut_p1in (q : OutQueue) (v : Int) :
    (s.appendOut q v).p1in = s.p1in := by cases q <;> rfl
@[simp] theorem State.appendOut_p2in (q : OutQueue) (v : Int) :
    (s.appendOut q v).p2in = s.p2in := by cases q <;> rfl
@[simp] theorem State.appendOut_out0 (q : OutQueue) (v : Int) :
    (s.appendOut q v).out0 = if q = .out0 then s.out0 ++ [v] else s.out0 := by cases q <;> rfl
@[simp] theorem State.appendOut_p1out (q : OutQueue) (v : Int) :
    (s.appendOut q v).p1out = if q = .p1out then s.p1out ++ [v] else s.p1out := by cases q <;> rfl
@[simp] theorem State.appendOut_p2out (q : OutQueue) (v : Int) :
    (s.appendOut q v).p2out = if q = .p2out then s.p2out ++ [v] else s.p2out := by cases q <;> rfl

/-! Reads of instruction memory depend on `imem` alone, data accesses on `dmem` and the capacity. -/

theorem State.imemRead_congr {s t : State} (h : s.imem = t.imem) (a : Int) :
    s.imemRead a = t.imemRead a := by simp [State.imemRead, h]

theorem State.dmemRead_congr {s t : State} (hm : s.dmem = t.dmem) (hc : s.cfg = t.cfg) (a : Int) :
    s.dmemRead a = t.dmemRead a := by simp [State.dmemRead, hm, hc]

theorem State.nextIp_congr {s t : State} (h : s.ip = t.ip) (hc : s.cfg = t.cfg) : s.nextIp = t.nextIp := by
  simp [State.nextIp, h, hc]

end Sys2Proof.Machine
end

