-- ==== Sys2Proof/Laws/Memory.lean ====
section
/-! SUPPORT. Data memory: what a read after a write gives, and that every memory operation keeps the canonical form
(20_memory.md R47). -/

namespace Sys2Proof.Machine

/-- An index is above an optional bound. -/
abbrev AboveBound (n : Option Nat) (a : Nat) : Prop := aboveBound n a = true

@[simp] theorem aboveBound_none (a : Nat) : aboveBound none a = true := rfl

@[simp] theorem aboveBound_some (k a : Nat) : (aboveBound (some k) a = true) = (k < a) := by
  simp [aboveBound]

theorem Memory.wfAbove_nil (n : Option Nat) : Memory.wfAbove n [] = true := by
  cases n <;> rfl

theorem Memory.wfAbove_cons (n : Option Nat) (a : Nat) (v : Int) (m : Memory) :
    Memory.wfAbove n ((a, v) :: m) = true ↔
      AboveBound n a ∧ v ≠ unlistedCell ∧ Memory.wfAbove (some a) m = true := by
  simp [Memory.wfAbove, and_assoc]

/-- A lower bound can be lowered. -/
theorem Memory.wfAbove_mono {n : Option Nat} {k : Nat} {m : Memory}
    (h : Memory.wfAbove (some k) m = true) (hn : ∀ j, n = some j → j ≤ k) :
    Memory.wfAbove n m = true := by
  cases m with
  | nil => exact wfAbove_nil n
  | cons c m =>
    obtain ⟨a, v⟩ := c
    rw [wfAbove_cons] at h ⊢
    refine ⟨?_, h.2⟩
    cases n with
    | none => rfl
    | some j => simpa using Nat.lt_of_le_of_lt (hn j rfl) (by simpa using h.1)

theorem Memory.wfAbove_put {n : Option Nat} {a : Nat} {v : Int} {m : Memory}
    (hn : AboveBound n a) (hm : Memory.wfAbove (some a) m = true) :
    Memory.wfAbove n (Memory.cons a v m) = true := by
  unfold Memory.cons
  split
  · refine wfAbove_mono hm ?_
    rintro j rfl
    exact Nat.le_of_lt (by simpa using hn)
  · exact (wfAbove_cons ..).2 ⟨hn, ‹_›, hm⟩

/-- A write above the bound keeps the canonical form above the bound. -/
theorem Memory.wfAbove_write {n : Option Nat} {m : Memory} {a : Nat} {v : Int}
    (h : Memory.wfAbove n m = true) (hn : AboveBound n a) :
    Memory.wfAbove n (Memory.write m a v) = true := by
  induction m generalizing n with
  | nil => exact wfAbove_put hn (wfAbove_nil _)
  | cons c m ih =>
    obtain ⟨b, w⟩ := c
    rw [wfAbove_cons] at h
    simp only [Memory.write]
    split
    · exact wfAbove_put hn ((wfAbove_cons ..).2 ⟨by simpa, h.2⟩)
    · split
      · subst_vars
        exact wfAbove_put hn h.2.2
      · refine (wfAbove_cons ..).2 ⟨h.1, h.2.1, ih h.2.2 ?_⟩
        have : b < a := by omega
        simpa

/-- A write keeps the canonical form. -/
theorem Memory.wf_write {m : Memory} (h : m.wf = true) (a : Nat) (v : Int) :
    (m.write a v).wf = true := wfAbove_write h rfl

/-- Below the bound every cell is unlisted. -/
theorem Memory.read_of_wfAbove {k : Nat} {m : Memory} (h : Memory.wfAbove (some k) m = true) {a : Nat}
    (ha : a ≤ k) : m.read a = unlistedCell := by
  induction m generalizing k with
  | nil => rfl
  | cons c m ih =>
    obtain ⟨b, w⟩ := c
    rw [wfAbove_cons] at h
    have hk : k < b := by simpa using h.1
    rw [Memory.read, if_neg (by omega)]
    exact ih h.2.2 (by omega)

theorem Memory.read_put {m : Memory} (a b : Nat) (v : Int)
    (hm : Memory.wfAbove (some a) m = true) :
    (Memory.cons a v m).read b = if b = a then v else m.read b := by
  unfold Memory.cons
  split
  · split
    · subst_vars
      exact read_of_wfAbove hm le_rfl
    · rfl
  · rfl

/-- What a cell holds after a write: the word written in the written cell, the old word in every other. -/
theorem Memory.read_write {m : Memory} (h : m.wf = true) (a b : Nat) (v : Int) :
    (m.write a v).read b = if b = a then v else m.read b := by
  have key : ∀ (m : Memory) (n : Option Nat), Memory.wfAbove n m = true →
      (m.write a v).read b = if b = a then v else m.read b := by
    intro m
    induction m with
    | nil => exact fun _ _ => read_put a b v (wfAbove_nil _)
    | cons c m ih =>
      obtain ⟨d, w⟩ := c
      intro n h
      rw [wfAbove_cons] at h
      simp only [Memory.write]
      split
      · exact read_put a b v ((wfAbove_cons ..).2 ⟨by simpa, h.2⟩)
      · split
        · rename_i hda
          rw [← hda] at h ⊢
          rw [read_put a b v h.2.2]
          by_cases hb : b = a <;> simp [Memory.read, hb]
        · rw [Memory.read, Memory.read, ih (some d) h.2.2]
          split <;> split <;> simp_all
  exact key m none h

theorem Memory.read_write_same {m : Memory} (h : m.wf = true) (a : Nat) (v : Int) :
    (m.write a v).read a = v := by simp [read_write h]

theorem Memory.read_write_other {m : Memory} (h : m.wf = true) {a b : Nat} (hb : b ≠ a) (v : Int) :
    (m.write a v).read b = m.read b := by simp [read_write h, hb]

theorem Memory.within_put {n a : Nat} {v : Int} {m : Memory} (ha : a < n)
    (hm : m.within n = true) : (Memory.cons a v m).within n = true := by
  unfold Memory.cons
  split
  · exact hm
  · rw [Memory.within, List.all_cons, ← Memory.within, hm]
    simp [ha]

/-- A write to a cell of the memory lists cells of the memory only. -/
theorem Memory.within_write {n a : Nat} {m : Memory} (ha : a < n) (hm : m.within n = true)
    (v : Int) : (m.write a v).within n = true := by
  induction m with
  | nil => exact within_put ha hm
  | cons c m ih =>
    obtain ⟨b, w⟩ := c
    have hb : b < n ∧ Memory.within n m = true := by
      rw [Memory.within, List.all_cons, ← Memory.within] at hm
      simpa using hm
    simp only [Memory.write]
    split
    · exact within_put ha hm
    · split
      · exact within_put ha hb.2
      · rw [Memory.within, List.all_cons, ← Memory.within, ih hb.2]
        simp [hb.1]

/-- Canonical memories that read alike are the same data. -/
theorem Memory.ext_of_wf {m n : Memory} (hm : m.wf = true) (hn : n.wf = true)
    (h : ∀ a, m.read a = n.read a) : m = n := by
  have key : ∀ (m n : Memory) (k : Option Nat), Memory.wfAbove k m = true →
      Memory.wfAbove k n = true → (∀ a, AboveBound k a → m.read a = n.read a) → m = n := by
    intro m
    induction m with
    | nil =>
      intro n k _ hn h
      cases n with
      | nil => rfl
      | cons c n =>
        obtain ⟨b, w⟩ := c
        rw [wfAbove_cons] at hn
        have := h b hn.1
        simp only [Memory.read, if_true] at this
        exact absurd this.symm hn.2.1
    | cons c m ih =>
      obtain ⟨a, v⟩ := c
      intro n k hm hn h
      rw [wfAbove_cons] at hm
      cases n with
      | nil =>
        have := h a hm.1
        simp only [Memory.read, if_true] at this
        exact absurd this hm.2.1
      | cons d n =>
        obtain ⟨b, w⟩ := d
        rw [wfAbove_cons] at hn
        have hab : a = b := by
          rcases Nat.lt_trichotomy a b with hlt | heq | hgt
          · have := h a hm.1
            rw [Memory.read, if_pos rfl, Memory.read, if_neg (by omega),
              read_of_wfAbove hn.2.2 (by omega)] at this
            exact absurd this hm.2.1
          · exact heq
          · have := h b hn.1
            rw [Memory.read, if_neg (by omega), read_of_wfAbove hm.2.2 (by omega),
              Memory.read, if_pos rfl] at this
            exact absurd this.symm hn.2.1
        subst hab
        have hv : v = w := by simpa [Memory.read] using h a hm.1
        subst hv
        rw [ih n (some a) hm.2.2 hn.2.2]
        intro e he
        have hke : AboveBound k e := by
          cases k with
          | none => rfl
          | some j =>
            simpa using lt_trans (show j < a by simpa using hm.1) (show a < e by simpa using he)
        have hea : e ≠ a := by
          have : a < e := by simpa using he
          omega
        simpa [Memory.read, hea] using h e hke
  exact key m n none hm hn (fun a _ => h a)

/-- The memory of a list of cells is canonical. -/
theorem Memory.wf_memoryOfCells (a : Nat) (cells : List Int) (n : Option Nat)
    (hn : AboveBound n a) : Memory.wfAbove n (memoryOfCells a cells) = true := by
  induction cells generalizing a n with
  | nil => exact wfAbove_nil n
  | cons v vs ih =>
    exact wfAbove_put hn (ih (a + 1) (some a) (by simp))

/-- The memory of a list of cells holds the cells from its first index on, and nothing else. -/
theorem Memory.read_memoryOfCells (a b : Nat) (cells : List Int) :
    (memoryOfCells a cells).read b = if a ≤ b then cells.getD (b - a) 0 else 0 := by
  induction cells generalizing a with
  | nil => simp [memoryOfCells, Memory.read, unlistedCell]
  | cons v vs ih =>
    rw [memoryOfCells, read_put a b v (wf_memoryOfCells (a + 1) vs (some a) (by simp)),
      ih (a + 1)]
    rcases Nat.lt_trichotomy b a with h | h | h
    · rw [if_neg (by omega), if_neg (by omega), if_neg (by omega)]
    · subst h
      simp
    · rw [if_neg (by omega), if_pos (by omega), if_pos (by omega)]
      obtain ⟨d, rfl⟩ : ∃ d, b = a + 1 + d := ⟨b - (a + 1), by omega⟩
      have h1 : a + 1 + d - (a + 1) = d := by omega
      have h2 : a + 1 + d - a = d + 1 := by omega
      simp [h1, h2]

/-- The memory of a list of cells lists cells below its end only. -/
theorem Memory.within_memoryOfCells (a n : Nat) (cells : List Int) (h : a + cells.length ≤ n) :
    (memoryOfCells a cells).within n = true := by
  induction cells generalizing a with
  | nil => rfl
  | cons v vs ih =>
    rw [List.length_cons] at h
    exact within_put (by omega) (ih (a + 1) (by omega))

/-! The two accesses (R47). -/

/-- What an address in range is (R47). -/
theorem inRange_iff (n : Nat) (a : Int) :
    inRange n a = true ↔ 0 ≤ a ∧ a < (n : Int) := by simp [inRange]

/-- The index of an address in range is its value, below the bound. -/
theorem toNat_lt_of_inRange {n : Nat} {a : Int} (h : inRange n a = true) :
    (a.toNat : Int) = a ∧ a.toNat < n := by
  rw [inRange_iff] at h
  omega

/-- Everything a data read can answer (R47). -/
theorem State.dmemRead_cases (s : State) (a : Int) :
    (inRange s.cfg.dataMemSize a = true ∧ s.dmemRead a = some (s.dmem.read a.toNat)) ∨
      (inRange s.cfg.dataMemSize a = false ∧ s.dmemRead a = none) := by
  unfold State.dmemRead
  cases inRange s.cfg.dataMemSize a <;> simp

theorem State.dmemRead_eq_some {s : State} {a v : Int} :
    s.dmemRead a = some v ↔
      inRange s.cfg.dataMemSize a = true ∧ s.dmem.read a.toNat = v := by
  simp [State.dmemRead]

theorem State.dmemRead_eq_none {s : State} {a : Int} :
    s.dmemRead a = none ↔ inRange s.cfg.dataMemSize a = false := by
  simp [State.dmemRead]

theorem State.dmemWrite_eq_some {s t : State} {a v : Int} :
    s.dmemWrite a v = some t ↔
      inRange s.cfg.dataMemSize a = true ∧ t = { s with dmem := s.dmem.write a.toNat v } := by
  unfold State.dmemWrite
  cases inRange s.cfg.dataMemSize a <;> simp [eq_comm (a := t)]

theorem State.dmemWrite_eq_none {s : State} {a v : Int} :
    s.dmemWrite a v = none ↔ inRange s.cfg.dataMemSize a = false := by
  simp [State.dmemWrite]

/-- A data write keeps memory sound (R47). -/
theorem State.memorySound_dmemWrite {s t : State} {a v : Int} (h : s.memorySound = true)
    (hw : s.dmemWrite a v = some t) : t.memorySound = true := by
  obtain ⟨hr, rfl⟩ := State.dmemWrite_eq_some.1 hw
  simp only [State.memorySound, Bool.and_eq_true] at h ⊢
  exact ⟨Memory.wf_write h.1 _ _, Memory.within_write (toNat_lt_of_inRange hr).2 h.2 _⟩

/-! What holds of every word of a memory. -/

/-- A write keeps what holds of every listed word and of the word written. -/
theorem Memory.forall_write {P : Int → Prop} {m : Memory} {a : Nat} {v : Int} (h : ∀ c ∈ m, P c.2) (hv : P v) :
    ∀ c ∈ m.write a v, P c.2 := by
  have put : ∀ (m : Memory) (a : Nat), (∀ c ∈ m, P c.2) → ∀ c ∈ Memory.cons a v m, P c.2 := by
    intro m a h
    unfold Memory.cons
    split
    · exact h
    · exact List.forall_mem_cons.2 ⟨hv, h⟩
  induction m with
  | nil => exact put [] a h
  | cons x m ih =>
    obtain ⟨hx, hm⟩ := List.forall_mem_cons.1 h
    unfold Memory.write
    split
    · exact put _ a h
    · split
      · exact put m a hm
      · exact List.forall_mem_cons.2 ⟨hx, ih hm⟩

/-- A word read has what holds of every listed word and of an unlisted cell's. -/
theorem Memory.forall_read {P : Int → Prop} {m : Memory} (h : ∀ c ∈ m, P c.2) (h0 : P unlistedCell) (a : Nat) :
    P (m.read a) := by
  induction m with
  | nil => exact h0
  | cons x m ih =>
    obtain ⟨hx, hm⟩ := List.forall_mem_cons.1 h
    unfold Memory.read
    split
    · exact hx
    · exact ih hm

/-- Every word of the state fits the run's width, field by field. -/
theorem State.wordsFit_iff (s : State) :
    s.wordsFit = true ↔
      (fitsWord s.cfg.width s.ip = true ∧ fitsWord s.cfg.width s.ar = true ∧ fitsWord s.cfg.width s.acc = true ∧
        fitsWord s.cfg.width s.aluOut = true ∧ fitsWord s.cfg.width s.mdr = true ∧ fitsWord s.cfg.width s.opr = true) ∧
      (∀ c ∈ s.dmem, fitsWord s.cfg.width c.2 = true) ∧ (∀ w ∈ s.imem, fitsWord s.cfg.width w.arg = true) ∧
      (∀ v ∈ s.in0, fitsWord s.cfg.width v = true) ∧ (∀ v ∈ s.p1in, fitsWord s.cfg.width v = true) ∧
      (∀ v ∈ s.p2in, fitsWord s.cfg.width v = true) ∧ (∀ v ∈ s.out0, fitsWord s.cfg.width v = true) ∧
      (∀ v ∈ s.p1out, fitsWord s.cfg.width v = true) ∧ (∀ v ∈ s.p2out, fitsWord s.cfg.width v = true) := by
  simp [State.wordsFit, and_assoc]

end Sys2Proof.Machine
end

