-- ==== Sys2Proof/Laws/Ticks.lean ====
section
/-! SUPPORT. What the controller's loop body and each named tick can do, said once (50_control_unit.md R225, R226), and how
the ticks of an instruction follow one another. -/

namespace Sys2Proof.Machine

/-! The controller's loop body. -/

/-- Once stopped, no tick changes anything (R226). -/
theorem controlTick_stopped {f : State → TickResult} {s : State} {c : Cause}
    (h : s.status = .stopped c) : controlTick f s = s := by simp [controlTick, h]

/-- The ceiling stops the machine before the tick (R225). -/
theorem controlTick_ceiling {f : State → TickResult} {s : State}
    (h : s.status = .running) (hc : s.atCeiling = true) :
    controlTick f s = s.stop .tickCeilingExceeded := by simp [controlTick, h, hc]

/-- A tick that completes is counted (R221). -/
theorem controlTick_done {f : State → TickResult} {s t : State}
    (h : s.status = .running) (hc : s.atCeiling = false) (hf : f s = .done t) :
    controlTick f s = t.countTick := by simp [controlTick, h, hc, hf]

/-- A tick that raises stops the machine and is not counted (R226). -/
theorem controlTick_raised {f : State → TickResult} {s t : State} {c : Cause}
    (h : s.status = .running) (hc : s.atCeiling = false) (hf : f s = .raised c t) :
    controlTick f s = t.stop c := by simp [controlTick, h, hc, hf]

/-- Everything the loop body can do. -/
theorem controlTick_cases (f : State → TickResult) (s : State) :
    (∃ c, s.status = .stopped c ∧ controlTick f s = s) ∨
    (s.status = .running ∧ s.atCeiling = true ∧ controlTick f s = s.stop .tickCeilingExceeded) ∨
    (s.status = .running ∧ s.atCeiling = false ∧ ∃ t, f s = .done t ∧ controlTick f s = t.countTick) ∨
    (s.status = .running ∧ s.atCeiling = false ∧
      ∃ c t, f s = .raised c t ∧ controlTick f s = t.stop c) := by
  cases hs : s.status with
  | stopped c => exact .inl ⟨c, rfl, controlTick_stopped hs⟩
  | running =>
    cases hc : s.atCeiling with
    | true => exact .inr (.inl ⟨rfl, rfl, controlTick_ceiling hs hc⟩)
    | false =>
      cases hf : f s with
      | done t => exact .inr (.inr (.inl ⟨rfl, rfl, t, rfl, controlTick_done hs hc hf⟩))
      | raised c t => exact .inr (.inr (.inr ⟨rfl, rfl, c, t, rfl, controlTick_raised hs hc hf⟩))

/-! Sequences of ticks. -/

@[simp] theorem runTicks_nil (s : State) : runTicks [] s = s := rfl

theorem runTicks_cons (f : State → TickResult) (fs : List (State → TickResult)) (s : State) :
    runTicks (f :: fs) s = runTicks fs (controlTick f s) := rfl

/-- The ticks after a stop change nothing. -/
theorem runTicks_stopped {s : State} {c : Cause} (h : s.status = .stopped c)
    (fs : List (State → TickResult)) : runTicks fs s = s := by
  induction fs with
  | nil => rfl
  | cons f fs ih => rw [runTicks_cons, controlTick_stopped h, ih]

/-- An instruction that meets the ceiling before its first tick. -/
theorem runTicks_ceiling {s : State} (h : s.status = .running) (hc : s.atCeiling = true)
    (f : State → TickResult) (fs : List (State → TickResult)) :
    runTicks (f :: fs) s = s.stop .tickCeilingExceeded := by
  rw [runTicks_cons, controlTick_ceiling h hc, runTicks_stopped rfl]

/-- A first tick that completes. -/
theorem runTicks_done {s t : State} {f : State → TickResult} (h : s.status = .running)
    (hc : s.atCeiling = false) (hf : f s = .done t) (fs : List (State → TickResult)) :
    runTicks (f :: fs) s = runTicks fs t.countTick := by
  rw [runTicks_cons, controlTick_done h hc hf]

/-- A first tick that raises. -/
theorem runTicks_raised {s t : State} {c : Cause} {f : State → TickResult} (h : s.status = .running)
    (hc : s.atCeiling = false) (hf : f s = .raised c t) (fs : List (State → TickResult)) :
    runTicks (f :: fs) s = t.stop c := by
  rw [runTicks_cons, controlTick_raised h hc hf, runTicks_stopped rfl]

/-- A property that every loop body keeps is kept by every sequence of ticks. -/
theorem runTicks_induct (P : State → Prop) (fs : List (State → TickResult)) (s : State) (hs : P s)
    (h : ∀ f ∈ fs, ∀ t, P t → P (controlTick f t)) : P (runTicks fs s) := by
  induction fs generalizing s with
  | nil => exact hs
  | cons f fs ih =>
    exact ih (controlTick f s) (h f List.mem_cons_self s hs)
      (fun g hg => h g (List.mem_cons_of_mem f hg))

/-! Ticks under the ceiling. -/

/-- With `n` ticks left the ceiling is not reached before the next `n` ticks. -/
theorem ceilingAt_of_hasTicks {s : State} {n : Nat} (h : s.hasTicks n = true) (k : Nat) (hk : k < n) :
    ceilingAt s.cfg (s.ticks + k) = false := by
  unfold State.hasTicks at h
  unfold ceilingAt
  cases hl : s.cfg.tickLimit with
  | none => rfl
  | some l =>
    simp only [hl, decide_eq_true_eq, decide_eq_false_iff_not] at h ⊢
    omega

/-- With a tick left the ceiling is not reached. -/
theorem State.atCeiling_of_hasTicks {s : State} {n : Nat} (h : s.hasTicks n = true) (hn : 0 < n) :
    s.atCeiling = false := ceilingAt_of_hasTicks h 0 hn

/-- Not at the ceiling, and one tick left, are the same. -/
theorem State.hasTicks_one (s : State) : s.hasTicks 1 = !s.atCeiling := by
  unfold State.hasTicks State.atCeiling ceilingAt
  cases s.cfg.tickLimit with
  | none => rfl
  | some l =>
    by_cases h : l ≤ s.ticks
    · simp [h]
    · simp [h]
      omega

/-- A completed tick uses up one of the ticks left. -/
theorem State.hasTicks_countTick {s : State} {n : Nat} (h : s.hasTicks (n + 1) = true) :
    s.countTick.hasTicks n = true := by
  unfold State.hasTicks at h ⊢
  rw [State.countTick_cfg, State.countTick_ticks]
  cases hl : s.cfg.tickLimit with
  | none => rfl
  | some l =>
    simp only [hl, decide_eq_true_eq] at h ⊢
    omega

/-! The named ticks: everything each can do. -/

theorem fetchTick_eq (code : BitVec 8) (entry : Nat) (s : State) :
    fetchTick code entry s = .done ((s.setIr code).setMip entry) := rfl

theorem haltTick_eq (code : BitVec 8) (s : State) :
    haltTick code s = .raised .normalHalt (s.setIr code) := rfl

/-- A mode word reads the cell at the latched address, or raises with the address latched (41_memory_ops.md R162). -/
theorem readCellTick_cases (a : Int) (s : State) :
    (∃ v, s.dmemRead a = some v ∧ readCellTick a s = .done (((s.setAr a).setMdr v).advance)) ∨
    (s.dmemRead a = none ∧ readCellTick a s = .raised (.dataAddrOutOfRange a) (s.setAr a)) := by
  unfold readCellTick
  cases s.dmemRead a <;> simp

theorem aluTick_eq (fn : AluFn) (x : Int) (s : State) :
    aluTick fn x s = .done (((s.setAlu (aluResult s.cfg.width fn s.acc x)).commitAlu).advance) := rfl

/-- An input tick takes the first element of its queue, or raises with nothing written (42_io.md R181). -/
theorem inputTick_cases (q : InQueue) (s : State) :
    (∃ v rest, s.inQueue q = v :: rest ∧
      inputTick q s =
        .done ((((s.setInQueue q rest).setAlu v).commitAlu).advance)) ∨
    (s.inQueue q = [] ∧ inputTick q s = .raised (.bufferUnderrun q) s) := by
  unfold inputTick State.popQueue
  cases h : s.inQueue q with
  | nil => exact .inr ⟨rfl, rfl⟩
  | cons v rest => exact .inl ⟨v, rest, rfl, rfl⟩

theorem outputTick_eq (q : OutQueue) (s : State) :
    outputTick q s = .done ((s.appendOut q s.acc).advance) := rfl

/-- The store tick writes the cell at `AR`, or raises with nothing written (31_control_word.md R103). -/
theorem storeTick_cases (s : State) :
    (∃ t, s.dmemWrite s.ar s.acc = some t ∧ storeTick s = .done t.advance) ∨
    (s.dmemWrite s.ar s.acc = none ∧ storeTick s = .raised (.dataAddrOutOfRange s.ar) s) := by
  unfold storeTick
  cases s.dmemWrite s.ar s.acc <;> simp

/-- The last tick latches a pointer inside instruction memory, or raises with nothing written (31_control_word.md
R93). -/
theorem latchTick_cases (new : Int) (s : State) :
    (inRange s.cfg.instrMemSize new = true ∧ latchTick new s = .done ((s.setIp new).boundary)) ∨
    (inRange s.cfg.instrMemSize new = false ∧
      latchTick new s = .raised (.instrAddrOutOfRange new) s) := by
  unfold latchTick
  cases inRange s.cfg.instrMemSize new <;> simp

/-- The condition under which an instruction of `n` ticks that ends with `NEXT` completes. -/
theorem State.readyFor_iff (s : State) (n : Nat) :
    s.readyFor n = true ↔
      s.status = .running ∧ s.hasTicks n = true ∧ inRange s.cfg.instrMemSize s.nextIp = true := by
  simp [State.readyFor, and_assoc]

end Sys2Proof.Machine
end

