-- ==== Sys2Proof/Laws/Decode.lean ====
section
/-! SUPPORT. Instruction codes: every `Instr` is well formed, the code of a pair and its two digits, and what the decoder
answers (30_encoding.md R60 to R68). -/

namespace Sys2Proof

/-- `Instr` has a constructor for each legal pair and none other (R63, R64). -/
theorem Instr.legalPair_all (i : Instr) : legalPair i.opcode i.mode = true := by cases i <;> rfl

/-- An instruction is well formed at a width exactly when its argument fits (R66). -/
@[simp] theorem Instr.wellFormed_eq (w : Nat) (i : Instr) : i.wellFormed w = fitsWord w i.arg := by
  simp [Instr.wellFormed, legalPair_all]

/-- What fits a width, as a bound on the exact value (R7). -/
theorem fitsWord_iff {w : Nat} {n : Int} :
    fitsWord w n = true ↔ -(2 ^ (w - 1)) ≤ n ∧ n < 2 ^ (w - 1) := by simp [fitsWord]

/-- A word that fits is its own wrap (R7). -/
theorem wrap_of_fitsWord {w : Nat} (hw : 1 ≤ w) {n : Int} (h : fitsWord w n = true) : wrap w n = n := by
  obtain ⟨k, rfl⟩ : ∃ k, w = k + 1 := ⟨w - 1, by omega⟩
  rw [fitsWord_iff, Nat.add_sub_cancel] at h
  have h2 : ((2 ^ (k + 1) : Nat) : Int) = 2 * 2 ^ k := by push_cast; ring
  exact Int.bmod_eq_of_le (by rw [h2]; omega) (by rw [h2]; omega)

/-- A wrap fits its width (R7, R141). -/
@[simp] theorem fitsWord_wrap {w : Nat} (hw : 1 ≤ w) (n : Int) : fitsWord w (wrap w n) = true := by
  obtain ⟨k, rfl⟩ : ∃ k, w = k + 1 := ⟨w - 1, by omega⟩
  rw [fitsWord_iff, Nat.add_sub_cancel]
  have h2 : ((2 ^ (k + 1) : Nat) : Int) = 2 * 2 ^ k := by push_cast; ring
  have hp : (0 : Int) < 2 ^ k := by positivity
  have h1 := Int.le_bmod (x := n) (m := 2 ^ (k + 1)) (by positivity)
  have h3 := Int.bmod_lt (x := n) (m := 2 ^ (k + 1)) (by positivity)
  rw [h2] at h1 h3
  change -(2 ^ k) ≤ n.bmod (2 ^ (k + 1)) ∧ n.bmod (2 ^ (k + 1)) < 2 ^ k
  generalize n.bmod (2 ^ (k + 1)) = r at h1 h3 ⊢
  generalize (2 : Int) ^ k = p at *
  exact ⟨by omega, by omega⟩

/-- Zero is a word of every width. -/
@[simp] theorem fitsWord_zero (w : Nat) : fitsWord w 0 = true := by
  rw [fitsWord_iff]
  have : (0 : Int) < 2 ^ (w - 1) := by positivity
  omega

theorem Opcode.index_lt (o : Opcode) : o.index < 17 := by cases o <;> decide

theorem Mode.index_lt (m : Mode) : m.index < 5 := by cases m <;> decide

/-- The index of an opcode names it (R60). -/
@[simp] theorem Opcode.ofIndex_index (o : Opcode) : Opcode.ofIndex o.index = some o := by
  cases o <;> rfl

/-- The index of a mode names it (R61). -/
@[simp] theorem Mode.ofIndex_index (m : Mode) : Mode.ofIndex m.index = some m := by
  cases m <;> rfl

theorem Opcode.index_of_ofIndex {n : Nat} {o : Opcode} (h : Opcode.ofIndex n = some o) :
    o.index = n := by
  have hn : n < 17 := by
    by_contra hc
    rw [Opcode.ofIndex, List.getElem?_eq_none (by simpa [Opcode.all] using hc)] at h
    cases h
  interval_cases n <;> cases h <;> rfl

theorem Mode.index_of_ofIndex {n : Nat} {m : Mode} (h : Mode.ofIndex n = some m) :
    m.index = n := by
  have hn : n < 5 := by
    by_contra hc
    rw [Mode.ofIndex, List.getElem?_eq_none (by simpa [Mode.all] using hc)] at h
    cases h
  interval_cases n <;> cases h <;> rfl

/-- A code fits the 8 bits of the field (R62). -/
theorem toNat_encodeCode (o : Opcode) (m : Mode) : (encodeCode o m).toNat = codeNumber o m := by
  cases o <;> cases m <;> rfl

/-- The quotient of a code is its opcode's index (R62, R68). -/
@[simp] theorem opcodeOf_encodeCode (o : Opcode) (m : Mode) :
    opcodeOf (encodeCode o m) = o.index := by cases o <;> cases m <;> rfl

/-- The remainder of a code is its mode's index (R62, R68). -/
@[simp] theorem modeOf_encodeCode (o : Opcode) (m : Mode) : modeOf (encodeCode o m) = m.index := by
  cases o <;> cases m <;> rfl

/-- A code is its quotient and remainder (R8, R62). -/
theorem encodeCode_of_digits {c : BitVec 8} {o : Opcode} {m : Mode} (ho : o.index = opcodeOf c)
    (hm : m.index = modeOf c) : encodeCode o m = c := by
  apply BitVec.eq_of_toNat_eq
  rw [toNat_encodeCode, codeNumber, ho, hm, opcodeOf, modeOf]
  omega

/-- The code of a pair is legal exactly when the pair is (R63, R64). -/
@[simp] theorem legalCode_encodeCode (o : Opcode) (m : Mode) :
    legalCode (encodeCode o m) = legalPair o m := by
  simp [legalCode]

/-- A legal code is the code of a legal pair (R63, R64). -/
theorem legalCode_iff (c : BitVec 8) :
    legalCode c = true ↔ ∃ o m, legalPair o m = true ∧ c = encodeCode o m := by
  constructor
  · intro h
    unfold legalCode at h
    split at h
    · rename_i o m ho hm
      exact ⟨o, m, h, (encodeCode_of_digits (Opcode.index_of_ofIndex ho) (Mode.index_of_ofIndex hm)).symm⟩
    · cases h
  · rintro ⟨o, m, h, rfl⟩
    rwa [legalCode_encodeCode]

/-- There is an instruction for a pair exactly when the pair is legal (R63, R64). -/
theorem Instr.make_isSome (o : Opcode) (m : Mode) (a : Int) :
    (Instr.make o m a).isSome = legalPair o m := by
  cases o <;> cases m <;> rfl

/-- What the instruction of a pair and an argument is made of. -/
theorem Instr.make_eq_some {o : Opcode} {m : Mode} {a : Int} {i : Instr}
    (h : Instr.make o m a = some i) :
    i.opcode = o ∧ i.mode = m ∧ (i.mode ≠ .none → i.arg = a) := by
  cases o <;> cases m <;> cases h <;> exact ⟨rfl, rfl, fun hn => by first | rfl | exact absurd rfl hn⟩

/-- The decoder rejects exactly the illegal codes (R65). -/
theorem decode_error (w : InstrWord) (h : legalCode w.code = false) :
    decode w = .error (.illegalCode w.code) := by
  unfold decode
  unfold legalCode at h
  split at h
  · rename_i o m ho hm
    have hn : Instr.make o m w.arg = none := by
      have := Instr.make_isSome o m w.arg
      rw [h] at this
      simpa using this
    simp [hn]
  · rfl

/-- What the decoder accepts: a legal code, whose pair the instruction has, with the word's argument. -/
theorem decode_ok {w : InstrWord} {i : Instr} (h : decode w = .ok i) :
    w.code = encodeCode i.opcode i.mode ∧ (i.mode ≠ .none → w.arg = i.arg) := by
  unfold decode at h
  split at h
  · rename_i o m ho hm
    split at h
    · rename_i j hj
      cases h
      obtain ⟨rfl, rfl, ha⟩ := Instr.make_eq_some hj
      exact ⟨(encodeCode_of_digits (Opcode.index_of_ofIndex ho) (Mode.index_of_ofIndex hm)).symm,
        fun hn => (ha hn).symm⟩
    · cases h
  · cases h

/-- An error of the decoder names the word's own code. -/
theorem decode_error_code {w : InstrWord} {c : BitVec 8} (h : decode w = .error (.illegalCode c)) :
    c = w.code ∧ legalCode w.code = false := by
  cases hl : legalCode w.code with
  | false =>
    rw [decode_error w hl] at h
    cases h
    exact ⟨rfl, rfl⟩
  | true =>
    unfold legalCode at hl
    unfold decode at h
    split at hl
    · rename_i o m ho hm
      rw [ho, hm] at h
      obtain ⟨j, hj⟩ := Option.isSome_iff_exists.1 ((Instr.make_isSome o m w.arg).trans hl)
      simp [hj] at h
    · cases hl

/-- The code of HLT is the one code that decodes to HLT (R64, R65). -/
theorem haltCode_iff (c : BitVec 8) : haltCode c = true ↔ c = 160 := by
  revert c
  decide

/-- The two fields of a word are the ones it was made of, the argument if it fits the width (R66). -/
theorem InstrWord.ofBits_toBits {width : Nat} (hw : 1 ≤ width) (w : InstrWord)
    (h : fitsWord width w.arg = true) : InstrWord.ofBits width (w.toBits width) = w := by
  obtain ⟨c, a⟩ := w
  have hc : (c ++ BitVec.ofInt width a : BitVec (8 + width)).extractLsb' width 8 = c := by
    apply BitVec.eq_of_getLsbD_eq
    intro k hk
    rw [BitVec.getLsbD_extractLsb']
    exact (congrArg _ (BitVec.getLsbD_append (x := c) (y := BitVec.ofInt width a))).trans (by simp [hk])
  have ha : (c ++ BitVec.ofInt width a : BitVec (8 + width)).extractLsb' 0 width = BitVec.ofInt width a := by
    apply BitVec.eq_of_getLsbD_eq
    intro k hk
    rw [BitVec.getLsbD_extractLsb', Nat.zero_add]
    exact (congrArg _ (BitVec.getLsbD_append (x := c) (y := BitVec.ofInt width a))).trans (by simp [hk])
  simp only [InstrWord.ofBits, InstrWord.toBits, hc, ha, BitVec.toInt_ofInt]
  exact congrArg _ (wrap_of_fitsWord hw h)

end Sys2Proof
end

