-- ==== Sys2Proof/Laws/DataPath.lean ====
section
/-! SUPPORT. The data path: what each action primitive can do, said once (31_control_word.md R93 to R107), and how a control word
applies them (R109). -/

namespace Sys2Proof.Machine

@[simp] theorem TickResult.andThen_done (s : State) (f : State → TickResult) :
    (TickResult.done s).andThen f = f s := rfl

@[simp] theorem TickResult.andThen_raised (c : Cause) (s : State) (f : State → TickResult) :
    (TickResult.raised c s).andThen f = .raised c s := rfl

theorem TickResult.andThen_eq_done {r : TickResult} {f : State → TickResult} {t : State} :
    r.andThen f = .done t ↔ ∃ s, r = .done s ∧ f s = .done t := by
  cases r <;> simp [TickResult.andThen]

theorem TickResult.andThen_eq_raised {r : TickResult} {f : State → TickResult} {c : Cause} {t : State} :
    r.andThen f = .raised c t ↔ r = .raised c t ∨ ∃ s, r = .done s ∧ f s = .raised c t := by
  cases r <;> simp [TickResult.andThen]

/-- A control word is its eleven action primitives in column order: the selects change nothing (R109, R89). -/
theorem applyWord_eq (m : Microcode) (w : ControlWord) (s : State) :
    applyWord m w s =
      ((((((((((primLatchIp w s).andThen (primLatchIr w)).andThen (primLatchAddr w)).andThen
        (primDoAlu w)).andThen (primLatchAcc w)).andThen (primOutput w)).andThen
        (primDataIn w)).andThen (primDataOut w)).andThen (primMicroLatchIp m w)).andThen
        (primPort1Out w)).andThen (primPort2Out w) := by
  have h : ∀ r : TickResult, r.andThen .done = r := fun r => by cases r <;> rfl
  simp [applyWord, Column.all, primitive, h]

/-- The state a tick result holds, whether the tick completed or raised. -/
def TickResult.state : TickResult → State
  | .done s => s
  | .raised _ s => s

/-- A property that every primitive keeps, raising or not, is kept by a control word. -/
theorem applyWord_induct (P : State → Prop) (m : Microcode) (w : ControlWord)
    (h : ∀ c s, P s → P (primitive m w c s).state) (s : State) (hs : P s) :
    P (applyWord m w s).state := by
  have key : ∀ (cs : List Column) (r : TickResult), P r.state →
      P (cs.foldl (fun r c => r.andThen (primitive m w c)) r).state := by
    intro cs
    induction cs with
    | nil => exact fun r hr => hr
    | cons c cs ih =>
      intro r hr
      refine ih _ ?_
      cases r with
      | done t => exact h c t hr
      | raised k t => exact hr
  exact key Column.all (.done s) hs

/-! Each primitive: everything it can do. -/

theorem primLatchIp_cases (w : ControlWord) (s : State) :
    (w.latchIp = false ∧ primLatchIp w s = .done s) ∨
    (w.latchIp = true ∧ inRange s.cfg.instrMemSize (ipMux w s) = true ∧
      primLatchIp w s = .done (s.setIp (ipMux w s))) ∨
    (w.latchIp = true ∧ inRange s.cfg.instrMemSize (ipMux w s) = false ∧
      primLatchIp w s = .raised (.instrAddrOutOfRange (ipMux w s)) s) := by
  unfold primLatchIp
  cases w.latchIp <;> cases inRange s.cfg.instrMemSize (ipMux w s) <;> simp

theorem primLatchIr_cases (w : ControlWord) (s : State) :
    (w.latchIr = false ∧ primLatchIr w s = .done s) ∨
    (w.latchIr = true ∧ s.ip ≥ (s.progLen : Int) ∧
      primLatchIr w s = .raised (.fetchOutsideProgram s.ip) s) ∨
    (w.latchIr = true ∧ s.ip < (s.progLen : Int) ∧ haltCode s.wireCode = true ∧
      primLatchIr w s = .raised .normalHalt (s.setIr s.wireCode)) ∨
    (w.latchIr = true ∧ s.ip < (s.progLen : Int) ∧ haltCode s.wireCode = false ∧
      primLatchIr w s = .done (s.setIr s.wireCode)) := by
  unfold primLatchIr
  cases w.latchIr
  · exact .inl ⟨rfl, rfl⟩
  · by_cases h1 : s.ip ≥ (s.progLen : Int)
    · exact .inr (.inl ⟨rfl, h1, by simp only [if_pos h1, if_true]⟩)
    · cases h2 : haltCode s.wireCode
      · exact .inr (.inr (.inr ⟨rfl, lt_of_not_ge h1, rfl, by simp only [if_neg h1, if_true]; rfl⟩))
      · exact .inr (.inr (.inl ⟨rfl, lt_of_not_ge h1, rfl, by simp only [if_neg h1, if_true]⟩))

theorem primLatchAddr_cases (w : ControlWord) (s : State) :
    (w.latchAddr = false ∧ primLatchAddr w s = .done s) ∨
    (w.latchAddr = true ∧ primLatchAddr w s = .done (s.setAr (addrMux w s))) := by
  unfold primLatchAddr
  cases w.latchAddr <;> simp

theorem primDoAlu_cases (w : ControlWord) (s : State) :
    (w.doAlu = false ∧ primDoAlu w s = .done s) ∨
    (w.doAlu = true ∧ aluInputQueue w = none ∧
      primDoAlu w s = .done (s.setAlu (alu s.cfg.width (opcodeOf s.ir) s.acc (aluOperandMux w s)))) ∨
    (w.doAlu = true ∧ ∃ q, aluInputQueue w = some q ∧ s.inQueue q = [] ∧
      primDoAlu w s = .raised (.bufferUnderrun q) s) ∨
    (w.doAlu = true ∧ ∃ q v rest, aluInputQueue w = some q ∧ s.inQueue q = v :: rest ∧
      primDoAlu w s =
        .done ((s.setInQueue q rest).setAlu (alu s.cfg.width (opcodeOf s.ir) s.acc v))) := by
  unfold primDoAlu State.popQueue
  cases w.doAlu
  · exact .inl ⟨rfl, rfl⟩
  · cases hq : aluInputQueue w with
    | none => exact .inr (.inl ⟨rfl, rfl, rfl⟩)
    | some q =>
      cases hl : s.inQueue q with
      | nil => exact .inr (.inr (.inl ⟨rfl, q, rfl, hl, by simp [hl]⟩))
      | cons v rest => exact .inr (.inr (.inr ⟨rfl, q, v, rest, rfl, hl, by simp [hl]⟩))

theorem primLatchAcc_cases (w : ControlWord) (s : State) :
    (w.latchAcc = false ∧ primLatchAcc w s = .done s) ∨
    (w.latchAcc = true ∧ primLatchAcc w s = .done s.commitAlu) := by
  unfold primLatchAcc
  cases w.latchAcc <;> simp

theorem primOutput_cases (w : ControlWord) (s : State) :
    (w.output = false ∧ primOutput w s = .done s) ∨
    (w.output = true ∧ primOutput w s = .done (s.appendOut .out0 s.acc)) := by
  unfold primOutput
  cases w.output <;> simp

theorem primDataIn_cases (w : ControlWord) (s : State) :
    (w.dataIn = false ∧ primDataIn w s = .done s) ∨
    (w.dataIn = true ∧ ∃ t, s.dmemRead s.ar = some t ∧ primDataIn w s = .done (s.setMdr t)) ∨
    (w.dataIn = true ∧ s.dmemRead s.ar = none ∧
      primDataIn w s = .raised (.dataAddrOutOfRange s.ar) s) := by
  unfold primDataIn
  cases w.dataIn <;> cases s.dmemRead s.ar <;> simp

theorem primDataOut_cases (w : ControlWord) (s : State) :
    (w.dataOut = false ∧ primDataOut w s = .done s) ∨
    (w.dataOut = true ∧ ∃ t, s.dmemWrite s.ar s.acc = some t ∧ primDataOut w s = .done t) ∨
    (w.dataOut = true ∧ s.dmemWrite s.ar s.acc = none ∧
      primDataOut w s = .raised (.dataAddrOutOfRange s.ar) s) := by
  unfold primDataOut
  cases w.dataOut <;> cases s.dmemWrite s.ar s.acc <;> simp

theorem primMicroLatchIp_cases (m : Microcode) (w : ControlWord) (s : State) :
    (w.microLatchIp = false ∧ primMicroLatchIp m w s = .done s) ∨
    (w.microLatchIp = true ∧ w.microSelIp = 0 ∧ s.mip + 1 < m.rom.length ∧
      primMicroLatchIp m w s = .done (s.setMip (s.mip + 1))) ∨
    (w.microLatchIp = true ∧ w.microSelIp = 0 ∧ ¬ s.mip + 1 < m.rom.length ∧
      primMicroLatchIp m w s = .raised (.microAddrOutOfRange (s.mip + 1)) s) ∨
    (w.microLatchIp = true ∧ w.microSelIp = 1 ∧ m.entry s.ir.toNat = none ∧
      primMicroLatchIp m w s = .raised (.decodeIndexMiss s.ir) s) ∨
    (w.microLatchIp = true ∧ w.microSelIp = 1 ∧ ∃ o, m.entry s.ir.toNat = some o ∧
      o < m.rom.length ∧ primMicroLatchIp m w s = .done (s.setMip o)) ∨
    (w.microLatchIp = true ∧ w.microSelIp = 1 ∧ ∃ o, m.entry s.ir.toNat = some o ∧
      ¬ o < m.rom.length ∧ primMicroLatchIp m w s = .raised (.microAddrOutOfRange o) s) ∨
    (w.microLatchIp = true ∧ w.microSelIp = 2 ∧ primMicroLatchIp m w s = .done s.boundary) ∨
    (w.microLatchIp = true ∧ w.microSelIp = 3 ∧
      primMicroLatchIp m w s = .raised (.reservedMicroSelect s.mip) s) := by
  unfold primMicroLatchIp
  cases w.microLatchIp
  · exact .inl ⟨rfl, rfl⟩
  · have h4 : ∀ b : BitVec 2, b = 0 ∨ b = 1 ∨ b = 2 ∨ b = 3 := by decide
    rcases h4 w.microSelIp with h | h | h | h
    · by_cases hl : s.mip + 1 < m.rom.length <;> simp [h, hl]
    · cases he : m.entry s.ir.toNat with
      | none => simp [h]
      | some o =>
        by_cases hl : o < m.rom.length
        · simp [h, hl]
        · simp [h, Nat.le_of_not_lt hl]
    · simp [h]
    · simp [h]

theorem primPort1Out_cases (w : ControlWord) (s : State) :
    (w.port1Out = false ∧ primPort1Out w s = .done s) ∨
    (w.port1Out = true ∧ primPort1Out w s = .done (s.appendOut .p1out s.acc)) := by
  unfold primPort1Out
  cases w.port1Out <;> simp

theorem primPort2Out_cases (w : ControlWord) (s : State) :
    (w.port2Out = false ∧ primPort2Out w s = .done s) ∨
    (w.port2Out = true ∧ primPort2Out w s = .done (s.appendOut .p2out s.acc)) := by
  unfold primPort2Out
  cases w.port2Out <;> simp

/-! The reference ROM (32_microcode_rom.md R125, R126). -/

theorem referenceMicrocode_rom_length : referenceMicrocode.rom.length = 69 := by decide

/-- A word of the ROM is its packed form through the control-word decoder (50_control_unit.md R222). -/
theorem referenceMicrocode_rom_getElem? (k : Nat) :
    referenceMicrocode.rom[k]? = (referencePacked[k]?).map ControlWord.unpack := by
  simp [referenceMicrocode]

/-- The entry offset of an instruction's block. -/
def entryOffset (i : Instr) : Nat := (referenceMicrocode.entry (encode i).code.toNat).getD 0

/-- Every instruction's code is a key of the decode index (32_microcode_rom.md R126, R127). -/
theorem referenceMicrocode_entry_encode (i : Instr) :
    referenceMicrocode.entry (encode i).code.toNat = some (entryOffset i) := by
  cases i <;> rfl

/-- A code that is no legal one is no key of the decode index (32_microcode_rom.md R127). -/
theorem referenceMicrocode_entry_illegal (c : BitVec 8) (h : legalCode c = false) :
    referenceMicrocode.entry c.toNat = none := by
  revert c
  decide

end Sys2Proof.Machine
end

