-- ==== Sys2Proof/Laws/Step.lean ====
section
/-! SUPPORT. Everything a fetch, a step and a tick can do, said once (31_control_word.md R95; 50_control_unit.md R221, R225,
R226, R229), and where a word placed for the fetch stands. -/

namespace Sys2Proof.Machine

/-- Everything a fetch can answer. -/
theorem State.fetch_cases (s : State) :
    (s.atCeiling = true ∧ s.fetch = .stop (s.stop .tickCeilingExceeded)) ∨
    (s.atCeiling = false ∧ s.ip ≥ (s.progLen : Int) ∧
      s.fetch = .stop (s.stop (.fetchOutsideProgram s.ip))) ∨
    (s.atCeiling = false ∧ s.ip < (s.progLen : Int) ∧
      ∃ i, decode (s.imemRead s.ip) = .ok i ∧ s.fetch = .instr i) ∨
    (s.atCeiling = false ∧ s.ip < (s.progLen : Int) ∧ legalCode s.wireCode = false ∧
      s.fetch = .stop ((s.setIr s.wireCode).stop (.decodeIndexMiss s.wireCode))) := by
  unfold State.fetch
  cases hc : s.atCeiling with
  | true => exact .inl ⟨rfl, rfl⟩
  | false =>
    refine .inr ?_
    by_cases hp : s.ip ≥ (s.progLen : Int)
    · exact .inl ⟨rfl, hp, by simp only [if_pos hp]; rfl⟩
    · refine .inr ?_
      have hlt := lt_of_not_ge hp
      cases hd : decode (s.imemRead s.ip) with
      | ok i => exact .inl ⟨rfl, hlt, i, rfl, by simp only [if_neg hp]; rfl⟩
      | error e =>
        obtain ⟨c⟩ := e
        obtain ⟨rfl, hl⟩ := decode_error_code hd
        exact .inr ⟨rfl, hlt, hl, by simp only [if_neg hp]; rfl⟩

/-- Everything a step can do. -/
theorem step_cases (s : State) :
    (∃ c, s.status = .stopped c ∧ step s = .next s) ∨
    (s.status = .running ∧ s.ipInRange = false ∧ step s = .fault .ipOutsideMemory) ∨
    (s.status = .running ∧ s.ipInRange = true ∧ s.mip = 0 ∧
      ∃ i, s.fetch = .instr i ∧ step s = exec i s) ∨
    (s.status = .running ∧ s.ipInRange = true ∧ s.mip = 0 ∧
      ∃ t, s.fetch = .stop t ∧ step s = .next t) ∨
    (s.status = .running ∧ s.ipInRange = true ∧ s.mip ≠ 0 ∧ step s = tick s) := by
  unfold step
  cases hs : s.status with
  | stopped c => simp
  | running =>
    cases hr : s.ipInRange with
    | false => simp
    | true =>
      by_cases hm : s.mip = 0
      · cases hf : s.fetch <;> simp [hm]
      · simp [hm]

/-- Everything a tick of a microcode can do. -/
theorem tickOf_cases (m : Microcode) (s : State) :
    (∃ c, s.status = .stopped c ∧ tickOf m s = .next s) ∨
    (s.status = .running ∧ s.ipInRange = false ∧ tickOf m s = .fault .ipOutsideMemory) ∨
    (s.status = .running ∧ s.ipInRange = true ∧ m.rom[s.mip]? = none ∧
      tickOf m s = .fault .mipOutsideRom) ∨
    (s.status = .running ∧ s.ipInRange = true ∧
      ∃ w, m.rom[s.mip]? = some w ∧ tickOf m s = .next (controlTick (applyWord m w) s)) := by
  unfold tickOf
  cases hs : s.status with
  | stopped c => simp
  | running =>
    cases hr : s.ipInRange with
    | false => simp
    | true => cases hw : m.rom[s.mip]? <;> simp

/-- The run loop of a stopped machine ends at once (R225). -/
theorem runWithin_stopped {m : Microcode} {s : State} {c : Cause} (h : s.status = .stopped c) (n : Nat) :
    runWithin m n s = some (.next s) := by cases n <;> simp [runWithin, h]

/-- A pass of the run loop is a tick (R225). -/
theorem runWithin_succ {m : Microcode} {s t : State} (h : tickOf m s = .next t) (n : Nat) :
    runWithin m (n + 1) s = runWithin m n t := by
  cases hs : s.status with
  | stopped c =>
    have hst : tickOf m s = .next s := by simp [tickOf, hs]
    rw [hst] at h
    cases h
    rw [runWithin_stopped hs, runWithin_stopped hs]
  | running => simp [runWithin, hs, h]

/-- Every meaning is a sequence of ticks that ends in a next state. -/
theorem exec_isNext (i : Instr) (s : State) :
    ∃ fs, fs.length = ticksOf i ∧ exec i s = .next (runTicks fs s) := by
  cases i <;> exact ⟨_, rfl, rfl⟩

/-- A word placed at an index is read there. -/
theorem getD_placeWord (ws : List InstrWord) (n : Nat) (w : InstrWord) :
    (placeWord ws n w).getD n InstrWord.zero = w := by
  induction n generalizing ws with
  | zero => cases ws <;> rfl
  | succ n ih => cases ws <;> exact ih _

/-- A program with a word placed in it reaches beyond the word. -/
theorem lt_length_placeWord (ws : List InstrWord) (n : Nat) (w : InstrWord) :
    n < (placeWord ws n w).length := by
  induction n generalizing ws with
  | zero => cases ws <;> simp [placeWord]
  | succ n ih =>
    cases ws with
    | nil => simpa [placeWord] using ih []
    | cons v ws => simpa [placeWord] using ih ws

/-- The word placed for the fetch is the one at `IP`. -/
theorem State.imemRead_placeAtIp (s : State) (w : InstrWord) :
    (s.placeAtIp w).imemRead (s.placeAtIp w).ip = w := getD_placeWord _ _ _

end Sys2Proof.Machine
end

