-- ==== Sys2Proof/Laws/Loader.lean ====
section
/-! SUPPORT. The loader: what each of its parts accepts and what it makes of it (20_memory.md R45, R46; 42_io.md R182), and the
memory of the reset state. -/

namespace Sys2Proof.Machine

/-- The memory of the reset state is in its canonical form. -/
theorem reset_dmem_wf : State.reset.dmem.wf = true := rfl

/-- What the queue builder and the loader accept as a word: a value that fits (R182; decision D23). -/
theorem wordOfInt_ok {w : Nat} {n v : Int} :
    wordOfInt w n = .ok v ↔ fitsWord w n = true ∧ v = n := by
  unfold wordOfInt
  cases fitsWord w n <;> simp [eq_comm]

/-- The queue builder takes the elements in order, each as it is, exactly when each fits (R182). -/
theorem wordsOfInts_ok {w : Nat} {ns vs : List Int} :
    wordsOfInts w ns = .ok vs ↔ vs = ns ∧ ns.all (fitsWord w) = true := by
  induction ns generalizing vs with
  | nil => simp [wordsOfInts, eq_comm]
  | cons n ns ih =>
    unfold wordsOfInts
    cases hn : wordOfInt w n with
    | error e =>
      have hf : fitsWord w n = false := by
        cases hf : fitsWord w n with
        | false => rfl
        | true => simp [wordOfInt, hf] at hn
      simp [hf]
    | ok v =>
      obtain ⟨hf, rfl⟩ := wordOfInt_ok.1 hn
      cases hs : wordsOfInts w ns with
      | error e =>
        have := fun hall => (ih (vs := ns)).2 ⟨rfl, hall⟩
        rw [hs] at this
        simp only [reduceCtorEq, imp_false, Bool.not_eq_true] at this
        simp [hf, this]
      | ok ws =>
        obtain ⟨rfl, hall⟩ := ih.1 hs
        simp [hf, hall, eq_comm]

/-- The cells of the data segment that `dataCells` makes of its entries, in order (R45). -/
theorem dataCells_ok {w : Nat} {es : List DataEntry} {cells : List Int} (h : dataCells w es = .ok cells) :
    cells = es.flatMap (fun e => e.init ++ List.replicate (e.size.toNat - e.init.length) 0) ∧
      ∀ v ∈ cells, fitsWord w v = true := by
  induction es generalizing cells with
  | nil =>
    cases h
    simp
  | cons e es ih =>
    unfold dataCells at h
    split at h
    · cases h
    · split at h
      · cases h
      · split at h
        · cases h
        · rename_i vs hv
          split at h
          · cases h
          · rename_i cs hc
            cases h
            obtain ⟨rfl, hcs⟩ := ih hc
            obtain ⟨rfl, hvs⟩ := wordsOfInts_ok.1 hv
            refine ⟨rfl, fun v hm => ?_⟩
            simp only [List.mem_append, List.mem_replicate] at hm
            rcases hm with (hm | ⟨-, rfl⟩) | hm
            · exact List.all_eq_true.1 hvs v hm
            · exact fitsWord_zero w
            · exact hcs v hm

/-- What `loadData` accepts: cells that fit data memory, laid out from 0 (R45). -/
theorem loadData_ok {cfg : Config} {data : List DataEntry} {m : Memory}
    (h : loadData cfg data = .ok m) :
    ∃ cells, dataCells cfg.width data = .ok cells ∧ cells.length ≤ cfg.dataMemSize ∧
      m = memoryOfCells 0 cells := by
  unfold loadData at h
  split at h
  · cases h
  · rename_i cells hc
    split at h
    · cases h
      exact ⟨cells, hc, ‹_›, rfl⟩
    · cases h

/-- What `loadCode` accepts: entries that each load, no more than instruction memory holds (R46). -/
theorem loadCode_ok {cfg : Config} {code : List CodeEntry} {ws : List InstrWord}
    (h : loadCode cfg code = .ok ws) :
    loadEntries cfg.width code = .ok ws ∧ ws.length ≤ cfg.instrMemSize := by
  unfold loadCode at h
  split at h
  · cases h
  · rename_i vs hv
    split at h
    · cases h
      exact ⟨hv, ‹_›⟩
    · cases h

/-- What `loadEntry` accepts: a legal pair by its two names, and an argument word; the word carries the pair's code (R46). -/
theorem loadEntry_ok {width : Nat} {e : CodeEntry} {w : InstrWord} (h : loadEntry width e = .ok w) :
    ∃ o m a, Opcode.ofName e.opcode = some o ∧ Mode.ofName e.addressType = some m ∧
      legalPair o m = true ∧ docArgWord width m e.arg = .ok a ∧ w = ⟨encodeCode o m, a⟩ := by
  unfold loadEntry at h
  split at h
  · cases h
  · cases h
  · rename_i o m ho hm
    split at h
    · split at h
      · cases h
      · rename_i a ha
        cases h
        exact ⟨o, m, a, ho, hm, ‹_›, ha, rfl⟩
    · cases h

/-- `loadEntries` makes one word of each entry, in order (R46). -/
theorem loadEntries_ok {width : Nat} {es : List CodeEntry} {ws : List InstrWord}
    (h : loadEntries width es = .ok ws) : List.Forall₂ (fun e w => loadEntry width e = .ok w) es ws := by
  induction es generalizing ws with
  | nil =>
    cases h
    exact .nil
  | cons e es ih =>
    unfold loadEntries at h
    split at h
    · cases h
    · rename_i w hw
      split at h
      · cases h
      · rename_i vs hv
        cases h
        exact .cons hw (ih hv)

/-- What the host's sequence before a run accepts, and what it makes (70_reset_and_hazards.md R280, R282). -/
theorem loadAndReset_ok {cfg : Config} {m : Microcode} {doc : ProgramDocument}
    {in0 p1in p2in : List Int} {p : Prepared} :
    loadAndReset cfg m doc in0 p1in p2in = .ok p ↔
      cfg.wellFormed = true ∧ m.wellFormed = true ∧ p.microcode = m ∧
      ∃ dmem imem, loadData cfg doc.data = .ok dmem ∧ loadCode cfg doc.code = .ok imem ∧
        in0.all (fitsWord cfg.width) = true ∧ p1in.all (fitsWord cfg.width) = true ∧
        p2in.all (fitsWord cfg.width) = true ∧
        p.state = State.resetWith cfg imem dmem in0 p1in p2in := by
  constructor
  · intro h
    unfold loadAndReset at h
    split at h
    · cases h
    · rename_i hc
      split at h
      · cases h
      · rename_i hm
        split at h
        · cases h
        · cases h
        · rename_i dmem imem hd hi
          split at h
          · cases h
          · cases h
          · cases h
          · rename_i q0 q1 q2 h0 h1 h2
            cases h
            obtain ⟨rfl, h0⟩ := wordsOfInts_ok.1 h0
            obtain ⟨rfl, h1⟩ := wordsOfInts_ok.1 h1
            obtain ⟨rfl, h2⟩ := wordsOfInts_ok.1 h2
            exact ⟨by simpa using hc, by simpa using hm, rfl, dmem, imem, hd, hi, h0, h1, h2, rfl⟩
  · obtain ⟨mc, s⟩ := p
    rintro ⟨hc, hm, rfl, dmem, imem, hd, hi, h0, h1, h2, rfl⟩
    have e0 := wordsOfInts_ok.2 ⟨rfl, h0⟩
    have e1 := wordsOfInts_ok.2 ⟨rfl, h1⟩
    have e2 := wordsOfInts_ok.2 ⟨rfl, h2⟩
    simp [loadAndReset, hc, hm, hd, hi, e0, e1, e2]

/-- What the host's whole sequence before a run accepts: the ROM it takes or builds, and the loading on it (R282). -/
theorem prepare_ok {cfg : Config} {rom : RomChoice} {doc : ProgramDocument} {in0 p1in p2in : List Int} {p : Prepared} :
    prepare cfg rom doc in0 p1in p2in = .ok p ↔
      cfg.wellFormed = true ∧ ∃ m, rom.microcode = .ok m ∧ loadAndReset cfg m doc in0 p1in p2in = .ok p := by
  unfold prepare
  cases cfg.wellFormed with
  | false => simp
  | true => cases rom.microcode <;> simp

end Sys2Proof.Machine
end

