-- ==== Sys2Proof/Laws/Microcode.lean ====
section
/-! SUPPORT. The microcode generator: what the look-up of names, the compilation of a set and the whole construction can do
(31_control_word.md R84, R87, R88). -/

namespace Sys2Proof.Machine

/-- Every name is in the vocabulary under its own spelling (R84). -/
@[simp] theorem Signal.ofName_name (n : Signal) : Signal.ofName n.name = some n := by cases n <;> decide

/-- A name that a string spells has that spelling. -/
theorem Signal.name_of_ofName {text : String} {n : Signal} (h : Signal.ofName text = some n) : n.name = text := by
  unfold Signal.ofName at h
  exact eq_of_beq (List.find?_some (p := fun n : Signal => n.name == text) h)

/-- A string spells no name exactly when it is nobody's spelling. -/
theorem Signal.ofName_eq_none {text : String} : Signal.ofName text = none ↔ ∀ n : Signal, n.name ≠ text := by
  constructor
  · rintro h n rfl
    rw [Signal.ofName_name] at h
    cases h
  · intro h
    cases hn : Signal.ofName text with
    | none => rfl
    | some n => exact absurd (Signal.name_of_ofName hn) (h n)

/-- Everything the look-up of a set's names can answer (R87, first line). -/
theorem lookupNames_cases (names : List String) :
    (∃ ns, lookupNames names = .ok ns ∧ names = ns.map Signal.name) ∨
    (∃ text ∈ names, Signal.ofName text = none ∧ lookupNames names = .error (.undefinedSignal text)) := by
  induction names with
  | nil => exact .inl ⟨[], rfl, rfl⟩
  | cons text rest ih =>
    unfold lookupNames
    cases hn : Signal.ofName text with
    | none => exact .inr ⟨text, List.mem_cons_self, hn, rfl⟩
    | some n =>
      rcases ih with ⟨ns, hl, hns⟩ | ⟨bad, hm, hb, hl⟩
      · exact .inl ⟨n :: ns, by simp [hl], by simp [hns, Signal.name_of_ofName hn]⟩
      · exact .inr ⟨bad, List.mem_cons_of_mem _ hm, hb, by simp [hl]⟩

/-- Names spelled out are looked up as they are. -/
@[simp] theorem lookupNames_map_name (ns : List Signal) : lookupNames (ns.map Signal.name) = .ok ns := by
  induction ns with
  | nil => rfl
  | cons n ns ih => simp [lookupNames, ih]

/-- The compilation of a set that is spelled out is that of its names. -/
@[simp] theorem compileNames_map_name (ns : List Signal) (previous : Option (List Nat)) :
    compileNames (ns.map Signal.name) previous = compile ns previous := by simp [compileNames]

/-- A set that compiles has names of the vocabulary only. -/
theorem compileNames_ok {names : List String} {previous : Option (List Nat)} {t : List Nat}
    (h : compileNames names previous = .ok t) : ∃ ns : List Signal, names = ns.map Signal.name ∧ compile ns previous = .ok t := by
  rcases lookupNames_cases names with ⟨ns, hl, rfl⟩ | ⟨text, -, -, hl⟩
  · exact ⟨ns, rfl, by simpa using h⟩
  · simp [compileNames, hl] at h

/-- A block that is emitted has compiled each of its sets. -/
theorem emitBlock_ok {block : List (List String)} {table t : List (List Nat)} (h : emitBlock block table = .ok t) :
    ∀ names ∈ block, ∃ ns : List Signal, names = ns.map Signal.name := by
  induction block generalizing table with
  | nil => simp
  | cons names rest ih =>
    unfold emitBlock at h
    split at h
    · cases h
    · rename_i w hw
      obtain ⟨ns, hns, -⟩ := compileNames_ok hw
      exact List.forall_mem_cons.2 ⟨⟨ns, hns⟩, ih h⟩

/-- Pairs that are emitted have emitted the block of each. -/
theorem emitPairs_ok {src : MicroSource} {pairs : List (Opcode × Mode)} {table : List (List Nat)} {index : List (Nat × Nat)}
    {r : List (List Nat) × List (Nat × Nat)} (h : emitPairs src pairs table index = .ok r) :
    ∀ p ∈ pairs, ∀ names ∈ src.mode p.2 ++ src.opcode p.1, ∃ ns : List Signal, names = ns.map Signal.name := by
  induction pairs generalizing table index with
  | nil => simp
  | cons p rest ih =>
    unfold emitPairs at h
    split at h
    · cases h
    · rename_i t ht
      exact List.forall_mem_cons.2 ⟨emitBlock_ok ht, ih h⟩

/-- The pairs that the construction visits are the legal ones (R88). -/
theorem mem_legalPairs (o : Opcode) (m : Mode) : (o, m) ∈ legalPairs ↔ legalPair o m = true := by
  cases o <;> cases m <;> decide

/-- A source that is built is written in the vocabulary: its bootstrap block and the programs of every legal pair (R88). -/
theorem MicroSource.build_ok {src : MicroSource} {m : Microcode} (h : src.build = .ok m) :
    (∀ names ∈ src.boot, ∃ ns : List Signal, names = ns.map Signal.name) ∧
    ∀ p ∈ legalPairs, ∀ names ∈ src.mode p.2 ++ src.opcode p.1, ∃ ns : List Signal, names = ns.map Signal.name := by
  unfold MicroSource.build at h
  split at h
  · cases h
  · rename_i boot hb
    split at h
    · cases h
    · rename_i table index hp
      exact ⟨emitBlock_ok hb, emitPairs_ok hp⟩

end Sys2Proof.Machine
end

