-- ==== Sys2Proof/Laws/PerInstr.lean ====
section
/-! SUPPORT. Statements about every instruction as syntax, one lemma per constructor. -/

namespace Sys2Proof.Laws

/-- An instruction is what its pair and its argument make (30_encoding.md R64), it is well formed at a width exactly when its
argument fits (R63, R66), and the digits of its code are the indices of the pair (R62). -/
def EncodesItself.Statement (i : Instr) : Prop :=
  Instr.make i.opcode i.mode i.arg = some i ∧ (∀ w, i.wellFormed w = fitsWord w i.arg) ∧
    opcodeOf (encode i).code = i.opcode.index ∧ modeOf (encode i).code = i.mode.index

theorem EncodesItself.inc : EncodesItself.Statement .inc :=
  ⟨rfl, fun _ => rfl, opcodeOf_encodeCode _ _, modeOf_encodeCode _ _⟩

theorem EncodesItself.dec : EncodesItself.Statement .dec :=
  ⟨rfl, fun _ => rfl, opcodeOf_encodeCode _ _, modeOf_encodeCode _ _⟩

theorem EncodesItself.cls : EncodesItself.Statement .cls :=
  ⟨rfl, fun _ => rfl, opcodeOf_encodeCode _ _, modeOf_encodeCode _ _⟩

theorem EncodesItself.neg : EncodesItself.Statement .neg :=
  ⟨rfl, fun _ => rfl, opcodeOf_encodeCode _ _, modeOf_encodeCode _ _⟩

theorem EncodesItself.addDirect (arg : Int) : EncodesItself.Statement (.addDirect arg) :=
  ⟨rfl, fun _ => rfl, opcodeOf_encodeCode _ _, modeOf_encodeCode _ _⟩

theorem EncodesItself.addLabelAddr (arg : Int) : EncodesItself.Statement (.addLabelAddr arg) :=
  ⟨rfl, fun _ => rfl, opcodeOf_encodeCode _ _, modeOf_encodeCode _ _⟩

theorem EncodesItself.addLabelValue (arg : Int) : EncodesItself.Statement (.addLabelValue arg) :=
  ⟨rfl, fun _ => rfl, opcodeOf_encodeCode _ _, modeOf_encodeCode _ _⟩

theorem EncodesItself.addIndirect (arg : Int) : EncodesItself.Statement (.addIndirect arg) :=
  ⟨rfl, fun _ => rfl, opcodeOf_encodeCode _ _, modeOf_encodeCode _ _⟩

theorem EncodesItself.subDirect (arg : Int) : EncodesItself.Statement (.subDirect arg) :=
  ⟨rfl, fun _ => rfl, opcodeOf_encodeCode _ _, modeOf_encodeCode _ _⟩

theorem EncodesItself.subLabelAddr (arg : Int) : EncodesItself.Statement (.subLabelAddr arg) :=
  ⟨rfl, fun _ => rfl, opcodeOf_encodeCode _ _, modeOf_encodeCode _ _⟩

theorem EncodesItself.subLabelValue (arg : Int) : EncodesItself.Statement (.subLabelValue arg) :=
  ⟨rfl, fun _ => rfl, opcodeOf_encodeCode _ _, modeOf_encodeCode _ _⟩

theorem EncodesItself.subIndirect (arg : Int) : EncodesItself.Statement (.subIndirect arg) :=
  ⟨rfl, fun _ => rfl, opcodeOf_encodeCode _ _, modeOf_encodeCode _ _⟩

theorem EncodesItself.loadDirect (arg : Int) : EncodesItself.Statement (.loadDirect arg) :=
  ⟨rfl, fun _ => rfl, opcodeOf_encodeCode _ _, modeOf_encodeCode _ _⟩

theorem EncodesItself.loadLabelAddr (arg : Int) : EncodesItself.Statement (.loadLabelAddr arg) :=
  ⟨rfl, fun _ => rfl, opcodeOf_encodeCode _ _, modeOf_encodeCode _ _⟩

theorem EncodesItself.loadLabelValue (arg : Int) : EncodesItself.Statement (.loadLabelValue arg) :=
  ⟨rfl, fun _ => rfl, opcodeOf_encodeCode _ _, modeOf_encodeCode _ _⟩

theorem EncodesItself.loadIndirect (arg : Int) : EncodesItself.Statement (.loadIndirect arg) :=
  ⟨rfl, fun _ => rfl, opcodeOf_encodeCode _ _, modeOf_encodeCode _ _⟩

theorem EncodesItself.storeDirect (arg : Int) : EncodesItself.Statement (.storeDirect arg) :=
  ⟨rfl, fun _ => rfl, opcodeOf_encodeCode _ _, modeOf_encodeCode _ _⟩

theorem EncodesItself.storeLabelAddr (arg : Int) : EncodesItself.Statement (.storeLabelAddr arg) :=
  ⟨rfl, fun _ => rfl, opcodeOf_encodeCode _ _, modeOf_encodeCode _ _⟩

theorem EncodesItself.storeIndirect (arg : Int) : EncodesItself.Statement (.storeIndirect arg) :=
  ⟨rfl, fun _ => rfl, opcodeOf_encodeCode _ _, modeOf_encodeCode _ _⟩

theorem EncodesItself.input : EncodesItself.Statement .input :=
  ⟨rfl, fun _ => rfl, opcodeOf_encodeCode _ _, modeOf_encodeCode _ _⟩

theorem EncodesItself.output : EncodesItself.Statement .output :=
  ⟨rfl, fun _ => rfl, opcodeOf_encodeCode _ _, modeOf_encodeCode _ _⟩

theorem EncodesItself.port1In : EncodesItself.Statement .port1In :=
  ⟨rfl, fun _ => rfl, opcodeOf_encodeCode _ _, modeOf_encodeCode _ _⟩

theorem EncodesItself.port1Out : EncodesItself.Statement .port1Out :=
  ⟨rfl, fun _ => rfl, opcodeOf_encodeCode _ _, modeOf_encodeCode _ _⟩

theorem EncodesItself.port2In : EncodesItself.Statement .port2In :=
  ⟨rfl, fun _ => rfl, opcodeOf_encodeCode _ _, modeOf_encodeCode _ _⟩

theorem EncodesItself.port2Out : EncodesItself.Statement .port2Out :=
  ⟨rfl, fun _ => rfl, opcodeOf_encodeCode _ _, modeOf_encodeCode _ _⟩

theorem EncodesItself.jmpLabelValue (arg : Int) : EncodesItself.Statement (.jmpLabelValue arg) :=
  ⟨rfl, fun _ => rfl, opcodeOf_encodeCode _ _, modeOf_encodeCode _ _⟩

theorem EncodesItself.jmpzLabelValue (arg : Int) : EncodesItself.Statement (.jmpzLabelValue arg) :=
  ⟨rfl, fun _ => rfl, opcodeOf_encodeCode _ _, modeOf_encodeCode _ _⟩

theorem EncodesItself.hlt : EncodesItself.Statement .hlt :=
  ⟨rfl, fun _ => rfl, opcodeOf_encodeCode _ _, modeOf_encodeCode _ _⟩

end Sys2Proof.Laws
end

