-- ==== Sys2Proof/Tests/Slice0.lean ====
section
/-! SUPPORT. Tests: ill-formed terms that the checks refuse, the written-out word of every instruction, small one-step tests with
the spec's own expected results (95_test_vectors.md), and for every obligation with hypotheses a concrete case that meets them. -/

namespace Sys2Proof.Tests

open Sys2Proof Sys2Proof.Machine

/-- The next state of an outcome. -/
def nextOf (o : Host.Outcome State Fault Refusal) : Option State :=
  match o with
  | .next t => some t
  | _ => none

/-- The parameters of 95_test_vectors.md. -/
def params : Config := { width := 32, dataMemSize := 64, instrMemSize := 64, tickLimit := some 50000 }

/-- A state at an instruction boundary of those parameters, with an accumulator and data cells. -/
def at0 (acc : Int) (cells : List Int) : State :=
  { State.resetWith params [] (memoryOfCells 0 cells) [] [] [] with
    acc, z := decide (acc = 0) }

/-- `ACC` and `Z` after an instruction. -/
def accZ (i : Instr) (s : State) : Option (Int × Bool) :=
  (nextOf (exec i s)).map (fun t => (t.acc, t.z))

/-- `AR`, `MDR` and `TICKS` after an instruction. -/
def path (i : Instr) (s : State) : Option (Int × Int × Nat) :=
  (nextOf (exec i s)).map (fun t => (t.ar, t.mdr, t.ticks))

/-! ## Ill-formed terms are refused -/

theorem test_wf_store_label_value : legalPair .store .labelValue = false := by decide
theorem test_wf_inc_direct : legalPair .inc .direct = false := by decide
theorem test_wf_jmp_direct : legalPair .jmp .direct = false := by decide
theorem test_wf_pairs_are_28 : legalPairs.length = 28 := by decide
theorem test_wf_config_no_data : ({ params with dataMemSize := 0 } : Config).wellFormed = false := by decide
theorem test_wf_config_no_code : ({ params with instrMemSize := 0 } : Config).wellFormed = false := by decide
theorem test_wf_config_data_too_big :
    ({ params with dataMemSize := 2 ^ 31 + 1 } : Config).wellFormed = false := by decide
theorem test_wf_config_code_too_big :
    ({ params with instrMemSize := 2 ^ 31 + 1 } : Config).wellFormed = false := by decide
theorem test_wf_config_largest :
    ({ params with dataMemSize := 2 ^ 31, instrMemSize := 2 ^ 31 } : Config).wellFormed = true := by decide
/-- R6: `W >= 8`, and the sizes are at most `2^(W-1)`. -/
theorem test_wf_config_width :
    ({ width := 7, dataMemSize := 1, instrMemSize := 1, tickLimit := none } : Config).wellFormed = false ∧
    ({ width := 8, dataMemSize := 128, instrMemSize := 128, tickLimit := none } : Config).wellFormed = true ∧
    ({ width := 8, dataMemSize := 129, instrMemSize := 1, tickLimit := none } : Config).wellFormed = false := by decide
/-- R66: an argument that is no word of the run's width. -/
theorem test_wf_argument_too_wide :
    (Instr.loadDirect 2147483648).wellFormed 32 = false ∧ (Instr.loadDirect 2147483647).wellFormed 32 = true ∧
    (Instr.jmpLabelValue (-129)).wellFormed 8 = false ∧ (Instr.jmpLabelValue (-128)).wellFormed 8 = true := by decide
theorem test_wf_word_too_big : fitsWord 32 2147483648 = false ∧ fitsWord 32 2147483647 = true := by decide
theorem test_wf_word_too_small : fitsWord 32 (-2147483649) = false ∧ fitsWord 32 (-2147483648) = true := by
  decide
/-- 95_test_vectors.md section 3: column 13 = 3 is ill-formed. -/
theorem test_wf_reserved_select : (ControlWord.unpack 0x1C000).wellFormed = false := by decide
theorem test_wf_rom_with_reserved_select :
    (Microcode.mk [ControlWord.unpack 0x1C000] []).wellFormed = false := by decide
theorem test_wf_empty_rom : (Microcode.mk [] []).wellFormed = false := by decide
theorem test_wf_offset_beyond_rom :
    (Microcode.mk [ControlWord.unpack 0] [(0, 2)]).wellFormed = false ∧
      (Microcode.mk [ControlWord.unpack 0] [(0, 1)]).wellFormed = true := by decide
theorem test_wf_short_tuple : ControlWord.ofTuple (List.replicate 16 0) = none := by decide
theorem test_wf_tuple_value : ControlWord.ofTuple (2 :: List.replicate 16 0) = none := by decide
theorem test_wf_memory_order : Memory.wf [(2, 1), (1, 1)] = false ∧ Memory.wf [(1, 1), (1, 1)] = false := by
  decide
theorem test_wf_memory_zero_cell : Memory.wf [(1, 0)] = false := by decide

/-! ## Every instruction's word, written out (95_test_vectors.md 2.1, 2.2) -/

theorem test_word_inc : decodeTableWord 40 0x0000000000 = some .inc := by decide
theorem test_word_dec : decodeTableWord 40 0x0A00000000 = some .dec := by decide
theorem test_word_cls : decodeTableWord 40 0x1400000000 = some .cls := by decide
theorem test_word_neg : decodeTableWord 40 0x1E00000000 = some .neg := by decide
theorem test_word_add_direct : decodeTableWord 40 0x2980000000 = some (.addDirect (-2147483648)) := by decide
theorem test_word_add_labeladdr : decodeTableWord 40 0x2AFFFFFFFF = some (.addLabelAddr (-1)) := by decide
theorem test_word_add_labelvalue : decodeTableWord 40 0x2B00000005 = some (.addLabelValue 5) := by decide
theorem test_word_add_indirect : decodeTableWord 40 0x2C00000001 = some (.addIndirect 1) := by decide
theorem test_word_sub_direct : decodeTableWord 40 0x3300000003 = some (.subDirect 3) := by decide
theorem test_word_sub_labeladdr : decodeTableWord 40 0x347FFFFFFF = some (.subLabelAddr 2147483647) := by decide
theorem test_word_sub_labelvalue : decodeTableWord 40 0x3580000000 = some (.subLabelValue (-2147483648)) := by decide
theorem test_word_sub_indirect : decodeTableWord 40 0x36FFFFFFFF = some (.subIndirect (-1)) := by decide
theorem test_word_load_direct : decodeTableWord 40 0x3D00000005 = some (.loadDirect 5) := by decide
theorem test_word_load_labeladdr : decodeTableWord 40 0x3E00000001 = some (.loadLabelAddr 1) := by decide
theorem test_word_load_labelvalue : decodeTableWord 40 0x3F00000003 = some (.loadLabelValue 3) := by decide
theorem test_word_load_indirect : decodeTableWord 40 0x407FFFFFFF = some (.loadIndirect 2147483647) := by decide
theorem test_word_store_direct : decodeTableWord 40 0x4780000000 = some (.storeDirect (-2147483648)) := by decide
theorem test_word_store_labeladdr : decodeTableWord 40 0x48FFFFFFFF = some (.storeLabelAddr (-1)) := by decide
theorem test_word_store_indirect : decodeTableWord 40 0x4A00000005 = some (.storeIndirect 5) := by decide
theorem test_word_input : decodeTableWord 40 0x5000000000 = some .input := by decide
theorem test_word_output : decodeTableWord 40 0x5A00000000 = some .output := by decide
theorem test_word_port1_in : decodeTableWord 40 0x6400000000 = some .port1In := by decide
theorem test_word_port1_out : decodeTableWord 40 0x6E00000000 = some .port1Out := by decide
theorem test_word_port2_in : decodeTableWord 40 0x7800000000 = some .port2In := by decide
theorem test_word_port2_out : decodeTableWord 40 0x8200000000 = some .port2Out := by decide
theorem test_word_jmp : decodeTableWord 40 0x8F00000001 = some (.jmpLabelValue 1) := by decide
theorem test_word_jmpz : decodeTableWord 40 0x9900000003 = some (.jmpzLabelValue 3) := by decide
theorem test_word_hlt : decodeTableWord 40 0xA000000000 = some .hlt := by decide
/-- A mode `NONE` instruction ignores its argument (2.2). -/
theorem test_word_inc_argument : decodeTableWord 40 0x000000004D = some .inc := by decide
theorem test_word_illegal_5 : decodeTableWord 40 0x0500000000 = none := by decide
theorem test_word_illegal_73 : decodeTableWord 40 0x4900000000 = none := by decide
theorem test_word_illegal_161 : decodeTableWord 40 0xA100000000 = none := by decide
theorem test_word_illegal_170 :
    decode ⟨170, 0⟩ = .error (.illegalCode 170) := by decide
/-- The least argument (2.2). -/
theorem test_encode_least_argument :
    (encode (.loadLabelValue (-2147483648))).toBits 32 = 0x3F80000000 := by decide

/-- R66 at `W = 8`: a word of 16 bits. -/
theorem test_word_at_width_8 :
    decode (InstrWord.ofBits 8 0x3FFF#16) = .ok (.loadLabelValue (-1)) ∧
    (encode (.storeDirect (-128))).toBits 8 = 0x4780#16 := by decide

/-! ## Arithmetic (section 4) -/

/-- Section 4, the corners at `W = 8`. -/
theorem test_alu_at_width_8 : alu 8 0 0 127 = -128 ∧ alu 8 3 0 (-128) = -128 ∧ alu 8 1 0 (-128) = 127 := by decide

theorem test_inc_overflows : accZ .inc (at0 2147483647 []) = some (-2147483648, false) := by decide
theorem test_dec_to_zero : accZ .dec (at0 1 []) = some (0, true) := by decide
theorem test_dec_overflows : accZ .dec (at0 (-2147483648) []) = some (2147483647, false) := by decide
theorem test_cls : accZ .cls (at0 12345 []) = some (0, true) := by decide
theorem test_neg : accZ .neg (at0 5 []) = some (-5, false) := by decide
theorem test_neg_least : accZ .neg (at0 (-2147483648) []) = some (-2147483648, false) := by decide
theorem test_add_direct : accZ (.addDirect 1) (at0 5 [0, 7]) = some (12, false) := by decide
theorem test_add_direct_path : path (.addDirect 1) (at0 5 [0, 7]) = some (1, 7, 4) := by decide
theorem test_add_label_addr : accZ (.addLabelAddr 0) (at0 (-2147483648) [-2147483648]) = some (0, true) := by
  decide
theorem test_add_label_value :
    accZ (.addLabelValue 2147483647) (at0 2147483647 []) = some (-2, false) := by decide
theorem test_add_label_value_path : path (.addLabelValue 3) (at0 5 []) = some (0, 0, 3) := by decide
theorem test_add_indirect : accZ (.addIndirect 3) (at0 5 [11, 22, 33, 1]) = some (27, false) := by decide
theorem test_add_indirect_path : path (.addIndirect 3) (at0 5 [11, 22, 33, 1]) = some (1, 22, 5) := by
  decide
theorem test_sub_direct : accZ (.subDirect 1) (at0 5 [0, 7]) = some (-2, false) := by decide
theorem test_sub_label_addr : accZ (.subLabelAddr 1) (at0 7 [0, 7]) = some (0, true) := by decide
theorem test_sub_label_value :
    accZ (.subLabelValue (-2147483648)) (at0 (-2) []) = some (2147483646, false) := by decide
/-- Vector M5: 40 minus the cell that cell 1 points to. -/
theorem test_sub_indirect : accZ (.subIndirect 1) (at0 40 [40, 2, 15]) = some (25, false) := by decide
theorem test_sub_indirect_path : path (.subIndirect 1) (at0 40 [40, 2, 15]) = some (2, 15, 5) := by decide

/-! ## Memory (section 5, vectors M1 to M4) -/

theorem test_load_direct : accZ (.loadDirect 0) (at0 9 [11, 22, 33, 1]) = some (11, false) := by decide
theorem test_load_label_addr : accZ (.loadLabelAddr 1) (at0 9 [11, 22, 33, 1]) = some (22, false) := by
  decide
theorem test_load_label_value : accZ (.loadLabelValue 2) (at0 9 [11, 22, 33, 1]) = some (2, false) := by
  decide
theorem test_load_indirect : accZ (.loadIndirect 3) (at0 9 [11, 22, 33, 1]) = some (22, false) := by decide
theorem test_store_direct :
    (nextOf (exec (.storeDirect 1) (at0 0 [9, 9]))).map (fun t => (t.dmem, t.mdr, t.z)) =
      some ([(0, 9)], 9, true) := by decide
theorem test_store_label_addr :
    (nextOf (exec (.storeLabelAddr 63) (at0 7 []))).map (fun t => (t.dmem, t.ar, t.acc)) =
      some ([(63, 7)], 63, 7) := by decide
theorem test_store_indirect :
    (nextOf (exec (.storeIndirect 2) (at0 7 [0, 0, 2]))).map (fun t => (t.dmem, t.ar, t.mdr)) =
      some ([(2, 7)], 2, 2) := by decide

/-! ## Input and output (section 6) -/

/-- The queues and outputs of a state. -/
def queues (s : State) : List (List Int) := [s.in0, s.p1in, s.p2in, s.out0, s.p1out, s.p2out]

/-- Vector IO3's queues. -/
def io3 : State := { at0 4 [] with in0 := [1, 9], p1in := [2], p2in := [3] }

theorem test_input : (nextOf (exec .input io3)).map (fun t => (t.acc, queues t)) =
    some (1, [[9], [2], [3], [], [], []]) := by decide
theorem test_port1_in : (nextOf (exec .port1In io3)).map (fun t => (t.acc, queues t)) =
    some (2, [[1, 9], [], [3], [], [], []]) := by decide
theorem test_port2_in : (nextOf (exec .port2In io3)).map (fun t => (t.acc, queues t)) =
    some (3, [[1, 9], [2], [], [], [], []]) := by decide
theorem test_output : (nextOf (exec .output io3)).map queues =
    some [[1, 9], [2], [3], [4], [], []] := by decide
theorem test_output_appends : (nextOf (exec .output { io3 with out0 := [7, 8] })).map (fun t => t.out0) =
    some [7, 8, 4] := by decide
theorem test_port1_out : (nextOf (exec .port1Out io3)).map queues =
    some [[1, 9], [2], [3], [], [4], []] := by decide
theorem test_port2_out : (nextOf (exec .port2Out io3)).map queues =
    some [[1, 9], [2], [3], [], [], [4]] := by decide

/-! ## Control and events (section 7, section 1) -/

/-- What an instruction's stop leaves: the status, `TICKS`, `ICOUNT`, `IP`, `IR`, `MIP`, `AR`. -/
def stop (i : Instr) (s : State) : Option ((Status × Nat × Nat) × Int × BitVec 8 × Nat × Int) :=
  (nextOf (exec i s)).map (fun t => ((t.status, t.ticks, t.icount), t.ip, t.ir, t.mip, t.ar))

theorem test_jmp : stop (.jmpLabelValue 2) (at0 0 []) = some ((.running, 2, 2), 2, 143, 0, 0) := by decide
theorem test_jmpz_taken : stop (.jmpzLabelValue 4) { at0 0 [] with ip := 1 } =
    some ((.running, 2, 2), 4, 153, 0, 0) := by decide
theorem test_jmpz_not_taken : stop (.jmpzLabelValue 999) { at0 1 [] with ip := 1 } =
    some ((.running, 2, 2), 2, 153, 0, 0) := by decide
theorem test_s4_hlt : stop .hlt (at0 0 []) = some ((.stopped .normalHalt, 0, 1), 0, 160, 0, 0) := by decide
theorem test_s6_underrun : stop .input (at0 0 []) =
    some ((.stopped (.bufferUnderrun .in0), 1, 1), 0, 80, 55, 0) := by decide
theorem test_f2_load : stop (.loadDirect 64) (at0 0 []) =
    some ((.stopped (.dataAddrOutOfRange 64), 1, 1), 0, 61, 33, 64) := by decide
theorem test_f3_store : stop (.storeIndirect 0) (at0 0 [-1]) =
    some ((.stopped (.dataAddrOutOfRange (-1)), 2, 1), 0, 74, 52, -1) := by decide
theorem test_f4_jmp : stop (.jmpLabelValue 64) (at0 0 []) =
    some ((.stopped (.instrAddrOutOfRange 64), 1, 1), 0, 143, 67, 0) := by decide
theorem test_t2_ceiling : stop .inc { at0 0 [] with cfg := { params with tickLimit := some 2 } } =
    some ((.stopped .tickCeilingExceeded, 2, 1), 0, 0, 2, 0) := by decide
theorem test_t4_ceiling : stop .hlt { at0 0 [] with cfg := { params with tickLimit := some 0 } } =
    some ((.stopped .tickCeilingExceeded, 0, 1), 0, 0, 0, 0) := by decide

/-! ## Steps and ticks (sections 2.2, 3 and 7) -/

/-- The reset state of a program. -/
def loaded (prog : List InstrWord) : State := State.resetWith params prog [] [] [] []

/-- What the step leaves: the status, `IR`, `TICKS`. -/
def stepEnd (s : State) : Option (Status × BitVec 8 × Nat) :=
  (nextOf (step s)).map (fun t => (t.status, t.ir, t.ticks))

theorem test_step_inc : stepEnd (loaded [⟨0, 77⟩]) = some (.running, 0, 3) := by decide
theorem test_step_illegal_code : stepEnd (loaded [⟨5, 0⟩]) =
    some (.stopped (.decodeIndexMiss 5), 5, 0) := by decide
theorem test_step_code_170 : stepEnd (loaded [⟨170, 0⟩]) =
    some (.stopped (.decodeIndexMiss 170), 170, 0) := by decide
/-- R65: the quotient of 161 is HLT's, the code is illegal (log 12); the tick agrees with the step. -/
theorem test_step_code_161 : stepEnd (loaded [⟨161, 0⟩]) = some (.stopped (.decodeIndexMiss 161), 161, 0) ∧
    nextOf (tick (loaded [⟨161, 0⟩])) = nextOf (step (loaded [⟨161, 0⟩])) := by decide
theorem test_f7_empty_program : stepEnd (loaded []) =
    some (.stopped (.fetchOutsideProgram 0), 0, 0) := by decide
theorem test_step_placed_word : stepEnd (State.reset.withFetchWord 40 0x0A00000000) =
    some (.running, 10, 3) := by decide

/-- A state in the middle of a micro-program. -/
def mid (mip : Nat) (ir : BitVec 8) : State := { at0 5 [0, 0, 0, -5, 0, 65] with mip, ir, ticks := 1 }

/-- One tick. -/
def tickEnd (s : State) : Option State := nextOf (tick s)

theorem test_tick_fetch :
    (tickEnd { loaded [⟨0, 0⟩, ⟨61, 5⟩] with ip := 1 }).map (fun t => (t.ir, t.mip, t.ticks)) =
      some (61, 33, 1) := by decide
theorem test_tick_mode_word_1 :
    (tickEnd { mid 33 61 with imem := [⟨61, 5⟩] }).map (fun t => (t.ar, t.mdr, t.opr, t.mip)) =
      some (5, 65, 65, 34) := by decide
theorem test_tick_mode_word_2 :
    (tickEnd { mid 42 64 with mdr := 3 }).map (fun t => (t.ar, t.mdr, t.opr, t.mip)) =
      some (3, -5, -5, 43) := by decide
theorem test_tick_alu_word :
    (tickEnd { mid 22 51 with opr := 7 }).map (fun t => (t.aluOut, t.acc, t.z, t.mip)) =
      some (-2, -2, false, 23) := by decide
theorem test_tick_next :
    (tickEnd { mid 23 51 with ip := 4, icount := 5, imem := List.replicate 5 ⟨0, 0⟩ ++ [⟨43, 9⟩] }).map
        (fun t => (t.ip, t.opr, t.mip, t.icount)) = some (5, 9, 0, 6) := by decide
theorem test_tick_write :
    (tickEnd { mid 53 74 with ar := 3, acc := -7 }).map
        (fun t => (t.dmem.read 3, t.mip)) = some (-7, 54) := by decide
/-- "no advance": the word without `MICRO_LATCH_IP` changes nothing but `TICKS`. -/
theorem test_tick_no_advance :
    nextOf (tickOf ⟨[ControlWord.unpack 0], []⟩ (at0 5 [])) = some { at0 5 [] with ticks := 1 } := by
  decide
/-- The one-word ROM `[0x10000]` of section 7. -/
theorem test_tick_micro_addr_out_of_range :
    (nextOf (tickOf ⟨[ControlWord.unpack 0x10000], []⟩ (at0 5 []))).map (fun t => (t.status, t.ticks)) =
      some (.stopped (.microAddrOutOfRange 1), 0) := by decide
theorem test_tick_reserved_select :
    (nextOf (tickOf ⟨[ControlWord.unpack 0x1C000], []⟩ (at0 5 []))).map (fun t => t.status) =
      some (.stopped (.reservedMicroSelect 0)) := by decide

/-! ## Control words and the generator (section 3) -/

theorem test_pack_boot : (ControlWord.ofTuple [0, 0, 0, 1, 0, 0, 0, 0, 0, 0, 0, 0, 0, 1, 1, 0, 0]).map
    ControlWord.pack = some 0x14008 := by decide
theorem test_pack_next : (ControlWord.ofTuple [0, 0, 1, 0, 0, 0, 0, 0, 0, 0, 0, 0, 0, 2, 1, 0, 0]).map
    ControlWord.pack = some 0x18004 := by decide
theorem test_pack_port2_in : (ControlWord.ofTuple [0, 0, 0, 0, 0, 0, 0, 3, 1, 1, 0, 0, 0, 0, 1, 0, 0]).map
    ControlWord.pack = some 0x10780 := by decide
theorem test_pack_port2_out : (ControlWord.ofTuple [0, 0, 0, 0, 0, 0, 0, 0, 0, 0, 0, 0, 0, 0, 1, 0, 1]).map
    ControlWord.pack = some 0x50000 := by decide
theorem test_unpack_jmpz : (ControlWord.unpack 0x18007).toTuple =
    [1, 1, 1, 0, 0, 0, 0, 0, 0, 0, 0, 0, 0, 2, 1, 0, 0] := by decide
theorem test_compile_override : compileNames ["LATCH_IP", "MICRO_RESET_IP", "MICRO_LATCH_IP"] none =
    .ok [0, 0, 1, 0, 0, 0, 0, 0, 0, 0, 0, 0, 0, 2, 1, 0, 0] := by decide
theorem test_compile_hold_copies :
    compile microNext (some (ControlWord.unpack 0x10700).toTuple) =
      .ok (ControlWord.unpack 0x18104).toTuple := by decide
theorem test_compile_no_hold_resets :
    compile [.dataOut, .microLatchIp] (some (ControlWord.unpack 0x11030).toTuple) =
      .ok (ControlWord.unpack 0x12000).toTuple := by decide
theorem test_compile_undefined : compileNames ["LATCH_FOO", "MICRO_LATCH_IP"] none =
    .error (.undefinedSignal "LATCH_FOO") := by decide
theorem test_compile_driven_twice : compile [.microSelIp, .microResetIp] none =
    .error (.columnDrivenTwice 13) := by decide
theorem test_compile_held_and_driven : compile [.selAlu, .holdSelAlu] none =
    .error (.heldAndDriven 6) := by decide

/-! ## The loader (section 2.2) -/

theorem test_load_negative_argument : loadEntry 32 ⟨"LOAD", "LABEL_VALUE", .int (-1)⟩ =
    .ok ⟨63, -1⟩ := by decide
theorem test_load_unknown_opcode : loadEntry 32 ⟨"MUL", "DIRECT", .int 0⟩ = .error (.unknownOpcode "MUL") := by
  decide
theorem test_load_illegal_pair : loadEntry 32 ⟨"STORE", "LABEL_VALUE", .int 0⟩ =
    .error (.illegalPair .store .labelValue) := by decide
/-- Two faults in one entry, in the model's order (log 14). -/
theorem test_load_two_faults : loadEntry 32 ⟨"MUL", "direct", .str "x"⟩ = .error (.unknownOpcode "MUL") := by decide
theorem test_load_too_wide : loadEntry 32 ⟨"LOAD", "LABEL_VALUE", .int 2147483648⟩ =
    .error (.valueOutOfRange 2147483648) := by decide
theorem test_load_no_argument_needed : loadEntry 32 ⟨"HLT", "NONE", .absent⟩ = .ok ⟨160, 0⟩ := by decide
theorem test_load_data : loadData params [⟨4, [2, 3, 7]⟩] = .ok [(0, 2), (1, 3), (2, 7)] := by decide
theorem test_load_data_too_long : loadData params [⟨64, []⟩, ⟨1, []⟩] = .error .dataTooLong := by decide

/-! ## Witnesses: for every obligation with hypotheses, a concrete case that meets them all, at boundary values -/

/-- Running at a boundary, five ticks left, the last fall-through address of a memory of 8 words, data cells 3, 7, 1 and 9 of
a memory of four. -/
def ready : State :=
  { State.resetWith { width := 32, dataMemSize := 4, instrMemSize := 8, tickLimit := some 5 } [⟨0, 0⟩, ⟨41, 3⟩]
      [(0, 3), (1, 7), (2, 1), (3, 9)] [10, 11] [20] [30] with ip := 6, acc := 5 }

/-- The same with as many ticks left as given. -/
def left (n : Nat) : State := { ready with cfg := { ready.cfg with tickLimit := some n } }

theorem witness_alu_pass : 1 ≤ 8 ∧ 6 ≤ 6 ∧ fitsWord 8 (-128) = true ∧ alu 8 6 5 (-128) = -128 := by decide

theorem witness_alu_exact :
    fitsWord 8 (126 + 1) = true ∧ fitsWord 8 (-127 - 1) = true ∧ fitsWord 8 (-(-127)) = true ∧
    fitsWord 8 (-128) = true ∧ fitsWord 8 (-(-128)) = false := by decide

/-- Every `exec` answers a next state, so the premise `exec i s = next t` is met by every instruction and state. -/
theorem witness_exec_next (i : Instr) : ∃ t, exec i ready = .next t := by
  obtain ⟨fs, -, h⟩ := exec_isNext i ready
  exact ⟨_, h⟩

theorem witness_flag_matches : ready.z = decide (ready.acc = 0) ∧ ∃ t, step ready = .next t :=
  ⟨by decide, _, rfl⟩

theorem witness_ready_3 : (left 3).readyFor 3 = true := by decide
theorem witness_not_ready_2 : (left 2).readyFor 3 = false := by decide
theorem witness_ready_4 : (left 4).readyFor 4 = true := by decide

/-- The operand of every mode, at the last cell. -/
theorem witness_operands :
    ready.operand .direct 3 = some 9 ∧ ready.operand .labelAddr 3 = some 9 ∧
    ready.operand .labelValue (-1) = some (-1) ∧ ready.operand .indirect 0 = some 9 ∧
    ready.readyFor 5 = true := by decide

theorem witness_add :
    (Instr.addIndirect 0).opcode = .add ∧ ready.operand (Instr.addIndirect 0).mode 0 = some 9 ∧
    ready.readyFor (ticksOf (.addIndirect 0)) = true := by decide

theorem witness_sub :
    (Instr.subDirect 3).opcode = .sub ∧ (left 4).operand (Instr.subDirect 3).mode 3 = some 9 ∧
    (left 4).readyFor (ticksOf (.subDirect 3)) = true := by decide

theorem witness_load :
    (Instr.loadLabelValue 3).opcode = .load ∧
    (left 3).operand (Instr.loadLabelValue 3).mode 3 = some 3 ∧
    (left 3).readyFor (ticksOf (.loadLabelValue 3)) = true := by decide

theorem witness_store :
    (Instr.storeIndirect 0).opcode = .store ∧
    ready.effectiveAddr (Instr.storeIndirect 0).mode 0 = some 3 ∧ ready.dmemRead 3 = some 9 ∧
    ready.readyFor (ticksOf (.storeIndirect 0)) = true := by decide

theorem witness_store_changes_one_cell :
    ready.memorySound = true ∧ ready.effectiveAddr (Instr.storeDirect 3).mode 3 = some 3 ∧
    ready.status = .running ∧
    (nextOf (exec (.storeDirect 3) ready)).map (fun t => t.status) = some .running ∧
    ready.effectiveAddr (Instr.storeIndirect 4).mode 4 = none := by decide

/-- A direct store and load, and an indirect store of the pointer's own cell with an indirect load through another one. -/
theorem witness_load_after_store :
    ({ left 9 with ip := 2 } : State).memorySound = true ∧
    ({ left 9 with ip := 2 } : State).effectiveAddr .direct 1 = some 1 ∧
    (∃ t, exec (.storeDirect 1) { left 9 with ip := 2 } = .next t ∧ t.effectiveAddr .direct 1 = some 1 ∧
      t.readyFor (ticksOf (.loadDirect 1)) = true) ∧
    ({ left 10 with ip := 2, acc := 3 } : State).effectiveAddr .indirect 0 = some 3 ∧
    ∃ t, exec (.storeIndirect 0) { left 10 with ip := 2, acc := 3 } = .next t ∧ t.effectiveAddr .indirect 3 = some 3 ∧
      t.readyFor (ticksOf (.loadIndirect 3)) = true :=
  ⟨by decide, by decide, ⟨_, rfl, by decide, by decide⟩, by decide, _, rfl, by decide, by decide⟩

theorem witness_queues :
    ready.in0 = 10 :: [11] ∧ ready.p1in = 20 :: [] ∧ ready.p2in = 30 :: [] := by decide

theorem witness_jump :
    (left 2).status = .running ∧ (left 2).hasTicks 2 = true ∧
    inRange (left 2).cfg.instrMemSize 7 = true ∧ inRange (left 2).cfg.instrMemSize 8 = false ∧
    inRange (left 2).cfg.instrMemSize (-1) = false ∧
    inRange (left 2).cfg.instrMemSize (left 2).nextIp = true ∧ (left 2).z = false ∧
    ({ left 2 with z := true } : State).hasTicks 2 = true := by decide

/-- The address that JMPZ latches, with the flag clear and with the flag set, inside and outside instruction memory. -/
theorem witness_jump_if_zero :
    (ready.z = true → (7 : Int) = -1) ∧ (ready.z = false → (7 : Int) = ready.nextIp) ∧
    (({ ready with z := true } : State).z = true → (8 : Int) = 8) ∧
    (({ ready with ip := 7 } : State).z = false → (8 : Int) = ({ ready with ip := 7 } : State).nextIp) := by
  decide

theorem witness_hlt : (left 1).status = .running ∧ (left 1).hasTicks 1 = true := by decide

theorem witness_completed :
    (nextOf (exec .inc (left 3))).map (fun t => t.status) = some .running := by decide

theorem witness_bad_address :
    (left 2).hasTicks 2 = true ∧ inRange (left 2).cfg.dataMemSize 4 = false ∧
    inRange (left 2).cfg.dataMemSize (-1) = false ∧
    referenceMicrocode.entry (encode (.storeDirect 4)).code.toNat = some 45 ∧
    referenceMicrocode.entry (encode (.addLabelAddr 4)).code.toNat = some 12 ∧
    referenceMicrocode.entry (encode (.loadIndirect (-1))).code.toNat = some 41 := by decide

theorem witness_bad_pointer :
    (left 3).hasTicks 3 = true ∧ (left 3).dmemRead 1 = some 7 ∧
    inRange (left 3).cfg.dataMemSize 7 = false ∧
    referenceMicrocode.entry (encode (.subIndirect 1)).code.toNat = some 29 := by decide

theorem witness_empty_queue :
    ({ left 2 with in0 := [] } : State).hasTicks 2 = true ∧ ({ left 2 with in0 := [] } : State).in0 = [] ∧
    ({ left 2 with p1in := [] } : State).p1in = [] ∧ ({ left 2 with p2in := [] } : State).p2in = [] := by
  decide

theorem witness_latch_outside :
    (nextOf (exec .inc { ready with ip := 7 })).map (fun t => t.status) =
      some (.stopped (.instrAddrOutOfRange 8)) ∧
    (nextOf (exec (.jmpLabelValue 8) ready)).map (fun t => t.status) =
      some (.stopped (.instrAddrOutOfRange 8)) ∧
    (nextOf (exec (.jmpzLabelValue 0) { ready with ip := 7 })).map (fun t => t.status) =
      some (.stopped (.instrAddrOutOfRange 8)) ∧
    (nextOf (exec (.addIndirect 0) { ready with ip := 7 })).map (fun t => (t.opr, t.mdr, t.mip)) =
      some (9, 9, 20) ∧
    ready.operand .indirect 0 = some 9 ∧ referenceMicrocode.entry (encode (.addIndirect 0)).code.toNat = some 17 := by
  decide

theorem witness_ceiling :
    (left 0).status = .running ∧ (left 0).atCeiling = true ∧ (left 0).ipInRange = true ∧
    (left 0).mip < referenceMicrocode.rom.length := by decide

theorem witness_ceiling_cuts :
    (left 2).cfg.tickLimit = some 2 ∧ (left 2).ticks ≤ 2 ∧
    (nextOf (exec .inc (left 2))).map (fun t => (t.status, t.ticks)) =
      some (.stopped .tickCeilingExceeded, 2) := by decide

theorem witness_stopped : (ready.stop .normalHalt).status = .stopped .normalHalt := by decide

theorem witness_step_runs :
    ({ ready with ip := 1 } : State).status = .running ∧ ({ ready with ip := 1 } : State).mip = 0 ∧
    ({ ready with ip := 1 } : State).ipInRange = true ∧ ({ ready with ip := 1 } : State).atCeiling = false ∧
    ({ ready with ip := 1 } : State).ip < (({ ready with ip := 1 } : State).progLen : Int) ∧
    decode (({ ready with ip := 1 } : State).imemRead 1) = .ok (.addDirect 3) := by decide

theorem witness_placed_word :
    (Instr.loadLabelValue (-2147483648)).wellFormed ready.cfg.width = true ∧
    ready.cfg.wellFormed = true ∧
    ready.status = .running ∧ ready.mip = 0 ∧ ready.ipInRange = true ∧ ready.atCeiling = false ∧
    ({ ready with ip := 7 } : State).ipInRange = true := by decide

theorem witness_no_instruction :
    ready.ip ≥ (ready.progLen : Int) ∧
    legalCode ((loaded [⟨5, 0⟩]).imemRead 0).code = false ∧
    legalCode ((loaded [⟨161, 0⟩]).imemRead 0).code = false ∧
    (loaded [⟨5, 0⟩]).ip < ((loaded [⟨5, 0⟩]).progLen : Int) := by decide

theorem witness_step_is_ticks :
    (loaded [⟨41, 3⟩]).atBoundary = true ∧ (loaded [⟨41, 3⟩]).ipInRange = true ∧
    (loaded [⟨41, 3⟩]).staged = true ∧ (loaded [⟨41, 3⟩]).fetch = .instr (.addDirect 3) ∧
    (loaded [⟨5, 0⟩]).fetch = .stop { loaded [⟨5, 0⟩] with ir := 5, status := .stopped (.decodeIndexMiss 5) } := by
  decide

/-- Sound, so `1 ≤ icount ≤ ticks / 2 + 1`. -/
theorem witness_counters : ready.sound = true ∧ ready.icount = 1 ∧ ready.ticks = 0 := by decide

theorem witness_sound_step : ready.sound = true ∧ ∃ t, step ready = .next t := ⟨by decide, _, rfl⟩

/-- A sound state in the middle of a micro-program. -/
theorem witness_sound_tick :
    ({ ready with mip := 9, ir := 41, ticks := 1 } : State).sound = true ∧
    ∃ t, tick { ready with mip := 9, ir := 41, ticks := 1 } = .next t := ⟨by decide, _, rfl⟩

theorem witness_legal_program :
    ready.sound = true ∧ (∀ w ∈ ready.imem, legalCode w.code = true) := by decide

theorem witness_finite_ceiling : ready.sound = true ∧ ready.cfg.tickLimit = some 5 := by decide

/-- A program that halts, under the unbounded ceiling of R225. -/
def halting : State :=
  State.resetWith { params with tickLimit := none } [⟨0, 0⟩, ⟨160, 0⟩] [] [] [] []

theorem witness_unbounded_run :
    halting.cfg.tickLimit = none ∧
    ∃ t, runWithin referenceMicrocode 4 halting = some (.next t) ∧ 4 ≤ 5 ∧ halting.RunsTo referenceMicrocode t ∧
      t.runResult = some ⟨.normalHalt, 3, 2, [], [], []⟩ :=
  ⟨rfl, _, rfl, by decide, ⟨4, rfl⟩, by decide⟩

theorem witness_run_tick : ∃ t, tickOf referenceMicrocode halting = .next t := ⟨_, rfl⟩

theorem witness_any_microcode :
    ∃ t, tickOf ⟨[ControlWord.unpack 0x50E00], []⟩ ready = .next t := ⟨_, rfl⟩

/-- A tick of each of the words of R27, R28 and R12: an input, an output, a latch of the instruction pointer inside and outside
instruction memory. -/
theorem witness_queue_ticks :
    (referenceMicrocode.rom[59]?).map (fun w => (w.doAlu, w.selAluIn)) = some (true, 2) ∧
    (nextOf (tick { ready with mip := 59, ir := 100 })).map (fun t => (t.p1in, t.status)) = some ([], .running) ∧
    (referenceMicrocode.rom[57]?).map (fun w => w.output) = some true ∧
    (nextOf (tick { ready with mip := 57, ir := 90 })).map (fun t => t.out0) = some [5] := by decide

theorem witness_latch_ticks :
    (referenceMicrocode.rom[2]?).map (fun w => w.latchIp) = some true ∧
    (nextOf (tick { ready with mip := 2 })).map (fun t => (t.ip, t.mip)) = some (7, 0) ∧
    (nextOf (tick { ready with mip := 2, ip := 7 })).map (fun t => (t.ip, t.status)) =
      some (7, .stopped (.instrAddrOutOfRange 8)) ∧
    ({ ready with mip := 2, ip := 7 } : State).atCeiling = false := by decide

/-- The last cell, and the addresses on both sides outside. -/
theorem witness_data_access :
    ready.memorySound = true ∧ (0 ≤ (3 : Int) ∧ (3 : Int) < (ready.cfg.dataMemSize : Int)) ∧
    ¬ (0 ≤ (4 : Int) ∧ (4 : Int) < (ready.cfg.dataMemSize : Int)) ∧
    ¬ (0 ≤ (-1 : Int) ∧ (-1 : Int) < (ready.cfg.dataMemSize : Int)) ∧
    ({ ready with ar := 4 } : State).dmemRead 4 = none ∧ ({ ready with ar := 4 } : State).dmemWrite 4 5 = none ∧
    (ControlWord.unpack 0x3000).dataIn = true ∧ (ControlWord.unpack 0x3000).dataOut = true ∧
    ({ ready with ar := 3 } : State).dmemRead 3 = some 9 ∧
    (({ ready with ar := 3 } : State).dmemWrite 3 5).isSome = true := by decide

/-- A word whose read raises after its address latch, its accumulator latch and its output were applied. -/
theorem witness_raise :
    ∃ t, applyWord referenceMicrocode (ControlWord.unpack 0x11E20) { ready with mdr := 4, mip := 0, in0 := [] } =
        .raised (.dataAddrOutOfRange 4) t ∧ t.ar = 4 ∧ t.out0 = [6] := ⟨_, rfl, by decide, by decide⟩

theorem witness_raise_tick :
    ready.status = .running ∧ ready.ipInRange = true ∧ ready.atCeiling = false ∧
    (Microcode.mk [ControlWord.unpack 0x11E20] []).rom[ready.mip]? = some (ControlWord.unpack 0x11E20) ∧
    ({ ready with mdr := 4 } : State).dmemRead 4 = none := by decide

/-- A word that latches, stores, outputs to all three and returns to the fetch block, applied to a sound state. -/
theorem witness_apply_word :
    (ControlWord.unpack 0x7AE00).latchAcc = true ∧ (ControlWord.unpack 0x7AE00).dataOut = true ∧
    (ControlWord.unpack 0x7AE00).output = true ∧ (ControlWord.unpack 0x7AE00).port1Out = true ∧
    (ControlWord.unpack 0x7AE00).port2Out = true ∧ (ControlWord.unpack 0x7AE00).microSelIp = 2 ∧
    (ControlWord.unpack 0x7AE00).microLatchIp = true ∧ ready.memorySound = true ∧
    ∃ t, applyWord referenceMicrocode (ControlWord.unpack 0x7AE00) ready = .done t :=
  ⟨by decide, by decide, by decide, by decide, by decide, by decide, by decide, by decide, _, rfl⟩

theorem witness_apply_word_selects :
    (∃ t, applyWord referenceMicrocode (ControlWord.unpack 0) ready = .done t) ∧
    (∃ t, applyWord referenceMicrocode (ControlWord.unpack 0x10000) ready = .done t) ∧
    (∃ t, applyWord referenceMicrocode (ControlWord.unpack 0x14000) { ready with ir := 160 - 7 } = .done t) :=
  ⟨⟨_, rfl⟩, ⟨_, rfl⟩, ⟨_, rfl⟩⟩

theorem witness_tuple :
    (ControlWord.unpack 0x18007).wellFormed = true ∧
    ControlWord.ofTuple (List.replicate 17 0) = some (ControlWord.unpack 0) ∧
    tupleWellFormed (List.replicate 18 0) = false := by decide

theorem witness_compile :
    compile [.selAlu, .holdSelAddr] (some [0, 0, 0, 0, 1]) =
      .ok [0, 0, 0, 0, 1, 0, 1, 0, 0, 0, 0, 0, 0, 0, 0, 0, 0] := by decide

theorem witness_wellFormed :
    (Instr.storeIndirect (-2147483648)).wellFormed 32 = true ∧ (Instr.addDirect 127).wellFormed 8 = true ∧
    Instr.hlt.wellFormed 1 = true := by decide

theorem witness_decode : decode ⟨41, 3⟩ = .ok (.addDirect 3) ∧ legalCode 161 = false := by decide

/-- Parameters whose two memories hold two cells and one word. -/
def small : Config := { width := 32, dataMemSize := 2, instrMemSize := 1, tickLimit := none }

/-- A document that fills both memories to the last word. -/
def smallDoc : ProgramDocument := ⟨[⟨1, []⟩, ⟨1, [-2147483648]⟩], [⟨"HLT", "NONE", .absent⟩]⟩

theorem witness_loader :
    ∃ p, loadAndReset small referenceMicrocode smallDoc [2147483647] [] [0] = .ok p ∧ p.state.opr = 0 ∧
      p.state.dmem = [(1, -2147483648)] := ⟨_, rfl, by decide, by decide⟩

theorem witness_loader_accepts :
    small.wellFormed = true ∧ referenceMicrocode.wellFormed = true ∧
    (∀ e ∈ smallDoc.data, (e.init.length : Int) ≤ e.size ∧ ∀ v ∈ e.init, fitsWord small.width v = true) ∧
    (smallDoc.data.map (fun e => e.size.toNat)).sum = small.dataMemSize ∧
    (∀ e ∈ smallDoc.code, e = ⟨Opcode.hlt.name, Mode.none.name, .absent⟩) ∧ legalPair .hlt .none = true ∧
    smallDoc.code.length = small.instrMemSize ∧
    ∀ v ∈ [2147483647] ++ [] ++ [0], fitsWord small.width v = true := by decide

/-- The host's whole sequence with a program of HLT (R282): the run ends at once, under the unbounded ceiling too. -/
theorem witness_prepare :
    ∃ p, prepare small .reference smallDoc [] [] [] = .ok p ∧ p.result 1 = some ⟨.normalHalt, 0, 1, [], [], []⟩ :=
  ⟨_, rfl, by decide⟩

/-- A microcode of two words: the fetch word, and `NEXT` as the whole program of INC. -/
def twoWords : MicroSource :=
  ⟨spell microBoot, fun _ => [], fun o => if o = .inc then spell [microNext] else []⟩

/-- The same sequence on a ROM that the generator builds: the run loop takes the built one (R225, R282), on which INC takes two
ticks. -/
theorem witness_prepare_built :
    ∃ p, prepare params (.built twoWords)
        ⟨[], [⟨"INC", "NONE", .absent⟩, ⟨"HLT", "NONE", .absent⟩]⟩ [] [] [] = .ok p ∧
      p.microcode.rom.map ControlWord.pack = [0x14008, 0x18004] ∧
      p.result 0 = some ⟨.normalHalt, 2, 2, [], [], []⟩ := ⟨_, rfl, by decide, by decide⟩

/-- The same source with an undefined name in INC's program: no ROM and no run (R87, R88, R254). -/
theorem test_prepare_undefined_signal :
    prepare params (.built { twoWords with opcode := fun o => if o = .inc then [["LATCH_FOO", "MICRO_LATCH_IP"]] else [] })
      ⟨[], []⟩ [] [] [] = .error (.undefinedSignal "LATCH_FOO") := rfl

theorem witness_undefined_signal :
    "LATCH_FOO" ∈ ["MICRO_LATCH_IP", "LATCH_FOO"] ∧ (∀ n ∈ Signal.all, n.name ≠ "LATCH_FOO") ∧
    ["MICRO_LATCH_IP", "LATCH_FOO"] ∈ [["MICRO_LATCH_IP", "LATCH_FOO"]] ∧ params.wellFormed = true := by decide

/-- Parameters outside R6's bounds (log 13). -/
theorem test_prepare_bad_parameters :
    prepare { params with width := 7 } .reference ⟨[], []⟩ [] [] [] = .error .parameterOutOfBounds := rfl

theorem witness_loader_entry :
    legalPair .load .labelValue = true ∧ fitsWord 32 (-2147483648) = true ∧ fitsWord 32 (-2147483649) = false ∧
    fitsWord 32 2147483648 = false ∧ legalPair .hlt .direct = false ∧ (∀ o ∈ Opcode.all, o.name ≠ "MUL") ∧
    (∀ m ∈ Mode.all, m.name ≠ "direct") := by decide

end Sys2Proof.Tests
end

section
/-! PROOFS. A sound state, taken apart: the part that every register write keeps on its own (the words, the memories, `IP` and
the parameters), and the part that a whole tick keeps (`MIP`, the staged argument and the counters). -/

namespace Sys2Proof

theorem Config.width_pos {c : Config} (h : c.wellFormed = true) : 1 ≤ c.width := by
  simp only [Config.wellFormed, Bool.and_eq_true, decide_eq_true_eq] at h
  omega

/-- An instruction of mode `NONE` has the argument 0 (20_memory.md R46). -/
theorem Instr.arg_of_mode_none {i : Instr} (h : i.mode = .none) : i.arg = 0 := by
  cases i <;> cases h <;> rfl

/-- The argument of a decoded instruction is a word when that of the instruction word is. -/
theorem fitsWord_arg_of_decode {width : Nat} {w : InstrWord} {i : Instr} (hw : fitsWord width w.arg = true)
    (h : decode w = .ok i) : fitsWord width i.arg = true := by
  obtain ⟨-, harg⟩ := decode_ok h
  by_cases hm : i.mode = .none
  · rw [Instr.arg_of_mode_none hm]
    exact fitsWord_zero width
  · rwa [← harg hm]

end Sys2Proof

namespace Sys2Proof.Machine

/-- The conditions of `State.sound` on the parameters, the words and the memories, which say nothing of `MIP`, `TICKS` and
`ICOUNT`. That the value of `IP` fits a word is left out: it follows from its range. -/
structure State.DataSound (s : State) : Prop where
  memory : s.memorySound = true
  ipRange : s.ipInRange = true
  program : s.progLen ≤ s.cfg.instrMemSize
  params : s.cfg.wellFormed = true
  ar : fitsWord s.cfg.width s.ar = true
  acc : fitsWord s.cfg.width s.acc = true
  aluOut : fitsWord s.cfg.width s.aluOut = true
  mdr : fitsWord s.cfg.width s.mdr = true
  opr : fitsWord s.cfg.width s.opr = true
  cells : ∀ c ∈ s.dmem, fitsWord s.cfg.width c.2 = true
  args : ∀ w ∈ s.imem, fitsWord s.cfg.width w.arg = true
  in0 : ∀ v ∈ s.in0, fitsWord s.cfg.width v = true
  p1in : ∀ v ∈ s.p1in, fitsWord s.cfg.width v = true
  p2in : ∀ v ∈ s.p2in, fitsWord s.cfg.width v = true
  out0 : ∀ v ∈ s.out0, fitsWord s.cfg.width v = true
  p1out : ∀ v ∈ s.p1out, fitsWord s.cfg.width v = true
  p2out : ∀ v ∈ s.p2out, fitsWord s.cfg.width v = true

/-- The operand latch holds the argument at `IP` (10_state.md R18). -/
def State.ArgStaged (s : State) : Prop := s.opr = s.wireArg

/-- The conditions of `State.sound` on `MIP` and the counters, and on the argument staged at a boundary. -/
structure State.ControlSound (s : State) : Prop where
  mip : s.mip < referenceMicrocode.rom.length
  staged : s.mip = 0 → s.ArgStaged
  ceiling : ∀ limit, s.cfg.tickLimit = some limit → s.ticks ≤ limit
  icount : 1 ≤ s.icount
  counters : 2 * (s.icount - 1) ≤ s.ticks
  begun : s.mip ≠ 0 → 2 * (s.icount - 1) < s.ticks

/-- An address of instruction memory is a word of the run's width (00_scope.md R6). -/
theorem fitsWord_of_instrAddr {c : Config} (h : c.wellFormed = true) {a : Int}
    (ha : inRange c.instrMemSize a = true) : fitsWord c.width a = true := by
  simp only [Config.wellFormed, Bool.and_eq_true, decide_eq_true_eq] at h
  have hsize : (c.instrMemSize : Int) ≤ 2 ^ (c.width - 1) := by exact_mod_cast h.2
  rw [inRange_iff] at ha
  rw [fitsWord_iff]
  omega

theorem State.withinCeiling_iff (s : State) :
    s.withinCeiling = true ↔ ∀ limit, s.cfg.tickLimit = some limit → s.ticks ≤ limit := by
  unfold State.withinCeiling
  cases s.cfg.tickLimit <;> simp

theorem State.countersSound_iff (s : State) :
    s.countersSound = true ↔
      1 ≤ s.icount ∧ 2 * (s.icount - 1) ≤ s.ticks ∧ (s.mip ≠ 0 → 2 * (s.icount - 1) < s.ticks) := by
  unfold State.countersSound
  by_cases hm : s.mip = 0 <;> simp [hm]
  omega

/-- A sound state is one whose data are sound and whose control is. -/
theorem State.sound_iff (s : State) : s.sound = true ↔ s.DataSound ∧ s.ControlSound := by
  simp only [State.sound, Bool.and_eq_true, decide_eq_true_eq, State.wordsFit_iff, State.staged,
    State.withinCeiling_iff, State.countersSound_iff]
  constructor
  · rintro ⟨⟨⟨⟨⟨⟨⟨⟨hmem, ⟨-, har, hacc, halu, hmdr, hopr⟩, hcells, hargs, hin0, hp1in, hp2in, hout0, hp1out, hp2out⟩,
      hip⟩, hmip⟩, hstaged⟩, hprog⟩, hparams⟩, hceil⟩, hic, hcount, hbegun⟩
    exact ⟨⟨hmem, hip, hprog, hparams, har, hacc, halu, hmdr, hopr, hcells, hargs, hin0, hp1in, hp2in, hout0, hp1out, hp2out⟩,
      ⟨hmip, hstaged, hceil, hic, hcount, hbegun⟩⟩
  · rintro ⟨hd, hc⟩
    exact ⟨⟨⟨⟨⟨⟨⟨⟨hd.memory, ⟨fitsWord_of_instrAddr hd.params hd.ipRange, hd.ar, hd.acc, hd.aluOut, hd.mdr, hd.opr⟩,
      hd.cells, hd.args, hd.in0, hd.p1in, hd.p2in, hd.out0, hd.p1out, hd.p2out⟩,
      hd.ipRange⟩, hc.mip⟩, hc.staged⟩, hd.program⟩, hd.params⟩, hc.ceiling⟩, hc.icount, hc.counters, hc.begun⟩

/-! The values that the machine writes fit the run's width. -/

namespace State.DataSound

variable {s : State}

theorem imemRead_arg (h : s.DataSound) (a : Int) : fitsWord s.cfg.width (s.imemRead a).arg = true := by
  unfold State.imemRead
  rw [List.getD_eq_getElem?_getD]
  cases hw : s.imem[a.toNat]? with
  | none => exact fitsWord_zero _
  | some w => exact h.args w (List.mem_of_getElem? hw)

theorem dmemRead (h : s.DataSound) {a v : Int} (hv : s.dmemRead a = some v) : fitsWord s.cfg.width v = true := by
  obtain ⟨-, rfl⟩ := State.dmemRead_eq_some.1 hv
  exact Memory.forall_read (P := (fitsWord s.cfg.width · = true)) h.cells (fitsWord_zero _) _

theorem inQueue (h : s.DataSound) (q : InQueue) : ∀ v ∈ s.inQueue q, fitsWord s.cfg.width v = true := by
  cases q with
  | in0 => exact h.in0
  | p1in => exact h.p1in
  | p2in => exact h.p2in

end State.DataSound

/-- Every function of the ALU gives a word of its width, pass-through because its input is one (R141). -/
theorem fitsWord_aluResult {w : Nat} (hw : 1 ≤ w) (fn : AluFn) (a : Int) {x : Int} (hx : fitsWord w x = true) :
    fitsWord w (aluResult w fn a x) = true := by
  cases fn with
  | inc | dec | neg | add | sub => exact fitsWord_wrap hw _
  | cls => exact fitsWord_zero w
  | pass => exact hx

/-! Each register write keeps the data sound. -/

namespace State.DataSound

variable {s : State}

theorem setIp (h : s.DataSound) {new : Int} (hr : inRange s.cfg.instrMemSize new = true) : (s.setIp new).DataSound :=
  { h with ipRange := hr, opr := h.imemRead_arg new }

theorem setIr (h : s.DataSound) (code : BitVec 8) : (s.setIr code).DataSound := { h with }

theorem setAr (h : s.DataSound) {a : Int} (ha : fitsWord s.cfg.width a = true) : (s.setAr a).DataSound :=
  { h with ar := ha }

theorem setAlu (h : s.DataSound) {r : Int} (hr : fitsWord s.cfg.width r = true) : (s.setAlu r).DataSound :=
  { h with aluOut := hr }

theorem commitAlu (h : s.DataSound) : s.commitAlu.DataSound := { h with acc := h.aluOut }

theorem setMdr (h : s.DataSound) {v : Int} (hv : fitsWord s.cfg.width v = true) : (s.setMdr v).DataSound :=
  { h with mdr := hv, opr := hv }

theorem setMip (h : s.DataSound) (m : Nat) : (s.setMip m).DataSound := { h with }

theorem advance (h : s.DataSound) : s.advance.DataSound := h.setMip _

theorem boundary (h : s.DataSound) : s.boundary.DataSound := { h with }

theorem countTick (h : s.DataSound) : s.countTick.DataSound := { h with }

theorem stop (h : s.DataSound) (c : Cause) : (s.stop c).DataSound := { h with }

theorem setInQueue (h : s.DataSound) (q : InQueue) {l : List Int} (hl : ∀ v ∈ l, fitsWord s.cfg.width v = true) :
    (s.setInQueue q l).DataSound := by
  cases q with
  | in0 => exact { h with in0 := hl }
  | p1in => exact { h with p1in := hl }
  | p2in => exact { h with p2in := hl }

theorem appendOut (h : s.DataSound) (q : OutQueue) {v : Int} (hv : fitsWord s.cfg.width v = true) :
    (s.appendOut q v).DataSound := by
  have append {l : List Int} (hl : ∀ x ∈ l, fitsWord s.cfg.width x = true) :
      ∀ x ∈ l ++ [v], fitsWord s.cfg.width x = true :=
    List.forall_mem_append.2 ⟨hl, List.forall_mem_singleton.2 hv⟩
  cases q with
  | out0 => exact { h with out0 := append h.out0 }
  | p1out => exact { h with p1out := append h.p1out }
  | p2out => exact { h with p2out := append h.p2out }

theorem dmemWrite (h : s.DataSound) {t : State} {a v : Int} (hv : fitsWord s.cfg.width v = true)
    (hw : s.dmemWrite a v = some t) : t.DataSound := by
  have hmem := State.memorySound_dmemWrite h.memory hw
  obtain ⟨-, rfl⟩ := State.dmemWrite_eq_some.1 hw
  exact { h with memory := hmem, cells := Memory.forall_write (P := (fitsWord s.cfg.width · = true)) h.cells hv }

/-- An element popped from a queue is a word, and what is left stays sound (42_io.md R181). -/
theorem pop (h : s.DataSound) {q : InQueue} {v : Int} {rest : List Int} (hq : s.inQueue q = v :: rest) :
    fitsWord s.cfg.width v = true ∧ (s.setInQueue q rest).DataSound := by
  have hall := h.inQueue q
  rw [hq] at hall
  obtain ⟨hv, hrest⟩ := List.forall_mem_cons.1 hall
  exact ⟨hv, h.setInQueue q hrest⟩

end State.DataSound

end Sys2Proof.Machine
end

section
/-! PROOFS. What a tick may do to a sound state, whether it is a control word of the ROM or a named tick of an instruction, and
that the controller's loop body keeps the state sound around such a tick (50_control_unit.md R221, R225, R226). -/

namespace Sys2Proof.Machine

/-- What every tick of a sound state leaves, complete or abandoned: sound data, the parameters and the tick count. -/
structure TickFrame (s t : State) : Prop where
  data : t.DataSound
  cfg : t.cfg = s.cfg
  ticks : t.ticks = s.ticks

theorem TickFrame.refl {s : State} (h : s.DataSound) : TickFrame s s := ⟨h, rfl, rfl⟩

theorem TickFrame.trans {s t u : State} (h : TickFrame s t) (k : TickFrame t u) : TickFrame s u :=
  ⟨k.data, k.cfg.trans h.cfg, k.ticks.trans h.ticks⟩

/-- The results that a tick of a sound state may have. -/
inductive SoundTick (s : State) : TickResult → Prop where
  /-- The tick goes to a word of a block. -/
  | inBlock {t : State} (frame : TickFrame s t) (icount : t.icount = s.icount) (inside : t.mip ≠ 0)
      (rom : t.mip < referenceMicrocode.rom.length) : SoundTick s (.done t)
  /-- The tick is the last of a block: it counts the instruction and stages the argument at the new `IP`. -/
  | lastOfBlock {t : State} (frame : TickFrame s t) (icount : t.icount = s.icount + 1) (began : s.mip ≠ 0)
      (mip : t.mip = 0) (staged : t.ArgStaged) : SoundTick s (.done t)
  /-- The tick raises, at a boundary without touching the staged argument. -/
  | raised {c : Cause} {t : State} (frame : TickFrame s t) (icount : t.icount = s.icount) (mip : t.mip = s.mip)
      (staged : s.mip = 0 → t.ArgStaged) : SoundTick s (.raised c t)

theorem SoundTick.frame {s : State} {r : TickResult} (h : SoundTick s r) : TickFrame s r.state := by
  cases h <;> assumption

/-- A tick that began below the ceiling stays within it when it is counted (10_state.md R22; 50_control_unit.md R225). -/
theorem TickFrame.countTick_ceiling {s t : State} (h : TickFrame s t) (hat : s.atCeiling = false) (limit : Nat)
    (hl : t.countTick.cfg.tickLimit = some limit) : t.countTick.ticks ≤ limit := by
  rw [State.countTick_cfg, h.cfg] at hl
  simp only [State.atCeiling, ceilingAt, hl, decide_eq_false_iff_not] at hat
  rw [State.countTick_ticks, h.ticks]
  omega

/-- Recording a cause keeps a state sound: no condition of soundness is about `STATUS`. -/
theorem State.sound_stop {s : State} (h : s.sound = true) (c : Cause) : (s.stop c).sound = true := h

/-- The loop body keeps a state sound around every tick of these kinds. -/
theorem controlTick_sound {f : State → TickResult} {s : State} (h : s.sound = true)
    (hf : s.status = .running → SoundTick s (f s)) :
    (controlTick f s).sound = true := by
  obtain ⟨-, hmip, -, hceil, hic, hcount, hbegun⟩ := s.sound_iff.1 h
  obtain ⟨c, -, he⟩ | ⟨-, -, he⟩ | ⟨hrun, hat, t, ht, he⟩ | ⟨hrun, -, c, t, ht, he⟩ := controlTick_cases f s
  · rwa [he]
  · rw [he]
    exact State.sound_stop h _
  · rw [he, State.sound_iff]
    have hf := hf hrun
    rw [ht] at hf
    cases hf with
    | inBlock frame icount inside rom =>
      refine ⟨frame.data.countTick, rom, fun h0 => absurd h0 inside, frame.countTick_ceiling hat, ?_, ?_, ?_⟩ <;>
        simp only [State.countTick_icount, State.countTick_ticks, icount, frame.ticks] <;> omega
    | lastOfBlock frame icount began mip staged =>
      refine ⟨frame.data.countTick, by simp [mip, referenceMicrocode_rom_length], fun _ => staged,
        frame.countTick_ceiling hat, ?_, ?_, fun h0 => absurd mip h0⟩ <;>
        simp only [State.countTick_icount, State.countTick_ticks, icount, frame.ticks] <;> omega
  · rw [he]
    have hf := hf hrun
    rw [ht] at hf
    cases hf with
    | raised frame icount mip staged =>
      refine State.sound_stop ((State.sound_iff t).2 ⟨frame.data, mip ▸ hmip, mip ▸ staged, ?_, icount ▸ hic, ?_, ?_⟩) c
      · rwa [frame.cfg, frame.ticks]
      · rwa [icount, frame.ticks]
      · rwa [icount, mip, frame.ticks]

end Sys2Proof.Machine
end

section
/-! PROOFS. A control word of the reference ROM is a tick that keeps a state sound (31_control_word.md R93 to R109;
32_microcode_rom.md R127). -/

namespace Sys2Proof.Machine

/-- What the primitive of a column can write under a control word, whether it completes or raises. -/
inductive ColumnWrite (w : ControlWord) (s : State) : Column → State → Prop where
  | nothing (c : Column) : ColumnWrite w s c s
  | ip (range : inRange s.cfg.instrMemSize (ipMux w s) = true) : ColumnWrite w s .latchIp (s.setIp (ipMux w s))
  | ir (code : BitVec 8) : ColumnWrite w s .latchIr (s.setIr code)
  | addr : ColumnWrite w s .latchAddr (s.setAr (addrMux w s))
  | alu : ColumnWrite w s .doAlu (s.setAlu (alu s.cfg.width (opcodeOf s.ir) s.acc (aluOperandMux w s)))
  | pop {q : InQueue} {v : Int} {rest : List Int} (queue : s.inQueue q = v :: rest) :
      ColumnWrite w s .doAlu ((s.setInQueue q rest).setAlu (Machine.alu s.cfg.width (opcodeOf s.ir) s.acc v))
  | acc : ColumnWrite w s .latchAcc s.commitAlu
  | output : ColumnWrite w s .output (s.appendOut .out0 s.acc)
  | dataIn {v : Int} (selected : w.dataIn = true) (cell : s.dmemRead s.ar = some v) :
      ColumnWrite w s .dataIn (s.setMdr v)
  | dataOut {t : State} (cell : s.dmemWrite s.ar s.acc = some t) : ColumnWrite w s .dataOut t
  | mip (n : Nat) : ColumnWrite w s .microLatchIp (s.setMip n)
  | boundary : ColumnWrite w s .microLatchIp s.boundary
  | port1Out : ColumnWrite w s .port1Out (s.appendOut .p1out s.acc)
  | port2Out : ColumnWrite w s .port2Out (s.appendOut .p2out s.acc)

/-- Every primitive writes only what `ColumnWrite` lists for its column. -/
theorem primitive_columnWrite (m : Microcode) (w : ControlWord) (c : Column) (s : State) :
    ColumnWrite w s c (primitive m w c s).state := by
  cases c with
  | selIp | selJump | selAddr | selAlu | selAluIn | microSelIp => exact .nothing _
  | latchIp =>
    obtain ⟨-, he⟩ | ⟨-, hr, he⟩ | ⟨-, -, he⟩ := primLatchIp_cases w s <;> rw [primitive, he]
    exacts [.nothing _, .ip hr, .nothing _]
  | latchIr =>
    obtain ⟨-, he⟩ | ⟨-, -, he⟩ | ⟨-, -, -, he⟩ | ⟨-, -, -, he⟩ := primLatchIr_cases w s <;> rw [primitive, he]
    exacts [.nothing _, .nothing _, .ir _, .ir _]
  | latchAddr =>
    obtain ⟨-, he⟩ | ⟨-, he⟩ := primLatchAddr_cases w s <;> rw [primitive, he]
    exacts [.nothing _, .addr]
  | doAlu =>
    obtain ⟨-, he⟩ | ⟨-, -, he⟩ | ⟨-, q, -, -, he⟩ | ⟨-, q, v, rest, -, hq, he⟩ := primDoAlu_cases w s <;>
      rw [primitive, he]
    exacts [.nothing _, .alu, .nothing _, .pop hq]
  | latchAcc =>
    obtain ⟨-, he⟩ | ⟨-, he⟩ := primLatchAcc_cases w s <;> rw [primitive, he]
    exacts [.nothing _, .acc]
  | output =>
    obtain ⟨-, he⟩ | ⟨-, he⟩ := primOutput_cases w s <;> rw [primitive, he]
    exacts [.nothing _, .output]
  | dataIn =>
    obtain ⟨-, he⟩ | ⟨hw, v, hv, he⟩ | ⟨-, -, he⟩ := primDataIn_cases w s <;> rw [primitive, he]
    exacts [.nothing _, .dataIn hw hv, .nothing _]
  | dataOut =>
    obtain ⟨-, he⟩ | ⟨-, t, ht, he⟩ | ⟨-, -, he⟩ := primDataOut_cases w s <;> rw [primitive, he]
    exacts [.nothing _, .dataOut ht, .nothing _]
  | microLatchIp =>
    obtain ⟨-, he⟩ | ⟨-, -, -, he⟩ | ⟨-, -, -, he⟩ | ⟨-, -, -, he⟩ | ⟨-, -, o, -, -, he⟩ | ⟨-, -, o, -, -, he⟩ |
      ⟨-, -, he⟩ | ⟨-, -, he⟩ := primMicroLatchIp_cases m w s <;> rw [primitive, he]
    exacts [.nothing _, .mip _, .nothing _, .nothing _, .mip _, .nothing _, .boundary, .nothing _]
  | port1Out =>
    obtain ⟨-, he⟩ | ⟨-, he⟩ := primPort1Out_cases w s <;> rw [primitive, he]
    exacts [.nothing _, .port1Out]
  | port2Out =>
    obtain ⟨-, he⟩ | ⟨-, he⟩ := primPort2Out_cases w s <;> rw [primitive, he]
    exacts [.nothing _, .port2Out]

/-- The address mux passes a word: an argument or the last cell read (R96). -/
theorem State.DataSound.addrMux {s : State} (h : s.DataSound) (w : ControlWord) :
    fitsWord s.cfg.width (addrMux w s) = true := by
  unfold Machine.addrMux
  cases w.selAddr
  · exact h.mdr
  · exact h.imemRead_arg _

/-- The operand mux passes a word: the accumulator or the operand latch (R98). -/
theorem State.DataSound.aluOperandMux {s : State} (h : s.DataSound) (w : ControlWord) :
    fitsWord s.cfg.width (aluOperandMux w s) = true := by
  unfold Machine.aluOperandMux
  cases w.selAlu
  · exact h.acc
  · exact h.opr

/-- No write touches the parameters or the tick count, and every write keeps the data sound. -/
theorem ColumnWrite.tickFrame {w : ControlWord} {s t : State} {c : Column} (hw : ColumnWrite w s c t)
    (h : s.DataSound) : TickFrame s t := by
  have hwidth := Config.width_pos h.params
  cases hw with
  | nothing => exact .refl h
  | ip hr => exact ⟨h.setIp hr, rfl, rfl⟩
  | ir code => exact ⟨h.setIr code, rfl, rfl⟩
  | addr => exact ⟨h.setAr (h.addrMux w), rfl, rfl⟩
  | alu => exact ⟨h.setAlu (fitsWord_aluResult hwidth _ _ (h.aluOperandMux w)), rfl, rfl⟩
  | pop hq =>
    obtain ⟨hv, hrest⟩ := h.pop hq
    refine ⟨hrest.setAlu ?_, by simp, by simp⟩
    rw [State.setInQueue_cfg]
    exact fitsWord_aluResult hwidth _ _ hv
  | acc => exact ⟨h.commitAlu, rfl, rfl⟩
  | dataIn _ hv => exact ⟨h.setMdr (h.dmemRead hv), rfl, rfl⟩
  | dataOut ht =>
    refine ⟨h.dmemWrite h.acc ht, ?_, ?_⟩ <;> obtain ⟨-, rfl⟩ := State.dmemWrite_eq_some.1 ht <;> rfl
  | mip n => exact ⟨h.setMip n, rfl, rfl⟩
  | boundary => exact ⟨h.boundary, rfl, rfl⟩
  | output | port1Out | port2Out => exact ⟨h.appendOut _ h.acc, rfl, rfl⟩

/-- Only the latch of column 14 writes `MIP` and `ICOUNT` (R105). -/
theorem ColumnWrite.mip_icount {w : ControlWord} {s t : State} {c : Column} (hw : ColumnWrite w s c t)
    (hc : c ≠ .microLatchIp) : t.mip = s.mip ∧ t.icount = s.icount := by
  cases hw with
  | dataOut ht =>
    obtain ⟨-, rfl⟩ := State.dmemWrite_eq_some.1 ht
    exact ⟨rfl, rfl⟩
  | pop => simp
  | mip | boundary => exact absurd rfl hc
  | nothing | ip | ir | addr | alu | acc | output | dataIn | port1Out | port2Out => exact ⟨rfl, rfl⟩

/-- Without a data read a staged argument stays staged: the latch of `IP` stages the new one itself (R93). -/
theorem ColumnWrite.argStaged {w : ControlWord} {s t : State} {c : Column} (hw : ColumnWrite w s c t)
    (hdata : w.dataIn = false) (h : s.ArgStaged) : t.ArgStaged := by
  cases hw with
  | ip => rfl
  | dataIn hsel => simp [hdata] at hsel
  | dataOut ht =>
    obtain ⟨-, rfl⟩ := State.dmemWrite_eq_some.1 ht
    exact h
  | @pop q => cases q <;> exact h
  | nothing | ir | addr | alu | acc | output | mip | boundary | port1Out | port2Out => exact h

/-! From the primitives to a control word. -/

/-- The primitives of some columns in order: the part of `applyWord` over those columns. -/
def applyColumns (m : Microcode) (w : ControlWord) (cs : List Column) (r : TickResult) : TickResult :=
  cs.foldl (fun r c => r.andThen (primitive m w c)) r

/-- A property that the primitives of the columns keep, raising or not, is kept by applying them in order. -/
theorem applyColumns_induct (P : State → Prop) (m : Microcode) (w : ControlWord) (cs : List Column)
    (h : ∀ c ∈ cs, ∀ s, P s → P (primitive m w c s).state) (r : TickResult) (hr : P r.state) :
    P (applyColumns m w cs r).state := by
  induction cs generalizing r with
  | nil => exact hr
  | cons c cs ih =>
    refine ih (fun k hk => h k (List.mem_cons_of_mem c hk)) _ ?_
    cases r with
    | done s => exact h c List.mem_cons_self s hr
    | raised k s => exact hr

/-- After a raise no primitive is applied (R226). -/
theorem applyColumns_raised (m : Microcode) (w : ControlWord) (cs : List Column) (c : Cause) (s : State) :
    applyColumns m w cs (.raised c s) = .raised c s := by
  induction cs with
  | nil => rfl
  | cons k ks ih => exact ih

/-- The first action of a word is the latch of `IP` (R81, R89). -/
theorem applyWord_eq_after_latchIp (m : Microcode) (w : ControlWord) (s : State) :
    applyWord m w s = applyColumns m w (Column.all.drop 3) (primLatchIp w s) := rfl

/-- The columns before the micro latch, the micro latch, and the two ports after it (R81, R89). -/
theorem applyWord_eq_around_microLatchIp (m : Microcode) (w : ControlWord) (s : State) :
    applyWord m w s =
      (((applyColumns m w (Column.all.take 14) (.done s)).andThen (primMicroLatchIp m w)).andThen
        (primPort1Out w)).andThen (primPort2Out w) :=
  List.foldl_append (l := Column.all.take 14) (l' := [.microLatchIp, .port1Out, .port2Out])

theorem applyWord_tickFrame (m : Microcode) (w : ControlWord) {s : State} (h : s.DataSound) :
    TickFrame s (applyWord m w s).state :=
  applyWord_induct (TickFrame s) m w
    (fun c t ht => ht.trans ((primitive_columnWrite m w c t).tickFrame ht.data)) s (.refl h)

theorem applyWord_argStaged (m : Microcode) {w : ControlWord} (hdata : w.dataIn = false) {s : State}
    (h : s.ArgStaged) : (applyWord m w s).state.ArgStaged :=
  applyWord_induct State.ArgStaged m w
    (fun c t ht => (primitive_columnWrite m w c t).argStaged hdata ht) s h

/-- A completed word that latches `IP` and reads no cell leaves the argument staged, whatever was staged before (R93). -/
theorem argStaged_of_latchIp (m : Microcode) {w : ControlWord} (hlatch : w.latchIp = true) (hdata : w.dataIn = false)
    {s t : State} (h : applyWord m w s = .done t) : t.ArgStaged := by
  rw [applyWord_eq_after_latchIp] at h
  obtain ⟨hn, -⟩ | ⟨-, -, he⟩ | ⟨-, -, he⟩ := primLatchIp_cases w s
  · simp [hlatch] at hn
  · have hall := applyColumns_induct State.ArgStaged m w (Column.all.drop 3)
      (fun c _ u hu => (primitive_columnWrite m w c u).argStaged hdata hu) (.done (s.setIp (ipMux w s))) rfl
    rwa [← he, h] at hall
  · rw [he, applyColumns_raised] at h
    cases h

/-- The columns before the micro latch leave `MIP` and `ICOUNT` as they were. -/
theorem applyColumns_before_microLatchIp (m : Microcode) (w : ControlWord) (s : State) :
    (applyColumns m w (Column.all.take 14) (.done s)).state.mip = s.mip ∧
      (applyColumns m w (Column.all.take 14) (.done s)).state.icount = s.icount := by
  refine applyColumns_induct (fun u => u.mip = s.mip ∧ u.icount = s.icount) m w _ ?_ (.done s) ⟨rfl, rfl⟩
  intro c hc u hu
  have hne : c ≠ .microLatchIp := by
    rintro rfl
    exact absurd hc (by decide)
  obtain ⟨hm, hi⟩ := (primitive_columnWrite m w c u).mip_icount hne
  exact ⟨hm.trans hu.1, hi.trans hu.2⟩

/-- The micro latch raises in the state it was given. -/
theorem primMicroLatchIp_raised {m : Microcode} {w : ControlWord} {s t : State} {c : Cause}
    (h : primMicroLatchIp m w s = .raised c t) : t = s := by
  obtain ⟨-, he⟩ | ⟨-, -, -, he⟩ | ⟨-, -, -, he⟩ | ⟨-, -, -, he⟩ | ⟨-, -, o, -, -, he⟩ | ⟨-, -, o, -, -, he⟩ |
    ⟨-, -, he⟩ | ⟨-, -, he⟩ := primMicroLatchIp_cases m w s <;> rw [he] at h <;> cases h <;> rfl

/-- The ports raise nothing and leave `MIP` and `ICOUNT` as they were. -/
theorem applyPorts_done (w : ControlWord) (s : State) :
    ∃ t, (primPort1Out w s).andThen (primPort2Out w) = .done t ∧ t.mip = s.mip ∧ t.icount = s.icount := by
  unfold primPort1Out primPort2Out
  cases w.port1Out <;> cases w.port2Out <;> exact ⟨_, rfl, rfl, rfl⟩

/-- What a control word does to `MIP` and `ICOUNT`: nothing when it raises, and what the micro latch does, on the values before
the tick, when it completes (R105, R226). -/
theorem applyWord_mip_icount (m : Microcode) (w : ControlWord) (s : State) :
    (∃ c t, applyWord m w s = .raised c t ∧ t.mip = s.mip ∧ t.icount = s.icount) ∨
    (∃ t u v, applyWord m w s = .done t ∧ primMicroLatchIp m w u = .done v ∧
      (u.mip = s.mip ∧ u.icount = s.icount) ∧ t.mip = v.mip ∧ t.icount = v.icount) := by
  have hbefore := applyColumns_before_microLatchIp m w s
  rw [applyWord_eq_around_microLatchIp]
  cases hr : applyColumns m w (Column.all.take 14) (.done s) with
  | raised c t =>
    rw [hr] at hbefore
    exact .inl ⟨c, t, rfl, hbefore⟩
  | done u =>
    rw [hr] at hbefore
    rw [TickResult.andThen_done]
    cases hv : primMicroLatchIp m w u with
    | raised c t =>
      obtain rfl := primMicroLatchIp_raised hv
      exact .inl ⟨c, t, rfl, hbefore⟩
    | done v =>
      obtain ⟨t, ht, hport⟩ := applyPorts_done w v
      exact .inr ⟨t, u, v, ht, hv, hbefore, hport⟩

/-! The words of the reference ROM. -/

/-- Every word moves `MIP`; the fetch word reads no cell; and a word that ends a block stands inside one, latches `IP` and reads
no cell (R127). -/
theorem referenceMicrocode_word {k : Nat} {w : ControlWord} (h : referenceMicrocode.rom[k]? = some w) :
    w.microLatchIp = true ∧ (k = 0 → w.dataIn = false) ∧
      (w.microSelIp = 2 → k ≠ 0 ∧ w.latchIp = true ∧ w.dataIn = false) := by
  cases k with
  | zero =>
    cases h
    decide
  | succ k =>
    have hall : ∀ w ∈ referenceMicrocode.rom.tail,
        w.microLatchIp = true ∧ (w.microSelIp = 2 → w.latchIp = true ∧ w.dataIn = false) := by decide
    obtain ⟨hlatch, hend⟩ := hall w (List.mem_of_getElem? (i := k) (by rwa [List.getElem?_tail]))
    exact ⟨hlatch, fun h0 => absurd h0 k.succ_ne_zero, fun hsel => ⟨k.succ_ne_zero, hend hsel⟩⟩

/-- No block begins at the fetch word (R126). -/
theorem referenceMicrocode_entry_ne_zero {code o : Nat} (h : referenceMicrocode.entry code = some o) : o ≠ 0 := by
  have hall : ∀ e ∈ referenceMicrocode.index, e.2 ≠ 0 := by decide
  obtain ⟨e, he, rfl⟩ := Option.map_eq_some_iff.1 h
  exact hall e (List.mem_of_find?_eq_some he)

/-- A micro latch that completes under a word of the reference ROM goes to a word of a block, or back to the fetch word under
select 2 (R105). -/
theorem primMicroLatchIp_reference {w : ControlWord} {u v : State} (hlatch : w.microLatchIp = true)
    (h : primMicroLatchIp referenceMicrocode w u = .done v) :
    (v.mip ≠ 0 ∧ v.mip < referenceMicrocode.rom.length ∧ v.icount = u.icount) ∨
    (w.microSelIp = 2 ∧ v.mip = 0 ∧ v.icount = u.icount + 1) := by
  obtain ⟨hn, -⟩ | ⟨-, -, hlt, he⟩ | ⟨-, -, -, he⟩ | ⟨-, -, -, he⟩ | ⟨-, -, o, ho, hlt, he⟩ | ⟨-, -, o, -, -, he⟩ |
    ⟨-, hsel, he⟩ | ⟨-, -, he⟩ := primMicroLatchIp_cases referenceMicrocode w u
  · simp [hlatch] at hn
  all_goals rw [he] at h; cases h
  · exact .inl ⟨Nat.succ_ne_zero _, hlt, rfl⟩
  · exact .inl ⟨referenceMicrocode_entry_ne_zero ho, hlt, rfl⟩
  · exact .inr ⟨hsel, rfl, rfl⟩

/-- The tick at a word of the reference ROM is one that keeps a sound state sound. -/
theorem soundTick_applyWord {s : State} (h : s.sound = true) {w : ControlWord}
    (hw : referenceMicrocode.rom[s.mip]? = some w) : SoundTick s (applyWord referenceMicrocode w s) := by
  obtain ⟨hdata, hcontrol⟩ := s.sound_iff.1 h
  obtain ⟨hlatch, hfetch, hend⟩ := referenceMicrocode_word hw
  have hframe := applyWord_tickFrame referenceMicrocode w hdata
  obtain ⟨c, t, he, hmip, hicount⟩ | ⟨t, u, v, he, hv, ⟨hum, hui⟩, hmip, hicount⟩ :=
    applyWord_mip_icount referenceMicrocode w s
  · rw [he] at hframe ⊢
    refine .raised hframe hicount hmip (fun h0 => ?_)
    have hstaged := applyWord_argStaged referenceMicrocode (hfetch h0) (hcontrol.staged h0)
    rwa [he] at hstaged
  · rw [he] at hframe ⊢
    obtain ⟨hne, hlt, hi⟩ | ⟨hsel, h0, hi⟩ := primMicroLatchIp_reference hlatch hv
    · exact .inBlock hframe (by rw [hicount, hi, hui]) (hmip ▸ hne) (hmip ▸ hlt)
    · obtain ⟨hbegan, hip, hdataIn⟩ := hend hsel
      exact .lastOfBlock hframe (by rw [hicount, hi, hui]) hbegan (hmip.trans h0)
        (argStaged_of_latchIp referenceMicrocode hip hdataIn he)

/-- Settles O35: the loop body around a word of the reference ROM, once it is known what the word can do to `MIP`, `ICOUNT` and
the staged argument. -/
theorem tickKeepsStateSound : Obligations.TickKeepsStateSound := by
  intro s t h ht
  unfold tick at ht
  obtain ⟨c, -, he⟩ | ⟨-, -, he⟩ | ⟨-, -, -, he⟩ | ⟨-, -, w, hw, he⟩ := tickOf_cases referenceMicrocode s <;>
    rw [he] at ht <;> cases ht
  · exact h
  · exact controlTick_sound h (fun _ => soundTick_applyWord h hw)

end Sys2Proof.Machine
end

section
/-! PROOFS. The meaning of every instruction keeps a state sound: its ticks are the fetch, the mode program, the operation and the
last tick (32_microcode_rom.md R121 to R124), and each keeps the state sound where it stands in its block. -/

namespace Sys2Proof.Machine

/-! The ticks of an instruction by its mode and its opcode. -/

/-- The ticks of the mode program of an instruction (R123). -/
def modeTicks (i : Instr) : List (State → TickResult) :=
  match i.mode with
  | .direct | .labelAddr => [argCellTick i.arg]
  | .indirect => [argCellTick i.arg, pointerCellTick]
  | .none | .labelValue => []

/-- The operation tick of ADD, SUB and LOAD in each of their modes (41_memory_ops.md R164). -/
def operandTick (fn : AluFn) (i : Instr) : State → TickResult :=
  if i.mode = .labelValue then valueOperandTick fn i.arg else cellOperandTick fn

/-- The operation ticks of an instruction, one at most (R124). -/
def operationTicks (i : Instr) : List (State → TickResult) :=
  match i.opcode with
  | .inc => [unaryTick .inc]
  | .dec => [unaryTick .dec]
  | .cls => [unaryTick .cls]
  | .neg => [unaryTick .neg]
  | .add => [operandTick .add i]
  | .sub => [operandTick .sub i]
  | .load => [operandTick .pass i]
  | .store => [storeTick]
  | .input => [inputTick .in0]
  | .port1In => [inputTick .p1in]
  | .port2In => [inputTick .p2in]
  | .output => [outputTick .out0]
  | .port1Out => [outputTick .p1out]
  | .port2Out => [outputTick .p2out]
  | .jmp | .jmpz | .hlt => []

/-- The address that the last tick of an instruction latches (R122, R124). -/
def nextAddress (i : Instr) (s : State) : Int :=
  match i.opcode with
  | .jmp => i.arg
  | .jmpz => if s.z then i.arg else s.nextIp
  | _ => s.nextIp

/-- The ticks between the fetch and the last tick. -/
def middleTicks (i : Instr) : List (State → TickResult) := modeTicks i ++ operationTicks i

/-- The meaning of HLT is its halting fetch (43_control.md R204). -/
theorem exec_hlt (s : State) : exec .hlt s = .next (runTicks [haltTick 160] s) := rfl

/-- Every other meaning is the fetch, the middle ticks and the latch of the next address, and the block that the fetch enters
stands inside the ROM, after the fetch word (R126). -/
theorem exec_eq_block {i : Instr} (h : i ≠ .hlt) (s : State) :
    ∃ entry, entry ≠ 0 ∧ entry + (middleTicks i).length < referenceMicrocode.rom.length ∧
      exec i s = .next (runTicks (fetchTick (encode i).code entry ::
        (middleTicks i ++ [fun t => latchTick (nextAddress i t) t])) s) := by
  rw [referenceMicrocode_rom_length]
  cases i with
  | hlt => exact absurd rfl h
  | _ => exact ⟨_, Nat.succ_ne_zero _, of_decide_eq_true rfl, rfl⟩

/-! The ticks inside a block. -/

/-- What a tick inside a block does to a state with sound data: it advances `MIP` by one, or raises. -/
inductive BlockTick (s : State) : TickResult → Prop where
  | advanced {t : State} (frame : TickFrame s t) (icount : t.icount = s.icount) (mip : t.mip = s.mip + 1) :
      BlockTick s (.done t)
  | raised {c : Cause} {t : State} (frame : TickFrame s t) (icount : t.icount = s.icount) (mip : t.mip = s.mip) :
      BlockTick s (.raised c t)

/-- A tick inside a block keeps the state sound while the next word is one of the ROM. -/
theorem BlockTick.soundTick {s : State} {r : TickResult} (h : BlockTick s r) (hbegan : s.mip ≠ 0)
    (hrom : s.mip + 1 < referenceMicrocode.rom.length) : SoundTick s r := by
  cases h with
  | advanced frame icount mip => exact .inBlock frame icount (mip ▸ s.mip.succ_ne_zero) (mip ▸ hrom)
  | raised frame icount mip => exact .raised frame icount mip (fun h0 => absurd h0 hbegan)

/-- Latching the address of a cell and reading it (41_memory_ops.md R161, R162). -/
theorem blockTick_readCell {s : State} (h : s.DataSound) {a : Int} (ha : fitsWord s.cfg.width a = true) :
    BlockTick s (readCellTick a s) := by
  have haddr := h.setAr ha
  obtain ⟨v, hv, he⟩ | ⟨-, he⟩ := readCellTick_cases a s <;> rw [he]
  · exact .advanced ⟨(haddr.setMdr (h.dmemRead hv)).advance, rfl, rfl⟩ rfl rfl
  · exact .raised ⟨haddr, rfl, rfl⟩ rfl rfl

/-- Computing on a word and committing the result (31_control_word.md R99, R100). -/
theorem blockTick_alu {s : State} (h : s.DataSound) (fn : AluFn) {x : Int} (hx : fitsWord s.cfg.width x = true) :
    BlockTick s (aluTick fn x s) := by
  have hresult := fitsWord_aluResult (Config.width_pos h.params) fn s.acc hx
  exact .advanced ⟨(h.setAlu hresult).commitAlu.advance, rfl, rfl⟩ rfl rfl

theorem blockTick_operand {s : State} (h : s.DataSound) (fn : AluFn) {i : Instr}
    (ha : fitsWord s.cfg.width i.arg = true) : BlockTick s (operandTick fn i s) := by
  unfold operandTick
  split
  · exact blockTick_alu h fn ha
  · exact blockTick_alu h fn h.opr

theorem blockTick_input {s : State} (h : s.DataSound) (q : InQueue) : BlockTick s (inputTick q s) := by
  obtain ⟨v, rest, hq, he⟩ | ⟨-, he⟩ := inputTick_cases q s <;> rw [he]
  · obtain ⟨hv, hrest⟩ := h.pop hq
    refine .advanced ⟨(hrest.setAlu ?_).commitAlu.advance, ?_, ?_⟩ ?_ ?_ <;> simp [hv]
  · exact .raised (.refl h) rfl rfl

theorem blockTick_output {s : State} (h : s.DataSound) (q : OutQueue) : BlockTick s (outputTick q s) := by
  rw [outputTick_eq]
  refine .advanced ⟨(h.appendOut q h.acc).advance, ?_, ?_⟩ ?_ ?_ <;> simp

theorem blockTick_store {s : State} (h : s.DataSound) : BlockTick s (storeTick s) := by
  obtain ⟨t, ht, he⟩ | ⟨-, he⟩ := storeTick_cases s <;> rw [he]
  · have hdata := h.dmemWrite h.acc ht
    obtain ⟨-, rfl⟩ := State.dmemWrite_eq_some.1 ht
    exact .advanced ⟨hdata.advance, rfl, rfl⟩ rfl rfl
  · exact .raised (.refl h) rfl rfl

/-- The ticks of a mode program read a cell at the argument or at the pointer just read (41_memory_ops.md R163). -/
theorem blockTick_of_mem_modeTicks {i : Instr} {f : State → TickResult} (hf : f ∈ modeTicks i) {s : State}
    (h : s.DataSound) (ha : fitsWord s.cfg.width i.arg = true) : BlockTick s (f s) := by
  have hmem : f = argCellTick i.arg ∨ f = pointerCellTick := by
    unfold modeTicks at hf
    cases hm : i.mode <;> rw [hm] at hf
    case direct | labelAddr => exact .inl (List.mem_singleton.1 hf)
    case indirect => simpa using hf
    case none | labelValue => cases hf
  obtain rfl | rfl := hmem
  · exact blockTick_readCell h ha
  · exact blockTick_readCell h h.mdr

theorem blockTick_of_mem_operationTicks {i : Instr} {f : State → TickResult} (hf : f ∈ operationTicks i) {s : State}
    (h : s.DataSound) (ha : fitsWord s.cfg.width i.arg = true) : BlockTick s (f s) := by
  unfold operationTicks at hf
  cases ho : i.opcode <;> rw [ho] at hf
  case jmp | jmpz | hlt => cases hf
  all_goals rw [List.mem_singleton.1 hf]
  case inc | dec | cls | neg => exact blockTick_alu h _ h.acc
  case add | sub | load => exact blockTick_operand h _ ha
  case store => exact blockTick_store h
  case input | port1In | port2In => exact blockTick_input h _
  case output | port1Out | port2Out => exact blockTick_output h _

theorem blockTick_of_mem_middleTicks {i : Instr} {f : State → TickResult} (hf : f ∈ middleTicks i) {s : State}
    (h : s.DataSound) (ha : fitsWord s.cfg.width i.arg = true) : BlockTick s (f s) :=
  (List.mem_append.1 hf).elim (blockTick_of_mem_modeTicks · h ha) (blockTick_of_mem_operationTicks · h ha)

/-! The ticks at the ends of a block. -/

/-- A fetch that enters a block of the ROM (R143). -/
theorem soundTick_fetch {s : State} (h : s.DataSound) (code : BitVec 8) {entry : Nat} (h0 : entry ≠ 0)
    (hrom : entry < referenceMicrocode.rom.length) : SoundTick s (fetchTick code entry s) :=
  .inBlock ⟨(h.setIr code).setMip entry, rfl, rfl⟩ rfl h0 hrom

/-- The halting fetch writes `IR` alone (43_control.md R204). -/
theorem soundTick_halt {s : State} (h : s.sound = true) (code : BitVec 8) : SoundTick s (haltTick code s) := by
  obtain ⟨hdata, hcontrol⟩ := s.sound_iff.1 h
  exact .raised ⟨hdata.setIr code, rfl, rfl⟩ rfl rfl hcontrol.staged

/-- The last tick of a block, wherever it goes (31_control_word.md R93). -/
theorem soundTick_latch {s : State} (h : s.DataSound) (hbegan : s.mip ≠ 0) (new : Int) :
    SoundTick s (latchTick new s) := by
  obtain ⟨hr, he⟩ | ⟨-, he⟩ := latchTick_cases new s <;> rw [he]
  · exact .lastOfBlock ⟨(h.setIp hr).boundary, rfl, rfl⟩ rfl hbegan rfl rfl
  · exact .raised (.refl h) rfl rfl (fun h0 => absurd h0 hbegan)

/-! From the ticks to the instruction. -/

theorem runTicks_append (fs gs : List (State → TickResult)) (s : State) :
    runTicks (fs ++ gs) s = runTicks gs (runTicks fs s) := List.foldl_append

/-- Inside a block with room for `n` more words: a sound state of a run with parameters `c` that has stopped, or stands at a word
of the ROM after the fetch word with `n` more words above it. -/
structure State.InBlock (c : Config) (n : Nat) (s : State) : Prop where
  sound : s.sound = true
  cfg : s.cfg = c
  room : s.status = .running → s.mip ≠ 0 ∧ s.mip + n < referenceMicrocode.rom.length

/-- The loop body leads into a block when its tick, if it completes, does. -/
theorem inBlock_controlTick {n : Nat} {s : State} {f : State → TickResult} (h : s.sound = true)
    (hf : s.status = .running → SoundTick s (f s))
    (hroom : ∀ t, s.status = .running → f s = .done t → t.mip ≠ 0 ∧ t.mip + n < referenceMicrocode.rom.length) :
    (controlTick f s).InBlock s.cfg n := by
  have hsound := controlTick_sound h hf
  obtain ⟨c, hs, he⟩ | ⟨-, -, he⟩ | ⟨hrun, -, t, ht, he⟩ | ⟨hrun, -, c, t, ht, he⟩ := controlTick_cases f s <;>
    rw [he] at hsound ⊢
  · exact ⟨hsound, rfl, fun hrun => by simp [hrun] at hs⟩
  · exact ⟨hsound, rfl, fun hstop => by simp at hstop⟩
  all_goals
    have hframe := (hf hrun).frame
    rw [ht] at hframe
  · exact ⟨hsound, hframe.cfg, fun _ => hroom t hrun ht⟩
  · exact ⟨hsound, hframe.cfg, fun hstop => by simp at hstop⟩

/-- A tick inside a block uses up one word of the room. -/
theorem State.InBlock.controlTick {c : Config} {n : Nat} {s : State} {f : State → TickResult} (h : s.InBlock c (n + 1))
    (hf : BlockTick s (f s)) : (controlTick f s).InBlock c n := by
  obtain ⟨hsound, rfl, hroom⟩ := h
  refine inBlock_controlTick hsound (fun hrun => ?_) (fun t hrun ht => ?_) <;> obtain ⟨hbegan, hrom⟩ := hroom hrun
  · exact hf.soundTick hbegan (by omega)
  · rw [ht] at hf
    cases hf with
    | advanced frame icount mip => omega

/-- The middle ticks of an instruction use up one word of the room each. -/
theorem State.InBlock.runTicks {c : Config} {fs : List (State → TickResult)} {s : State} (h : s.InBlock c fs.length)
    (hfs : ∀ f ∈ fs, ∀ t : State, t.DataSound → t.cfg = c → BlockTick t (f t)) : (runTicks fs s).InBlock c 0 := by
  induction fs generalizing s with
  | nil => exact h
  | cons f fs ih =>
    have hf := hfs f List.mem_cons_self s (s.sound_iff.1 h.sound).1 h.cfg
    exact ih (h.controlTick hf) (fun g hg => hfs g (List.mem_cons_of_mem f hg))

/-- A fetch leads into the block that it enters. -/
theorem inBlock_fetch {s : State} (h : s.sound = true) (code : BitVec 8) {entry n : Nat} (h0 : entry ≠ 0)
    (hrom : entry + n < referenceMicrocode.rom.length) : (controlTick (fetchTick code entry) s).InBlock s.cfg n := by
  refine inBlock_controlTick h (fun _ => ?_) (fun t _ ht => ?_)
  · exact soundTick_fetch (s.sound_iff.1 h).1 code h0 (by omega)
  · cases ht
    exact ⟨h0, hrom⟩

/-- The meaning of an instruction whose argument is a word keeps a state sound. -/
theorem exec_sound {i : Instr} {s t : State} (h : s.sound = true) (ha : fitsWord s.cfg.width i.arg = true)
    (ht : exec i s = .next t) : t.sound = true := by
  by_cases hi : i = .hlt
  · rw [hi, exec_hlt, runTicks_cons, runTicks_nil] at ht
    injection ht with ht
    rw [← ht]
    exact controlTick_sound h (fun _ => soundTick_halt h 160)
  · obtain ⟨entry, h0, hrom, he⟩ := exec_eq_block hi s
    rw [he, runTicks_cons, runTicks_append, runTicks_cons, runTicks_nil] at ht
    injection ht with ht
    have hblock := (inBlock_fetch h (encode i).code h0 hrom).runTicks
      (fun f hf u hu hc => blockTick_of_mem_middleTicks hf hu (hc ▸ ha))
    rw [← ht]
    exact controlTick_sound hblock.sound
      (fun hrun => soundTick_latch (State.sound_iff _ |>.1 hblock.sound).1 (hblock.room hrun).1 _)

/-! From the instruction to the step. -/

/-- A fetch from a sound state finds an instruction whose argument is a word. -/
theorem fitsWord_arg_of_fetch {s : State} (h : s.DataSound) {i : Instr} (hi : s.fetch = .instr i) :
    fitsWord s.cfg.width i.arg = true := by
  obtain ⟨-, he⟩ | ⟨-, -, he⟩ | ⟨-, -, j, hj, he⟩ | ⟨-, -, -, he⟩ := s.fetch_cases <;> rw [he] at hi <;> cases hi
  exact fitsWord_arg_of_decode (h.imemRead_arg s.ip) hj

/-- A fetch that stops leaves the state sound: it writes `IR` and the cause alone. -/
theorem sound_of_fetch_stop {s t : State} (h : s.sound = true) (ht : s.fetch = .stop t) : t.sound = true := by
  obtain ⟨-, he⟩ | ⟨-, -, he⟩ | ⟨-, -, i, -, he⟩ | ⟨-, -, -, he⟩ := s.fetch_cases <;> rw [he] at ht <;> cases ht <;> exact h

/-- Settles O34: a step is a fetch that stops, the meaning of the instruction fetched, or a tick of the reference ROM. -/
theorem stepKeepsStateSound : Obligations.StepKeepsStateSound := by
  intro s t h ht
  obtain ⟨c, -, he⟩ | ⟨-, -, he⟩ | ⟨-, -, -, i, hi, he⟩ | ⟨-, -, -, u, hu, he⟩ | ⟨-, -, -, he⟩ := step_cases s <;>
    rw [he] at ht
  · cases ht
    exact h
  · cases ht
  · exact exec_sound h (fitsWord_arg_of_fetch (s.sound_iff.1 h).1 hi) ht
  · cases ht
    exact sound_of_fetch_stop h hu
  · exact tickKeepsStateSound s t h ht

end Sys2Proof.Machine
end

section
/-! PROOFS. What the ticks of an instruction can write, said once, and from it the frame of every instruction and the common
write of `ACC` and `Z` (10_state.md R10, R15, R27, R28; 41_memory_ops.md R161 to R166; 42_io.md R183 to R188). -/

namespace Sys2Proof.Machine

/-- The ten instructions that write the accumulator (R10). -/
abbrev accWriters : List Opcode :=
  [.inc, .dec, .cls, .neg, .add, .sub, .load, .input, .port1In, .port2In]

/-- The instruction that takes elements from an input queue (42_io.md R183, R185, R187). -/
def InQueue.reader : InQueue → Opcode
  | .in0 => .input
  | .p1in => .port1In
  | .p2in => .port2In

/-- The instruction that appends to an output sequence (42_io.md R184, R186, R188). -/
def OutQueue.writer : OutQueue → Opcode
  | .out0 => .output
  | .p1out => .port1Out
  | .p2out => .port2Out

theorem InQueue.reader_mem_accWriters (q : InQueue) : q.reader ∈ accWriters := by cases q <;> decide

/-! The queues of a state, by their names. -/

theorem State.inQueue_setInQueue (s : State) (q r : InQueue) (l : List Int) :
    (s.setInQueue q l).inQueue r = if q = r then l else s.inQueue r := by
  cases q <;> cases r <;> rfl

theorem State.outQueue_appendOut (s : State) (q r : OutQueue) (v : Int) :
    (s.appendOut q v).outQueue r = if q = r then s.outQueue r ++ [v] else s.outQueue r := by
  cases q <;> cases r <;> rfl

theorem State.outQueue_setInQueue (s : State) (q : InQueue) (l : List Int) (r : OutQueue) :
    (s.setInQueue q l).outQueue r = s.outQueue r := by
  cases q <;> rfl

theorem State.inQueue_appendOut (s : State) (q : OutQueue) (v : Int) (r : InQueue) :
    (s.appendOut q v).inQueue r = s.inQueue r := by
  cases q <;> rfl

/-- The writes that the ticks of an instruction make: what a tick leaves, completing or raising, and the controller's own. -/
inductive InstrWrite (i : Instr) (s : State) : State → Prop where
  | nothing : InstrWrite i s s
  | halt (code : BitVec 8) : InstrWrite i s (s.setIr code)
  | fetch (code : BitVec 8) (entry : Nat) : InstrWrite i s ((s.setIr code).setMip entry)
  | badAddr (mode : ¬ (i.mode = .none ∨ i.mode = .labelValue)) (a : Int) : InstrWrite i s (s.setAr a)
  | cell (mode : ¬ (i.mode = .none ∨ i.mode = .labelValue)) (a v : Int) :
      InstrWrite i s ((s.setAr a).setMdr v).advance
  | result (opcode : i.opcode ∈ accWriters) (r : Int) : InstrWrite i s ((s.setAlu r).commitAlu).advance
  | pop {q : InQueue} {v : Int} {rest : List Int} (opcode : i.opcode = q.reader) (queue : s.inQueue q = v :: rest) :
      InstrWrite i s (((s.setInQueue q rest).setAlu v).commitAlu).advance
  | append {q : OutQueue} (opcode : i.opcode = q.writer) : InstrWrite i s (s.appendOut q s.acc).advance
  | store (opcode : i.opcode = .store) :
      InstrWrite i s ({ s with dmem := s.dmem.write s.ar.toNat s.acc } : State).advance
  | latch (new : Int) : InstrWrite i s (s.setIp new).boundary
  | count : InstrWrite i s s.countTick
  | stop (c : Cause) : InstrWrite i s (s.stop c)

/-! Every tick of an instruction makes one of these writes. -/

theorem instrWrite_readCell {i : Instr} (hmode : ¬ (i.mode = .none ∨ i.mode = .labelValue)) (a : Int) (s : State) :
    InstrWrite i s (readCellTick a s).state := by
  obtain ⟨v, -, he⟩ | ⟨-, he⟩ := readCellTick_cases a s <;> rw [he]
  exacts [.cell hmode a v, .badAddr hmode a]

theorem instrWrite_operand {i : Instr} (hop : i.opcode ∈ accWriters) (fn : AluFn) (s : State) :
    InstrWrite i s (operandTick fn i s).state := by
  unfold operandTick
  split <;> exact .result hop _

theorem instrWrite_input {i : Instr} {q : InQueue} (hop : i.opcode = q.reader) (s : State) :
    InstrWrite i s (inputTick q s).state := by
  obtain ⟨v, rest, hq, he⟩ | ⟨-, he⟩ := inputTick_cases q s <;> rw [he]
  exacts [.pop hop hq, .nothing]

theorem instrWrite_store {i : Instr} (hop : i.opcode = .store) (s : State) : InstrWrite i s (storeTick s).state := by
  obtain ⟨t, ht, he⟩ | ⟨-, he⟩ := storeTick_cases s <;> rw [he]
  · obtain ⟨-, rfl⟩ := State.dmemWrite_eq_some.1 ht
    exact .store hop
  · exact .nothing

theorem instrWrite_latch (i : Instr) (new : Int) (s : State) : InstrWrite i s (latchTick new s).state := by
  obtain ⟨-, he⟩ | ⟨-, he⟩ := latchTick_cases new s <;> rw [he]
  exacts [.latch new, .nothing]

theorem instrWrite_of_mem_modeTicks {i : Instr} {f : State → TickResult} (hf : f ∈ modeTicks i) (s : State) :
    InstrWrite i s (f s).state := by
  unfold modeTicks at hf
  cases hm : i.mode <;> rw [hm] at hf
  case none | labelValue => cases hf
  case direct | labelAddr =>
    rw [List.mem_singleton.1 hf]
    exact instrWrite_readCell (by simp [hm]) _ s
  case indirect =>
    have hmem : f = argCellTick i.arg ∨ f = pointerCellTick := by simpa using hf
    obtain rfl | rfl := hmem <;> exact instrWrite_readCell (by simp [hm]) _ s

theorem instrWrite_of_mem_operationTicks {i : Instr} {f : State → TickResult} (hf : f ∈ operationTicks i) (s : State) :
    InstrWrite i s (f s).state := by
  unfold operationTicks at hf
  cases ho : i.opcode <;> rw [ho] at hf
  case jmp | jmpz | hlt => cases hf
  all_goals rw [List.mem_singleton.1 hf]
  case inc | dec | cls | neg => exact .result (by simp [ho]) _
  case add | sub | load => exact instrWrite_operand (by simp [ho]) _ s
  case store => exact instrWrite_store ho s
  case input | port1In | port2In => exact instrWrite_input ho s
  case output | port1Out | port2Out => exact .append ho

/-- The meaning of an instruction is a sequence of ticks that make its writes. -/
theorem exec_eq_writes (i : Instr) (s : State) :
    ∃ fs, exec i s = .next (runTicks fs s) ∧ ∀ f ∈ fs, ∀ u, InstrWrite i u (f u).state := by
  by_cases hi : i = .hlt
  · refine ⟨[haltTick 160], by rw [hi, exec_hlt], fun f hf u => ?_⟩
    rw [List.mem_singleton.1 hf]
    exact .halt 160
  · obtain ⟨entry, -, -, he⟩ := exec_eq_block hi s
    refine ⟨_, he, fun f hf u => ?_⟩
    simp only [middleTicks, List.mem_cons, List.mem_append, List.not_mem_nil, or_false] at hf
    obtain rfl | (hf | hf) | rfl := hf
    · exact .fetch _ _
    · exact instrWrite_of_mem_modeTicks hf u
    · exact instrWrite_of_mem_operationTicks hf u
    · exact instrWrite_latch i _ u

/-- What holds before an instruction and is kept by each of its writes holds of the state that it leaves. -/
theorem exec_induct (P : State → Prop) {i : Instr} (hP : ∀ u v, P u → InstrWrite i u v → P v) {s t : State} (hs : P s)
    (h : exec i s = .next t) : P t := by
  obtain ⟨fs, he, hfs⟩ := exec_eq_writes i s
  rw [he] at h
  cases h
  refine runTicks_induct P fs s hs (fun f hf u hu => ?_)
  have hwrite := hP u _ hu (hfs f hf u)
  obtain ⟨c, -, hc⟩ | ⟨-, -, hc⟩ | ⟨-, -, v, hv, hc⟩ | ⟨-, -, c, v, hv, hc⟩ := controlTick_cases f u <;> rw [hc]
  · exact hu
  · exact hP u _ hu (.stop _)
  · rw [hv] at hwrite
    exact hP v _ hwrite .count
  · rw [hv] at hwrite
    exact hP v _ hwrite (.stop c)

/-- What each write of an instruction leaves as it was, the instruction leaves as it was. -/
theorem exec_keeps {α : Type} (f : State → α) {i : Instr} (hf : ∀ u v, InstrWrite i u v → f v = f u) {s t : State}
    (h : exec i s = .next t) : f t = f s :=
  exec_induct (fun u => f u = f s) (fun u v hu hw => (hf u v hw).trans hu) rfl h

/-! What each write leaves as it was. -/

namespace InstrWrite

variable {i : Instr} {s t : State}

theorem cfg (h : InstrWrite i s t) : t.cfg = s.cfg := by
  cases h with
  | pop | append => simp
  | _ => rfl

theorem imem (h : InstrWrite i s t) : t.imem = s.imem := by
  cases h with
  | pop | append => simp
  | _ => rfl

/-- Only STORE writes data memory (R166). -/
theorem dmem (h : InstrWrite i s t) (hop : i.opcode ≠ .store) : t.dmem = s.dmem := by
  cases h with
  | store hstore => exact absurd hstore hop
  | pop | append => simp
  | _ => rfl

/-- Only the modes that read memory write `AR` and `MDR` (R164). -/
theorem ar_mdr (h : InstrWrite i s t) (hmode : i.mode = .none ∨ i.mode = .labelValue) :
    t.ar = s.ar ∧ t.mdr = s.mdr := by
  cases h with
  | badAddr hreads | cell hreads => exact absurd hmode hreads
  | pop | append => simp
  | _ => exact ⟨rfl, rfl⟩

/-- `ACC`, `Z` and the staged result are left alone, or all four are written together by one of the ten instructions. -/
theorem accumulator (h : InstrWrite i s t) :
    (t.acc = s.acc ∧ t.z = s.z ∧ t.aluOut = s.aluOut ∧ t.aluZ = s.aluZ) ∨
      (i.opcode ∈ accWriters ∧ t.z = decide (t.acc = 0) ∧ t.acc = t.aluOut ∧ t.z = t.aluZ) := by
  cases h with
  | result hop => exact .inr ⟨hop, rfl, rfl, rfl⟩
  | @pop q _ _ hop => exact .inr ⟨hop ▸ q.reader_mem_accWriters, rfl, rfl, rfl⟩
  | append => exact .inl (by simp)
  | _ => exact .inl ⟨rfl, rfl, rfl, rfl⟩

/-- An input queue keeps its elements or loses the first, the latter under its own instruction. -/
theorem inQueue (h : InstrWrite i s t) (q : InQueue) :
    t.inQueue q = s.inQueue q ∨ i.opcode = q.reader ∧ ∃ v, s.inQueue q = v :: t.inQueue q := by
  cases h with
  | @pop r v rest hop hqueue =>
    have hset := s.inQueue_setInQueue r q rest
    by_cases hr : r = q
    · subst hr
      rw [if_pos rfl] at hset
      exact .inr ⟨hop, v, hqueue.trans (congrArg _ hset.symm)⟩
    · rw [if_neg hr] at hset
      exact .inl hset
  | @append r => exact .inl (s.inQueue_appendOut r _ q)
  | _ => exact .inl rfl

/-- An output sequence keeps its elements, and gains one under its own instruction only. -/
theorem outQueue (h : InstrWrite i s t) (q : OutQueue) :
    t.outQueue q = s.outQueue q ∨ i.opcode = q.writer ∧ ∃ v, t.outQueue q = s.outQueue q ++ [v] := by
  cases h with
  | @pop r v rest => exact .inl (s.outQueue_setInQueue r rest q)
  | @append r hop =>
    have happend := s.outQueue_appendOut r q s.acc
    by_cases hr : r = q
    · subst hr
      rw [if_pos rfl] at happend
      exact .inr ⟨hop, _, happend⟩
    · rw [if_neg hr] at happend
      exact .inl happend
  | _ => exact .inl rfl

end InstrWrite

/-! The frame of an instruction. -/

section

variable {i : Instr} {s t : State}

theorem exec_acc_frame (hop : i.opcode ∉ accWriters) (h : exec i s = .next t) :
    t.acc = s.acc ∧ t.z = s.z ∧ t.aluOut = s.aluOut ∧ t.aluZ = s.aluZ := by
  refine exec_induct (fun u => u.acc = s.acc ∧ u.z = s.z ∧ u.aluOut = s.aluOut ∧ u.aluZ = s.aluZ)
    (fun u v hu hw => ?_) ⟨rfl, rfl, rfl, rfl⟩ h
  obtain ⟨ha, hz, ho, hf⟩ | ⟨hmem, -⟩ := hw.accumulator
  · rwa [ha, hz, ho, hf]
  · exact absurd hmem hop

theorem exec_ar_mdr_frame (hmode : i.mode = .none ∨ i.mode = .labelValue) (h : exec i s = .next t) :
    t.ar = s.ar ∧ t.mdr = s.mdr :=
  ⟨exec_keeps State.ar (fun _ _ hw => (hw.ar_mdr hmode).1) h, exec_keeps State.mdr (fun _ _ hw => (hw.ar_mdr hmode).2) h⟩

theorem exec_inQueue_frame {q : InQueue} (hop : i.opcode ≠ q.reader) (h : exec i s = .next t) :
    t.inQueue q = s.inQueue q :=
  exec_keeps (State.inQueue · q) (fun _ _ hw => (hw.inQueue q).resolve_right (fun hq => hop hq.1)) h

theorem exec_outQueue_frame {q : OutQueue} (hop : i.opcode ≠ q.writer) (h : exec i s = .next t) :
    t.outQueue q = s.outQueue q :=
  exec_keeps (State.outQueue · q) (fun _ _ hw => (hw.outQueue q).resolve_right (fun hq => hop hq.1)) h

end

/-- Settles O3: the writes of an instruction leave `ACC`, `Z` and the staged result alone or write all four. -/
theorem flagAndAccumulatorAreWrittenTogether : Obligations.FlagAndAccumulatorAreWrittenTogether := by
  intro i s t h
  refine exec_induct (fun u => (u.acc = s.acc ∧ u.z = s.z) ∨
    (i.opcode ∈ accWriters ∧ u.z = decide (u.acc = 0) ∧ u.acc = u.aluOut ∧ u.z = u.aluZ)) (fun u v hu hw => ?_)
    (.inl ⟨rfl, rfl⟩) h
  obtain ⟨ha, hz, ho, hf⟩ | hwritten := hw.accumulator
  · rwa [ha, hz, ho, hf]
  · exact .inr hwritten

/-- Settles O20: element by element, what every write of the instruction leaves as it was. -/
theorem everyInstructionFrame : Obligations.EveryInstructionFrame := by
  intro i s t h
  refine ⟨exec_keeps State.cfg (fun _ _ hw => hw.cfg) h, exec_keeps State.imem (fun _ _ hw => hw.imem) h,
    fun hop a => ?_, fun hmode => exec_ar_mdr_frame hmode h, fun hop => exec_acc_frame hop h,
    fun hop => exec_inQueue_frame (q := .in0) hop h, fun hop => exec_inQueue_frame (q := .p1in) hop h,
    fun hop => exec_inQueue_frame (q := .p2in) hop h, fun hop => exec_outQueue_frame (q := .out0) hop h,
    fun hop => exec_outQueue_frame (q := .p1out) hop h, fun hop => exec_outQueue_frame (q := .p2out) hop h⟩
  rw [exec_keeps State.dmem (fun _ _ hw => hw.dmem hop) h]

end Sys2Proof.Machine
end

section
/-! PROOFS. What a tick of any microcode and a step do to the queues and to `IP` (10_state.md R12, R27, R28; 31_control_word.md
R89 to R107; 50_control_unit.md R225, R226). -/

namespace Sys2Proof.Machine

/-! A tick that answers a next state. -/

/-- A tick that answers a next state is one of a stopped machine, or the loop body around the word at `MIP`. -/
theorem tickOf_next_cases {m : Microcode} {s t : State} (h : tickOf m s = .next t) :
    ((∃ c, s.status = .stopped c) ∧ t = s) ∨
    (s.status = .running ∧ s.ipInRange = true ∧ ∃ w, m.rom[s.mip]? = some w ∧ t = controlTick (applyWord m w) s) := by
  obtain ⟨c, hs, he⟩ | ⟨-, -, he⟩ | ⟨-, -, -, he⟩ | ⟨hs, hip, w, hw, he⟩ := tickOf_cases m s <;> rw [he] at h <;> cases h
  exacts [.inl ⟨⟨c, hs⟩, rfl⟩, .inr ⟨hs, hip, w, hw, rfl⟩]

/-- A tick leaves in each element that neither the count nor a stop touches what it was, or what the word at `MIP` makes of it. -/
theorem tickOf_unchanged_or_applied {α : Type} (f : State → α) (hcount : ∀ u : State, f u.countTick = f u)
    (hstop : ∀ (u : State) (c : Cause), f (u.stop c) = f u) {m : Microcode} {s t : State} {w : ControlWord}
    (hw : m.rom[s.mip]? = some w) (h : tickOf m s = .next t) : f t = f s ∨ f t = f (applyWord m w s).state := by
  obtain ⟨-, rfl⟩ | ⟨-, -, w', hw', rfl⟩ := tickOf_next_cases h
  · exact .inl rfl
  · obtain rfl : w' = w := Option.some.inj (hw'.symm.trans hw)
    obtain ⟨c, -, he⟩ | ⟨-, -, he⟩ | ⟨-, -, u, hu, he⟩ | ⟨-, -, c, u, hu, he⟩ := controlTick_cases (applyWord m w') s <;>
      rw [he]
    · exact .inl rfl
    · exact .inl (hstop s _)
    · rw [hu]
      exact .inr (hcount u)
    · rw [hu]
      exact .inr (hstop u c)

/-! The columns that write one element. -/

/-- What an element becomes that only the primitive of column `k` writes: a raise before that column leaves it, and otherwise
it is what the primitive makes of it, which a completed word has completed. -/
theorem applyWord_of_sole_writer {α : Type} (f : State → α) (k : Column) {m : Microcode} {w : ControlWord}
    (hf : ∀ c ≠ k, ∀ u, f (primitive m w c u).state = f u) (s : State) :
    (∃ c u, applyWord m w s = .raised c u ∧ f u = f s) ∨
    ∃ u, f u = f s ∧ f (applyWord m w s).state = f (primitive m w k u).state ∧
      ∀ t, applyWord m w s = .done t → ∃ v, primitive m w k u = .done v := by
  have hall : k ∈ Column.all := by cases k <;> decide
  have hnodup : Column.all.Nodup := by decide
  obtain ⟨before, after, hsplit⟩ := List.append_of_mem hall
  rw [hsplit, List.nodup_middle, List.nodup_cons, List.mem_append, not_or] at hnodup
  obtain ⟨⟨hbefore, hafter⟩, -⟩ := hnodup
  have hkeeps (cs : List Column) (hk : k ∉ cs) (r : TickResult) : f (applyColumns m w cs r).state = f r.state :=
    applyColumns_induct (fun u => f u = f r.state) m w cs
      (fun c hc u hu => (hf c (fun he => hk (he ▸ hc)) u).trans hu) r rfl
  have hword : applyWord m w s =
      applyColumns m w after ((applyColumns m w before (.done s)).andThen (primitive m w k)) := by
    unfold applyWord applyColumns
    rw [hsplit, List.foldl_append, List.foldl_cons]
  have hfirst := hkeeps before hbefore (.done s)
  rw [hword]
  cases hr : applyColumns m w before (.done s) with
  | raised c u =>
    rw [hr] at hfirst
    exact .inl ⟨c, u, by rw [TickResult.andThen_raised, applyColumns_raised], hfirst⟩
  | done u =>
    rw [hr] at hfirst
    refine .inr ⟨u, hfirst, hkeeps after hafter _, fun t ht => ?_⟩
    rw [TickResult.andThen_done] at ht
    cases hp : primitive m w k u with
    | done v => exact ⟨v, rfl⟩
    | raised c v =>
      rw [hp, applyColumns_raised] at ht
      cases ht

/-- The column that appends to an output sequence (31_control_word.md R101, R106, R107). -/
def OutQueue.column : OutQueue → Column
  | .out0 => .output
  | .p1out => .port1Out
  | .p2out => .port2Out

/-- The word sets the column that appends to an output sequence. -/
def ControlWord.appendsTo (w : ControlWord) : OutQueue → Bool
  | .out0 => w.output
  | .p1out => w.port1Out
  | .p2out => w.port2Out

/-- The value of `SEL_ALU_IN` that selects an input queue (R98). -/
def InQueue.select : InQueue → BitVec 2
  | .in0 => 1
  | .p1in => 2
  | .p2in => 3

namespace ColumnWrite

variable {w : ControlWord} {s t : State} {c : Column}

theorem ip_eq (h : ColumnWrite w s c t) (hc : c ≠ .latchIp) : t.ip = s.ip := by
  cases h with
  | ip => exact absurd rfl hc
  | pop => simp
  | dataOut ht =>
    obtain ⟨-, rfl⟩ := State.dmemWrite_eq_some.1 ht
    rfl
  | output | port1Out | port2Out => simp
  | _ => rfl

theorem outQueue (h : ColumnWrite w s c t) {q : OutQueue} (hc : c ≠ q.column) : t.outQueue q = s.outQueue q := by
  cases h with
  | output | port1Out | port2Out =>
    rw [State.outQueue_appendOut, if_neg]
    rintro rfl
    exact hc rfl
  | @pop r v rest => exact s.outQueue_setInQueue r rest q
  | dataOut ht =>
    obtain ⟨-, rfl⟩ := State.dmemWrite_eq_some.1 ht
    rfl
  | _ => rfl

theorem inQueue (h : ColumnWrite w s c t) (hc : c ≠ .doAlu) (q : InQueue) : t.inQueue q = s.inQueue q := by
  cases h with
  | pop => exact absurd rfl hc
  | output | port1Out | port2Out => exact s.inQueue_appendOut _ _ q
  | dataOut ht =>
    obtain ⟨-, rfl⟩ := State.dmemWrite_eq_some.1 ht
    rfl
  | _ => rfl

end ColumnWrite

/-! The output sequences. -/

theorem primitive_appends (m : Microcode) (w : ControlWord) (q : OutQueue) (s : State) :
    primitive m w q.column s = if w.appendsTo q then .done (s.appendOut q s.acc) else .done s := by
  cases q <;> rfl

theorem applyWord_outQueue (m : Microcode) (w : ControlWord) (q : OutQueue) (s : State) :
    (applyWord m w s).state.outQueue q = s.outQueue q ∨
      w.appendsTo q = true ∧ ∃ v, (applyWord m w s).state.outQueue q = s.outQueue q ++ [v] := by
  obtain ⟨c, u, he, hu⟩ | ⟨u, hu, happly, -⟩ := applyWord_of_sole_writer (State.outQueue · q) q.column
    (fun c hc u => (primitive_columnWrite m w c u).outQueue hc) s
  · rw [he]
    exact .inl hu
  · rw [happly, primitive_appends]
    split
    · refine .inr ⟨‹_›, u.acc, ?_⟩
      rw [← hu]
      exact (u.outQueue_appendOut q q u.acc).trans (if_pos rfl)
    · exact .inl hu

/-- A tick keeps an output sequence, or appends one element under the sequence's own column. -/
theorem tickOf_outQueue {m : Microcode} {s t : State} {w : ControlWord} (hw : m.rom[s.mip]? = some w)
    (h : tickOf m s = .next t) (q : OutQueue) :
    t.outQueue q = s.outQueue q ∨ w.appendsTo q = true ∧ ∃ v, t.outQueue q = s.outQueue q ++ [v] := by
  obtain he | he := tickOf_unchanged_or_applied (State.outQueue · q) (fun _ => rfl) (fun _ _ => rfl) hw h
  · exact .inl he
  · rw [he]
    exact applyWord_outQueue m w q s

/-! The input queues. -/

theorem aluInputQueue_eq_some {w : ControlWord} {q : InQueue} : aluInputQueue w = some q ↔ w.selAluIn = q.select := by
  unfold aluInputQueue
  generalize w.selAluIn = b
  revert b
  cases q <;> decide

/-- `DO_ALU` leaves a queue that it does not select; of the selected one it takes the first element, or it raises (R99). -/
theorem primDoAlu_inQueue (w : ControlWord) (q : InQueue) (s : State) :
    ((primDoAlu w s).state.inQueue q = s.inQueue q ∧
      (w.doAlu = true → w.selAluIn = q.select → ∃ c u, primDoAlu w s = .raised c u)) ∨
    (w.doAlu = true ∧ w.selAluIn = q.select ∧ ∃ v, s.inQueue q = v :: (primDoAlu w s).state.inQueue q) := by
  obtain ⟨hn, he⟩ | ⟨-, hq, he⟩ | ⟨-, r, hr, -, he⟩ | ⟨hd, r, v, rest, hr, hl, he⟩ := primDoAlu_cases w s <;> rw [he]
  · exact .inl ⟨rfl, fun hd => by simp [hn] at hd⟩
  · exact .inl ⟨rfl, fun _ hsel => by simp [aluInputQueue_eq_some.2 hsel] at hq⟩
  · exact .inl ⟨rfl, fun _ _ => ⟨_, _, rfl⟩⟩
  · have hset := s.inQueue_setInQueue r q rest
    by_cases hrq : r = q
    · subst hrq
      rw [if_pos rfl] at hset
      exact .inr ⟨hd, aluInputQueue_eq_some.1 hr, v, hl.trans (congrArg _ hset.symm)⟩
    · rw [if_neg hrq] at hset
      exact .inl ⟨hset, fun _ hsel => absurd (Option.some.inj (hr.symm.trans (aluInputQueue_eq_some.2 hsel))) hrq⟩

/-- A word leaves an input queue, or takes its first element under `DO_ALU` and its selection; a completed word with both has
taken it. -/
theorem applyWord_inQueue (m : Microcode) (w : ControlWord) (q : InQueue) (s : State) :
    ((applyWord m w s).state.inQueue q = s.inQueue q ∧
      (w.doAlu = true → w.selAluIn = q.select → ∀ t, applyWord m w s ≠ .done t)) ∨
    (w.doAlu = true ∧ w.selAluIn = q.select ∧ ∃ v, s.inQueue q = v :: (applyWord m w s).state.inQueue q) := by
  obtain ⟨c, u, he, hu⟩ | ⟨u, hu, happly, hdone⟩ := applyWord_of_sole_writer (State.inQueue · q) .doAlu
    (fun c hc u => (primitive_columnWrite m w c u).inQueue hc q) s
  · rw [he]
    exact .inl ⟨hu, fun _ _ t ht => by cases ht⟩
  · rw [happly, ← hu]
    refine (primDoAlu_inQueue w q u).imp_left (And.imp_right fun hraised hd hsel t ht => ?_)
    obtain ⟨c, v, hv⟩ := hraised hd hsel
    obtain ⟨v', hv'⟩ := hdone t ht
    cases hv.symm.trans hv'

/-- A tick leaves an input queue, or takes its first element under `DO_ALU` and its selection. -/
theorem tickOf_inQueue {m : Microcode} {s t : State} {w : ControlWord} (hw : m.rom[s.mip]? = some w)
    (h : tickOf m s = .next t) (q : InQueue) :
    t.inQueue q = s.inQueue q ∨ w.doAlu = true ∧ w.selAluIn = q.select ∧ ∃ v, s.inQueue q = v :: t.inQueue q := by
  obtain he | he := tickOf_unchanged_or_applied (State.inQueue · q) (fun _ => rfl) (fun _ _ => rfl) hw h
  · exact .inl he
  · rw [he]
    exact (applyWord_inQueue m w q s).imp_left And.left

/-- A machine that runs after a tick has completed the word at `MIP`. -/
theorem tickOf_running {m : Microcode} {s t : State} {w : ControlWord} (hw : m.rom[s.mip]? = some w)
    (h : tickOf m s = .next t) (hrun : t.status = .running) : ∃ u, applyWord m w s = .done u ∧ t = u.countTick := by
  obtain ⟨⟨c, hs⟩, rfl⟩ | ⟨hs, -, w', hw', rfl⟩ := tickOf_next_cases h
  · simp [hs] at hrun
  · obtain rfl : w' = w := Option.some.inj (hw'.symm.trans hw)
    obtain ⟨c, hc, -⟩ | ⟨-, -, he⟩ | ⟨-, -, u, hu, he⟩ | ⟨-, -, c, u, -, he⟩ := controlTick_cases (applyWord m w') s
    · simp [hs] at hc
    · simp [he] at hrun
    · exact ⟨u, hu, he⟩
    · simp [he] at hrun

/-- A tick after which the machine runs has taken the first element of the queue that its word selects. -/
theorem tickOf_takes {m : Microcode} {s t : State} {w : ControlWord} (hw : m.rom[s.mip]? = some w)
    (h : tickOf m s = .next t) (hd : w.doAlu = true) (hrun : t.status = .running) {q : InQueue}
    (hsel : w.selAluIn = q.select) : ∃ v, s.inQueue q = v :: t.inQueue q := by
  obtain ⟨u, hu, rfl⟩ := tickOf_running hw h hrun
  obtain ⟨-, hnot⟩ | ⟨-, -, htaken⟩ := applyWord_inQueue m w q s
  · exact absurd hu (hnot hd hsel u)
  · rwa [hu] at htaken

/-! From the instruction and the tick to the step. -/

/-- A fetch that stops writes `IR` and the cause alone. -/
theorem fetch_stop_eq {s t : State} (h : s.fetch = .stop t) : ∃ code c, t = (s.setIr code).stop c := by
  obtain ⟨-, he⟩ | ⟨-, -, he⟩ | ⟨-, -, i, -, he⟩ | ⟨-, -, -, he⟩ := s.fetch_cases <;> rw [he] at h <;> cases h
  exacts [⟨s.ir, _, rfl⟩, ⟨s.ir, _, rfl⟩, ⟨_, _, rfl⟩]

/-- What holds before a step, is kept by the writes of every instruction, and holds after a tick of the reference ROM, holds
after the step. -/
theorem step_induct (P : State → Prop) {s t : State} (hs : P s) (hexec : ∀ i u v, P u → InstrWrite i u v → P v)
    (htick : ∀ w, referenceMicrocode.rom[s.mip]? = some w → tick s = .next t → P t) (h : step s = .next t) : P t := by
  obtain ⟨c, -, he⟩ | ⟨-, -, he⟩ | ⟨-, -, -, i, -, he⟩ | ⟨-, -, -, u, hu, he⟩ | ⟨hrun, -, -, he⟩ := step_cases s <;>
    rw [he] at h
  · cases h
    exact hs
  · cases h
  · exact exec_induct P (hexec i) hs h
  · cases h
    obtain ⟨code, c, rfl⟩ := fetch_stop_eq hu
    exact hexec .hlt _ _ (hexec .hlt _ _ hs (.halt code)) (.stop c)
  · obtain ⟨⟨c, hstop⟩, -⟩ | ⟨-, -, w, hw, -⟩ := tickOf_next_cases h
    · simp [hrun] at hstop
    · exact htick w hw h

/-- A step keeps what is in an output sequence in front. -/
theorem step_keeps_outQueue_in_front {s t : State} (h : step s = .next t) (q : OutQueue) : s.outQueue q <+: t.outQueue q := by
  refine step_induct (fun u => s.outQueue q <+: u.outQueue q) ⟨[], List.append_nil _⟩ (fun i u v hu hw => ?_)
    (fun w hw ht => ?_) h
  · obtain he | ⟨-, x, he⟩ := hw.outQueue q <;> rw [he]
    · exact hu
    · exact hu.trans ⟨[x], rfl⟩
  · obtain he | ⟨-, x, he⟩ := tickOf_outQueue hw ht q <;> rw [he]
    exact ⟨[x], rfl⟩

/-- A step leaves a tail of an input queue. -/
theorem step_leaves_tail_of_inQueue {s t : State} (h : step s = .next t) (q : InQueue) : t.inQueue q <:+ s.inQueue q := by
  refine step_induct (fun u => u.inQueue q <:+ s.inQueue q) (List.suffix_refl _) (fun i u v hu hw => ?_)
    (fun w hw ht => ?_) h
  · obtain he | ⟨-, x, he⟩ := hw.inQueue q
    · rwa [he]
    · exact (he ▸ List.suffix_cons x _).trans hu
  · obtain he | ⟨-, -, x, he⟩ := tickOf_inQueue hw ht q <;> rw [he]
    exact List.suffix_cons x _

/-- Settles O42: the tick and the step, sequence by sequence. -/
theorem outputsOnlyGrow : Obligations.OutputsOnlyGrow :=
  ⟨fun _ _ _ _ _ _ => ⟨rfl, rfl, rfl⟩,
    fun _ _ _ _ hw h => ⟨tickOf_outQueue hw h .out0, tickOf_outQueue hw h .p1out, tickOf_outQueue hw h .p2out⟩,
    fun _ _ h => ⟨step_keeps_outQueue_in_front h .out0, step_keeps_outQueue_in_front h .p1out,
      step_keeps_outQueue_in_front h .p2out⟩⟩

/-- Settles O43: the tick and the step, queue by queue. -/
theorem inputQueuesOnlyDrain : Obligations.InputQueuesOnlyDrain :=
  ⟨fun _ _ _ _ _ _ => ⟨rfl, rfl, rfl⟩,
    fun _ _ _ _ hw h => ⟨tickOf_inQueue hw h .in0, tickOf_inQueue hw h .p1in, tickOf_inQueue hw h .p2in,
      fun hd hrun => ⟨tickOf_takes hw h hd hrun (q := .in0), tickOf_takes hw h hd hrun (q := .p1in),
        tickOf_takes hw h hd hrun (q := .p2in)⟩⟩,
    fun _ _ h => ⟨step_leaves_tail_of_inQueue h .in0, step_leaves_tail_of_inQueue h .p1in,
      step_leaves_tail_of_inQueue h .p2in⟩⟩

end Sys2Proof.Machine
end

section
/-! PROOFS. `IP` under a tick of any microcode and of the reference ROM (10_state.md R12; 31_control_word.md R91, R93), and that
a sound state never faults (R12, R21). -/

namespace Sys2Proof.Machine

/-! `IP` under a control word. -/

/-- Only the latch of `IP` writes `IP`, whatever the columns after it do. -/
theorem applyWord_ip (m : Microcode) (w : ControlWord) (s : State) :
    (applyWord m w s).state.ip = (primLatchIp w s).state.ip := by
  rw [applyWord_eq_after_latchIp]
  refine applyColumns_induct (fun u => u.ip = (primLatchIp w s).state.ip) m w _ (fun c hc u hu => ?_) _ rfl
  have hne : c ≠ .latchIp := by
    rintro rfl
    exact absurd hc (by decide)
  exact ((primitive_columnWrite m w c u).ip_eq hne).trans hu

/-- The latch of `IP` leaves it inside instruction memory (R93). -/
theorem primLatchIp_inRange (w : ControlWord) {s : State} (h : s.ipInRange = true) :
    inRange s.cfg.instrMemSize (primLatchIp w s).state.ip = true := by
  obtain ⟨-, he⟩ | ⟨-, hr, he⟩ | ⟨-, -, he⟩ := primLatchIp_cases w s <;> rw [he]
  exacts [h, hr, h]

/-- Without `LATCH_IP` a word leaves `IP` alone. -/
theorem applyWord_ip_of_no_latch (m : Microcode) {w : ControlWord} (hw : w.latchIp = false) (s : State) :
    (applyWord m w s).state.ip = s.ip := by
  rw [applyWord_ip]
  obtain ⟨-, he⟩ | ⟨hn, -⟩ | ⟨hn, -⟩ := primLatchIp_cases w s
  · rw [he]
    rfl
  · simp [hw] at hn
  · simp [hw] at hn

/-- A word that latches a value outside instruction memory raises with nothing written (R93). -/
theorem applyWord_latch_outside (m : Microcode) {w : ControlWord} {s : State} (hw : w.latchIp = true)
    (hr : inRange s.cfg.instrMemSize (ipMux w s) = false) :
    applyWord m w s = .raised (.instrAddrOutOfRange (ipMux w s)) s := by
  rw [applyWord_eq_after_latchIp]
  obtain ⟨hn, -⟩ | ⟨-, hn, -⟩ | ⟨-, -, he⟩ := primLatchIp_cases w s
  · simp [hw] at hn
  · simp [hr] at hn
  · rw [he, applyColumns_raised]

/-! `IP` under a tick. -/

section

variable {m : Microcode} {s t : State} {w : ControlWord}

theorem tickOf_ip (hw : m.rom[s.mip]? = some w) (h : tickOf m s = .next t) :
    t.ip = s.ip ∨ t.ip = (applyWord m w s).state.ip :=
  tickOf_unchanged_or_applied State.ip (fun _ => rfl) (fun _ _ => rfl) hw h

/-- A tick of a running machine leaves `IP` inside instruction memory; one of a stopped machine changes nothing. -/
theorem tickOf_ip_inRange (hw : m.rom[s.mip]? = some w) (h : tickOf m s = .next t) :
    inRange s.cfg.instrMemSize t.ip = true ∨ t = s := by
  obtain ⟨-, rfl⟩ | ⟨-, hip, -⟩ := tickOf_next_cases h
  · exact .inr rfl
  · refine .inl ?_
    obtain he | he := tickOf_ip hw h <;> rw [he]
    · exact hip
    · rw [applyWord_ip]
      exact primLatchIp_inRange w hip

theorem tickOf_ip_of_no_latch (hw : m.rom[s.mip]? = some w) (h : tickOf m s = .next t) (hl : w.latchIp = false) :
    t.ip = s.ip :=
  (tickOf_ip hw h).elim id (fun he => he.trans (applyWord_ip_of_no_latch m hl s))

theorem tickOf_latch_outside (hw : m.rom[s.mip]? = some w) (h : tickOf m s = .next t) (hl : w.latchIp = true)
    (hrun : s.status = .running) (hat : s.atCeiling = false)
    (hr : inRange s.cfg.instrMemSize (ipMux w s) = false) : t = s.stop (.instrAddrOutOfRange (ipMux w s)) := by
  obtain ⟨⟨c, hs⟩, -⟩ | ⟨-, -, w', hw', rfl⟩ := tickOf_next_cases h
  · simp [hrun] at hs
  · obtain rfl : w' = w := Option.some.inj (hw'.symm.trans hw)
    exact controlTick_raised hrun hat (applyWord_latch_outside m hl hr)

end

/-! `IP` under the reference ROM. -/

/-- The value that the IP mux passes is the next address or the argument (R91, R92). -/
theorem ipMux_cases (w : ControlWord) (s : State) : ipMux w s = s.nextIp ∨ ipMux w s = s.wireArg := by
  unfold ipMux jumpMux
  split_ifs
  exacts [.inr rfl, .inl rfl, .inl rfl]

/-- A word of the reference ROM that latches `IP` sets no other action than the return to the fetch word (32_microcode_rom.md R122,
R127). -/
theorem referenceMicrocode_latchIp_word :
    ∀ w ∈ referenceMicrocode.rom, w.latchIp = true →
      (w.latchIr = false ∧ w.latchAddr = false ∧ w.doAlu = false ∧ w.latchAcc = false ∧ w.output = false) ∧
      (w.dataIn = false ∧ w.dataOut = false ∧ w.port1Out = false ∧ w.port2Out = false) ∧
      w.microLatchIp = true ∧ w.microSelIp = 2 := by decide

/-- A word of the reference ROM that latches `IP` is the last tick of an instruction. -/
theorem applyWord_eq_latchTick (m : Microcode) {w : ControlWord} (hw : w ∈ referenceMicrocode.rom)
    (hl : w.latchIp = true) (s : State) : applyWord m w s = latchTick (ipMux w s) s := by
  obtain ⟨⟨hir, haddr, halu, hacc, hout⟩, ⟨hin, hdout, hp1, hp2⟩, hmicro, hsel⟩ :=
    referenceMicrocode_latchIp_word w hw hl
  rw [applyWord_eq]
  obtain ⟨hr, he⟩ | ⟨hr, he⟩ := latchTick_cases (ipMux w s) s <;>
    simp [primLatchIp, primLatchIr, primLatchAddr, primDoAlu, primLatchAcc, primOutput, primDataIn, primDataOut,
      primMicroLatchIp, primPort1Out, primPort2Out, hl, hir, haddr, halu, hacc, hout, hin, hdout, hp1, hp2, hmicro, hsel,
      hr, he]

/-- A tick of the reference ROM that changes `IP` is the last of an instruction: it returns to the fetch word, counts the
instruction, and goes to the next address or to the argument. -/
theorem tick_ip_ne {s t : State} (h : tick s = .next t) (hne : t.ip ≠ s.ip) :
    t.mip = 0 ∧ t.icount = s.icount + 1 ∧ (t.ip = s.nextIp ∨ t.ip = s.wireArg) := by
  obtain ⟨-, rfl⟩ | ⟨-, -, w, hw, rfl⟩ := tickOf_next_cases h
  · exact absurd rfl hne
  · cases hl : w.latchIp with
    | false => exact absurd (tickOf_ip_of_no_latch hw h hl) hne
    | true =>
      have happly := applyWord_eq_latchTick referenceMicrocode (List.mem_of_getElem? hw) hl s
      obtain ⟨c, -, he⟩ | ⟨-, -, he⟩ | ⟨-, -, u, hu, he⟩ | ⟨-, -, c, u, hu, he⟩ :=
        controlTick_cases (applyWord referenceMicrocode w) s <;> rw [he] at hne ⊢
      · exact absurd rfl hne
      · exact absurd rfl hne
      all_goals
        rw [happly] at hu
        obtain ⟨-, hlatch⟩ | ⟨-, hlatch⟩ := latchTick_cases (ipMux w s) s <;> rw [hlatch] at hu <;> cases hu
      · exact ⟨rfl, rfl, ipMux_cases w s⟩
      · exact absurd rfl hne

/-- Settles O44: on every microcode by what the latch of `IP` can do, with the reference ROM because a word that latches `IP` is
the last tick of an instruction. -/
theorem instructionPointerStaysLegal : Obligations.InstructionPointerStaysLegal :=
  ⟨fun _ _ _ _ _ _ => rfl,
    fun _ _ _ _ hw h => ⟨(tickOf_ip_inRange hw h).imp_left (inRange_iff _ _).1, tickOf_ip_of_no_latch hw h,
      tickOf_latch_outside hw h⟩,
    fun _ _ h hne => tick_ip_ne h hne⟩

/-! A sound state never faults. -/

/-- A state whose `IP` is inside instruction memory and whose `MIP` is inside the ROM has a next tick. -/
theorem tickOf_isNext {m : Microcode} {s : State} (hip : s.ipInRange = true) (hmip : s.mip < m.rom.length) :
    ∃ t, tickOf m s = .next t := by
  obtain ⟨c, -, he⟩ | ⟨-, hn, -⟩ | ⟨-, -, hn, -⟩ | ⟨-, -, w, -, he⟩ := tickOf_cases m s
  · exact ⟨_, he⟩
  · simp [hip] at hn
  · rw [List.getElem?_eq_none_iff] at hn
    omega
  · exact ⟨_, he⟩

/-- Settles O38: in a sound state `IP` is inside instruction memory and `MIP` inside the ROM, and no meaning faults. -/
theorem soundStateNeverFaults : Obligations.SoundStateNeverFaults := by
  intro s h
  obtain ⟨hdata, hcontrol⟩ := s.sound_iff.1 h
  have htick : ∃ t, tick s = .next t := tickOf_isNext hdata.ipRange hcontrol.mip
  refine ⟨?_, htick⟩
  obtain ⟨c, -, he⟩ | ⟨-, hn, -⟩ | ⟨-, -, -, i, -, he⟩ | ⟨-, -, -, u, -, he⟩ | ⟨-, -, -, he⟩ := step_cases s
  · exact ⟨s, he⟩
  · simp [hdata.ipRange] at hn
  · obtain ⟨fs, -, hexec⟩ := exec_isNext i s
    exact ⟨_, he.trans hexec⟩
  · exact ⟨u, he⟩
  · rwa [he]

end Sys2Proof.Machine
end

section
/-! PROOFS. What the loader accepts, and the state after loading and reset (20_memory.md R45, R46; 42_io.md R182;
70_reset_and_hazards.md R280, R282). -/

namespace Sys2Proof

/-- The string of an opcode names it (R60). -/
@[simp] theorem Opcode.ofName_name (o : Opcode) : Opcode.ofName o.name = some o := by cases o <;> decide

/-- The string of a mode names it (R61). -/
@[simp] theorem Mode.ofName_name (m : Mode) : Mode.ofName m.name = some m := by cases m <;> decide

end Sys2Proof

namespace Sys2Proof.Machine

/-! What the loader accepts. -/

/-- Data entries that hold their initial values, each a word, are accepted, and give as many cells as their sizes say (R45). -/
theorem dataCells_accepts {w : Nat} {es : List DataEntry}
    (h : ∀ e ∈ es, (e.init.length : Int) ≤ e.size ∧ ∀ v ∈ e.init, fitsWord w v = true) :
    ∃ cells, dataCells w es = .ok cells ∧ cells.length = (es.map (fun e => e.size.toNat)).sum := by
  induction es with
  | nil => exact ⟨[], rfl, rfl⟩
  | cons e es ih =>
    obtain ⟨⟨hsize, hinit⟩, hrest⟩ := List.forall_mem_cons.1 h
    obtain ⟨cells, hcells, hlength⟩ := ih hrest
    have hwords : wordsOfInts w e.init = .ok e.init := wordsOfInts_ok.2 ⟨rfl, List.all_eq_true.2 hinit⟩
    have hnonneg : ¬ e.size < 0 := by omega
    refine ⟨e.init ++ List.replicate (e.size.toNat - e.init.length) 0 ++ cells, ?_, ?_⟩
    · simp [dataCells, hnonneg, not_lt.2 hsize, hwords, hcells]
    · simp only [List.length_append, List.length_replicate, List.map_cons, List.sum_cons, hlength]
      omega

theorem loadData_accepts {cfg : Config} {es : List DataEntry}
    (h : ∀ e ∈ es, (e.init.length : Int) ≤ e.size ∧ ∀ v ∈ e.init, fitsWord cfg.width v = true)
    (hfit : (es.map (fun e => e.size.toNat)).sum ≤ cfg.dataMemSize) : ∃ dmem, loadData cfg es = .ok dmem := by
  obtain ⟨cells, hcells, hlength⟩ := dataCells_accepts h
  exact ⟨memoryOfCells 0 cells, by simp [loadData, hcells, hlength, hfit]⟩

/-- A legal pair with an integer argument that is a word, or without an argument in mode `NONE`, is accepted (R46). -/
theorem loadEntry_accepts {width : Nat} {e : CodeEntry}
    (h : ∃ o mode, e.opcode = o.name ∧ e.addressType = mode.name ∧ legalPair o mode = true ∧
      ((∃ n, e.arg = .int n ∧ fitsWord width n = true) ∨ (mode = .none ∧ e.arg = .absent))) :
    ∃ w, loadEntry width e = .ok w := by
  obtain ⟨o, mode, ho, hm, hlegal, harg⟩ := h
  have hword : ∃ a, docArgWord width mode e.arg = .ok a := by
    obtain ⟨n, hn, hfit⟩ | ⟨rfl, hn⟩ := harg <;> rw [hn]
    · exact ⟨n, wordOfInt_ok.2 ⟨hfit, rfl⟩⟩
    · exact ⟨0, rfl⟩
  obtain ⟨a, ha⟩ := hword
  exact ⟨⟨encodeCode o mode, a⟩, by simp [loadEntry, ho, hm, hlegal, ha]⟩

/-- Code entries that are each accepted are accepted together (R46). -/
theorem loadEntries_accepts {width : Nat} {es : List CodeEntry} (h : ∀ e ∈ es, ∃ w, loadEntry width e = .ok w) :
    ∃ ws, loadEntries width es = .ok ws := by
  induction es with
  | nil => exact ⟨[], rfl⟩
  | cons e es ih =>
    obtain ⟨⟨w, hw⟩, hrest⟩ := List.forall_mem_cons.1 h
    obtain ⟨ws, hws⟩ := ih hrest
    exact ⟨w :: ws, by simp [loadEntries, hw, hws]⟩

theorem loadCode_accepts {cfg : Config} {es : List CodeEntry} (h : ∀ e ∈ es, ∃ w, loadEntry cfg.width e = .ok w)
    (hfit : es.length ≤ cfg.instrMemSize) : ∃ imem, loadCode cfg es = .ok imem := by
  obtain ⟨ws, hws⟩ := loadEntries_accepts h
  have hlength := (loadEntries_ok hws).length_eq
  exact ⟨ws, by simp [loadCode, hws, ← hlength, hfit]⟩

/-! What the loader makes. -/

/-- Data memory after loading: the cells of the entries, one entry after the other, and 0 after the last (R45). -/
theorem read_of_loadData {cfg : Config} {es : List DataEntry} {dmem : Memory} (h : loadData cfg es = .ok dmem) (a : Nat) :
    dmem.read a = (es.flatMap (fun e => e.init ++ List.replicate (e.size.toNat - e.init.length) 0)).getD a 0 := by
  obtain ⟨cells, hcells, -, rfl⟩ := loadData_ok h
  rw [Memory.read_memoryOfCells, if_pos a.zero_le, Nat.sub_zero, (dataCells_ok hcells).1]

/-- Instruction memory after loading: at each entry's index the word that the loader makes of it (R46). -/
theorem getElem?_of_loadEntries {width : Nat} {es : List CodeEntry} {ws : List InstrWord}
    (h : loadEntries width es = .ok ws) {k : Nat} {e : CodeEntry} (he : es[k]? = some e) :
    ∃ w, ws[k]? = some w ∧ loadEntry width e = .ok w := by
  obtain ⟨hlength, hget⟩ := List.forall₂_iff_get.1 (loadEntries_ok h)
  obtain ⟨hk, rfl⟩ := List.getElem?_eq_some_iff.1 he
  exact ⟨ws[k], List.getElem?_eq_getElem (hlength ▸ hk), hget k hk (hlength ▸ hk)⟩

/-- Beyond the program instruction memory holds zero words (R46). -/
theorem State.imemRead_beyond {s : State} {a : Int} (h : (s.progLen : Int) ≤ a) : s.imemRead a = InstrWord.zero := by
  have hbeyond : s.imem.length ≤ a.toNat := by
    unfold State.progLen at h
    omega
  unfold State.imemRead
  rw [List.getD_eq_getElem?_getD, List.getElem?_eq_none hbeyond, Option.getD_none]

/-- The reset pulse stages the argument of instruction word 0 (R280). -/
theorem resetWith_opr (cfg : Config) (imem : List InstrWord) (dmem : Memory) (q0 q1 q2 : List Int) :
    (State.resetWith cfg imem dmem q0 q1 q2).opr = ((State.resetWith cfg imem dmem q0 q1 q2).imemRead 0).arg := by
  cases imem <;> rfl

/-- Settles O58: what the loader accepts is a reset of the memories that its parts make, and it accepts what each part does. -/
theorem loadedResetState : Obligations.LoadedResetState := by
  intro cfg m doc in0 p1in p2in
  constructor
  · rintro ⟨mc, s⟩ h
    obtain ⟨-, -, rfl, dmem, imem, hdata, hcode, -, -, -, rfl⟩ := loadAndReset_ok.1 h
    obtain ⟨hentries, -⟩ := loadCode_ok hcode
    exact ⟨rfl, rfl, rfl, rfl, rfl, rfl, rfl, resetWith_opr .., rfl, rfl, rfl, rfl, rfl, rfl, rfl, read_of_loadData hdata,
      (loadEntries_ok hentries).length_eq.symm, fun _ _ he => getElem?_of_loadEntries hentries he,
      fun _ ha => State.imemRead_beyond ha, rfl, rfl, rfl, rfl, rfl, rfl⟩
  · intro hcfg hm hdata hsizes hcode hlength hqueues
    obtain ⟨dmem, hdmem⟩ := loadData_accepts hdata hsizes
    obtain ⟨imem, himem⟩ := loadCode_accepts (fun e he => loadEntry_accepts (hcode e he)) hlength
    obtain ⟨h01, h2⟩ := List.forall_mem_append.1 hqueues
    obtain ⟨h0, h1⟩ := List.forall_mem_append.1 h01
    exact ⟨⟨m, State.resetWith cfg imem dmem in0 p1in p2in⟩, loadAndReset_ok.2 ⟨hcfg, hm, rfl, dmem, imem, hdmem, himem,
      List.all_eq_true.2 h0, List.all_eq_true.2 h1, List.all_eq_true.2 h2, rfl⟩⟩

/-- Settles O36: the reset state with the model's own parameters is one state, and its conditions evaluate. -/
theorem resetStateIsSound : Obligations.ResetStateIsSound := ⟨by decide, rfl⟩

end Sys2Proof.Machine
end

section
/-! PROOFS. Instruction memory and the parameters under a tick of any microcode and under a step (00_scope.md R9; 20_memory.md R43),
and the two data accesses with the primitives that make them (R47; 31_control_word.md R102, R103). -/

namespace Sys2Proof.Machine

/-- No primitive writes instruction memory or the parameters. -/
theorem ColumnWrite.imem_cfg {w : ControlWord} {s t : State} {c : Column} (h : ColumnWrite w s c t) :
    t.imem = s.imem ∧ t.cfg = s.cfg := by
  cases h with
  | pop | output | port1Out | port2Out => simp
  | dataOut ht =>
    obtain ⟨-, rfl⟩ := State.dmemWrite_eq_some.1 ht
    exact ⟨rfl, rfl⟩
  | _ => exact ⟨rfl, rfl⟩

theorem applyWord_imem_cfg (m : Microcode) (w : ControlWord) (s : State) :
    (applyWord m w s).state.imem = s.imem ∧ (applyWord m w s).state.cfg = s.cfg := by
  refine applyWord_induct (fun u => u.imem = s.imem ∧ u.cfg = s.cfg) m w (fun c u hu => ?_) s ⟨rfl, rfl⟩
  obtain ⟨himem, hcfg⟩ := (primitive_columnWrite m w c u).imem_cfg
  exact ⟨himem.trans hu.1, hcfg.trans hu.2⟩

theorem tickOf_imem_cfg {m : Microcode} {s t : State} (h : tickOf m s = .next t) : t.imem = s.imem ∧ t.cfg = s.cfg := by
  obtain ⟨-, rfl⟩ | ⟨-, -, w, hw, -⟩ := tickOf_next_cases h
  · exact ⟨rfl, rfl⟩
  · obtain ⟨himem, hcfg⟩ := applyWord_imem_cfg m w s
    exact ⟨(tickOf_unchanged_or_applied State.imem (fun _ => rfl) (fun _ _ => rfl) hw h).elim id (·.trans himem),
      (tickOf_unchanged_or_applied State.cfg (fun _ => rfl) (fun _ _ => rfl) hw h).elim id (·.trans hcfg)⟩

theorem step_imem_cfg {s t : State} (h : step s = .next t) : t.imem = s.imem ∧ t.cfg = s.cfg :=
  step_induct (fun u => u.imem = s.imem ∧ u.cfg = s.cfg) ⟨rfl, rfl⟩
    (fun _ _ _ hu hw => ⟨hw.imem.trans hu.1, hw.cfg.trans hu.2⟩) (fun _ _ ht => tickOf_imem_cfg ht) h

/-- Settles O41: no primitive of a word and no write of an instruction touches instruction memory or the parameters. -/
theorem instructionMemoryIsImmutable : Obligations.InstructionMemoryIsImmutable :=
  ⟨fun _ _ _ h => tickOf_imem_cfg h, fun _ _ h => step_imem_cfg h⟩

/-! The data accesses. -/

/-- A write in range changes the cell at the address and nothing else, once memory is in its canonical form (R47). -/
theorem State.dmemWrite_inRange {s : State} {a : Int} (hs : s.memorySound = true)
    (ha : inRange s.cfg.dataMemSize a = true) (v : Int) :
    ∃ t, s.dmemWrite a v = some t ∧ t.dmem.read a.toNat = v ∧
      (∀ b, b ≠ a.toNat → t.dmem.read b = s.dmem.read b) ∧ t = { s with dmem := t.dmem } := by
  have hwf : s.dmem.wf = true := (Bool.and_eq_true_iff.1 hs).1
  exact ⟨{ s with dmem := s.dmem.write a.toNat v }, State.dmemWrite_eq_some.2 ⟨ha, rfl⟩,
    Memory.read_write_same hwf _ v, fun _ hb => Memory.read_write_other hwf hb v, rfl⟩

/-- An address that is not one of data memory fails the range test. -/
theorem inRange_eq_false {n : Nat} {a : Int} (h : ¬ (0 ≤ a ∧ a < (n : Int))) : inRange n a = false := by
  rwa [← inRange_iff, Bool.not_eq_true] at h

section

variable {w : ControlWord} {s : State}

theorem primDataIn_of_none (hw : w.dataIn = true) (h : s.dmemRead s.ar = none) :
    primDataIn w s = .raised (.dataAddrOutOfRange s.ar) s := by simp [primDataIn, hw, h]

theorem primDataIn_of_some {v : Int} (hw : w.dataIn = true) (h : s.dmemRead s.ar = some v) :
    primDataIn w s = .done (s.setMdr v) := by simp [primDataIn, hw, h]

theorem primDataOut_of_none (hw : w.dataOut = true) (h : s.dmemWrite s.ar s.acc = none) :
    primDataOut w s = .raised (.dataAddrOutOfRange s.ar) s := by simp [primDataOut, hw, h]

theorem primDataOut_of_some {t : State} (hw : w.dataOut = true) (h : s.dmemWrite s.ar s.acc = some t) :
    primDataOut w s = .done t := by simp [primDataOut, hw, h]

end

/-- Settles O45: the two accesses on either side of the range test, and each primitive by what its access answers. -/
theorem dataAccessReachesItsCellOnly : Obligations.DataAccessReachesItsCellOnly := by
  intro s a v hs
  refine ⟨fun ha => ?_, fun ha => ?_, ?_⟩
  · have hr := (inRange_iff _ _).2 ha
    exact ⟨State.dmemRead_eq_some.2 ⟨hr, rfl⟩, State.dmemWrite_inRange hs hr v⟩
  · have hr := inRange_eq_false ha
    exact ⟨State.dmemRead_eq_none.2 hr, State.dmemWrite_eq_none.2 hr⟩
  · rintro w rfl
    exact ⟨primDataIn_of_none, primDataIn_of_some, primDataOut_of_none, fun _ => primDataOut_of_some⟩

end Sys2Proof.Machine
end

section
/-! PROOFS. That what the loader accepts is a sound state with a legal program, and what the loader makes of one code entry
(20_memory.md R45, R46; 30_encoding.md R65; 70_reset_and_hazards.md R280, R282). -/

namespace Sys2Proof

/-- A string that spells no opcode names none (R44). -/
theorem Opcode.ofName_eq_none {text : String} (h : ∀ o : Opcode, o.name ≠ text) : Opcode.ofName text = none :=
  List.find?_eq_none.2 (fun o _ => by simpa using h o)

/-- A string that spells no mode names none (R44). -/
theorem Mode.ofName_eq_none {text : String} (h : ∀ m : Mode, m.name ≠ text) : Mode.ofName text = Option.none :=
  List.find?_eq_none.2 (fun m _ => by simpa using h m)

end Sys2Proof

namespace Sys2Proof.Machine

/-! The words that the loader makes. -/

/-- What holds of every cell holds of every listed word of their memory. -/
theorem Memory.forall_memoryOfCells {P : Int → Prop} {cells : List Int} (h : ∀ v ∈ cells, P v) (a : Nat) :
    ∀ c ∈ memoryOfCells a cells, P c.2 := by
  induction cells generalizing a with
  | nil => simp [memoryOfCells]
  | cons v vs ih =>
    obtain ⟨hv, hvs⟩ := List.forall_mem_cons.1 h
    unfold memoryOfCells Memory.cons
    split
    · exact ih hvs (a + 1)
    · exact List.forall_mem_cons.2 ⟨hv, ih hvs (a + 1)⟩

/-- An argument that the loader accepts is a word (R46). -/
theorem fitsWord_of_docArgWord {w : Nat} {m : Mode} {arg : DocArg} {a : Int} (h : docArgWord w m arg = .ok a) :
    fitsWord w a = true := by
  cases arg with
  | int n =>
    obtain ⟨hfit, rfl⟩ := wordOfInt_ok.1 h
    exact hfit
  | str text => cases h
  | absent =>
    by_cases hm : m = .none <;> simp only [docArgWord, hm, if_true, if_false] at h <;> cases h
    exact fitsWord_zero w

/-- An entry that the loader accepts becomes a word with a legal code and an argument that fits (R46). -/
theorem legalCode_and_fitsWord_of_loadEntry {width : Nat} {e : CodeEntry} {w : InstrWord} (h : loadEntry width e = .ok w) :
    legalCode w.code = true ∧ fitsWord width w.arg = true := by
  obtain ⟨o, m, a, -, -, hlegal, harg, rfl⟩ := loadEntry_ok h
  exact ⟨(legalCode_encodeCode o m).trans hlegal, fitsWord_of_docArgWord harg⟩

/-- Every word of a program that the loader accepts is one that it makes of an entry (R46). -/
theorem exists_entry_of_loadEntries {width : Nat} {es : List CodeEntry} {ws : List InstrWord}
    (h : loadEntries width es = .ok ws) {w : InstrWord} (hw : w ∈ ws) : ∃ e, loadEntry width e = .ok w := by
  obtain ⟨k, hk, rfl⟩ := List.mem_iff_getElem.1 hw
  obtain ⟨hlength, hget⟩ := List.forall₂_iff_get.1 (loadEntries_ok h)
  exact ⟨_, hget k (hlength ▸ hk) hk⟩

/-- Data memory after loading is in its canonical form, lists cells of data memory only, and holds words (R45). -/
theorem wf_within_fits_of_loadData {cfg : Config} {data : List DataEntry} {dmem : Memory} (h : loadData cfg data = .ok dmem) :
    dmem.wf = true ∧ dmem.within cfg.dataMemSize = true ∧ ∀ c ∈ dmem, fitsWord cfg.width c.2 = true := by
  obtain ⟨cells, hcells, hlength, rfl⟩ := loadData_ok h
  obtain ⟨-, hfits⟩ := dataCells_ok hcells
  exact ⟨Memory.wf_memoryOfCells 0 cells none rfl, Memory.within_memoryOfCells 0 _ cells (by omega),
    Memory.forall_memoryOfCells (P := (fitsWord cfg.width · = true)) hfits 0⟩

/-! The reset of what was loaded. -/

/-- A reset of loaded memories and queues of words is a sound state: every register but `OPR` is 0, and `OPR` holds the argument
of word 0 (R280). -/
theorem resetWith_sound {cfg : Config} {data : List DataEntry} {code : List CodeEntry} {dmem : Memory} {imem : List InstrWord}
    {q0 q1 q2 : List Int} (hcfg : cfg.wellFormed = true) (hdata : loadData cfg data = .ok dmem)
    (hcode : loadCode cfg code = .ok imem) (h0 : ∀ v ∈ q0, fitsWord cfg.width v = true)
    (h1 : ∀ v ∈ q1, fitsWord cfg.width v = true) (h2 : ∀ v ∈ q2, fitsWord cfg.width v = true) :
    (State.resetWith cfg imem dmem q0 q1 q2).sound = true := by
  obtain ⟨hwf, hwithin, hcells⟩ := wf_within_fits_of_loadData hdata
  obtain ⟨hentries, hlength⟩ := loadCode_ok hcode
  have hargs : ∀ w ∈ imem, fitsWord cfg.width w.arg = true := by
    intro w hw
    obtain ⟨e, he⟩ := exists_entry_of_loadEntries hentries hw
    exact (legalCode_and_fitsWord_of_loadEntry he).2
  have hzero := fitsWord_zero cfg.width
  have hopr : fitsWord cfg.width (imem.headD InstrWord.zero).arg = true := by
    cases imem with
    | nil => exact hzero
    | cons w ws => exact hargs w List.mem_cons_self
  have hip : inRange cfg.instrMemSize 0 = true := by
    simp only [Config.wellFormed, Bool.and_eq_true, decide_eq_true_eq] at hcfg
    rw [inRange_iff]
    omega
  have hnone : ∀ v ∈ ([] : List Int), fitsWord cfg.width v = true := by simp
  rw [State.sound_iff]
  exact ⟨⟨Bool.and_eq_true_iff.2 ⟨hwf, hwithin⟩, hip, hlength, hcfg, hzero, hzero, hzero, hzero, hopr, hcells, hargs,
      h0, h1, h2, hnone, hnone, hnone⟩,
    ⟨by simp [State.resetWith, referenceMicrocode_rom_length], fun _ => resetWith_opr .., fun _ _ => Nat.zero_le _,
      le_rfl, le_rfl, fun hmip => absurd rfl hmip⟩⟩

theorem loadAndReset_sound_and_legal {cfg : Config} {m : Microcode} {doc : ProgramDocument} {in0 p1in p2in : List Int}
    {p : Prepared} (h : loadAndReset cfg m doc in0 p1in p2in = .ok p) :
    p.state.sound = true ∧ p.state.atBoundary = true ∧ ∀ w ∈ p.state.imem, legalCode w.code = true := by
  obtain ⟨hcfg, -, -, dmem, imem, hdata, hcode, h0, h1, h2, hstate⟩ := loadAndReset_ok.1 h
  rw [hstate]
  refine ⟨resetWith_sound hcfg hdata hcode (List.all_eq_true.1 h0) (List.all_eq_true.1 h1) (List.all_eq_true.1 h2), rfl, ?_⟩
  intro w hw
  obtain ⟨e, he⟩ := exists_entry_of_loadEntries (loadCode_ok hcode).1 hw
  exact (legalCode_and_fitsWord_of_loadEntry he).1

/-- The result of a run that ends is the run result of the state in which it ends (R227). -/
theorem Prepared.result_eq {p : Prepared} {passes : Nat} {t : State}
    (h : p.state.runToEnd p.microcode passes = some (.next t)) : p.result passes = t.runResult := by
  simp [Prepared.result, h]

/-- Settles O59: a reset of what the loader accepts is sound, and the host's sequence is that loading on the chosen ROM. -/
theorem loadedStateIsSoundAndLegal : Obligations.LoadedStateIsSoundAndLegal := by
  refine ⟨fun _ _ _ _ _ _ _ h => loadAndReset_sound_and_legal h, fun cfg rom doc in0 p1in p2in p h => ?_⟩
  obtain ⟨-, m, hrom, hload⟩ := prepare_ok.1 h
  obtain ⟨-, -, rfl, -⟩ := loadAndReset_ok.1 hload
  exact ⟨hrom, hload, fun t r passes hrun hr => (Prepared.result_eq hrun).trans hr⟩

/-! One code entry. -/

section

variable (width : Nat) {o : Opcode} {m : Mode}

/-- An entry of a legal pair becomes the pair's code with its argument word, or is refused as its argument is (R46). -/
theorem loadEntry_of_legalPair (h : legalPair o m = true) (arg : DocArg) :
    loadEntry width ⟨o.name, m.name, arg⟩ = (docArgWord width m arg).map (InstrWord.mk (encodeCode o m)) := by
  unfold loadEntry
  rw [Opcode.ofName_name, Mode.ofName_name]
  cases ha : docArgWord width m arg <;> simp [h, ha, Except.map]

/-- An entry of a pair outside the legality table is refused for it (R65). -/
theorem loadEntry_of_illegalPair (h : legalPair o m = false) (arg : DocArg) :
    loadEntry width ⟨o.name, m.name, arg⟩ = .error (.illegalPair o m) := by simp [loadEntry, h]

theorem loadEntry_unknownOpcode {text : String} (h : ∀ o : Opcode, o.name ≠ text) (mode : String) (arg : DocArg) :
    loadEntry width ⟨text, mode, arg⟩ = .error (.unknownOpcode text) := by
  simp [loadEntry, Opcode.ofName_eq_none h]

theorem loadEntry_unknownMode {text : String} (h : ∀ m : Mode, m.name ≠ text) (o : Opcode) (arg : DocArg) :
    loadEntry width ⟨o.name, text, arg⟩ = .error (.unknownMode text) := by
  simp [loadEntry, Mode.ofName_eq_none h]

end

/-- What the loader makes of an integer out of the range of a word (R46, decision D23). -/
theorem wordOfInt_error {w : Nat} {n : Int} (h : fitsWord w n = false) : wordOfInt w n = .error (.valueOutOfRange n) := by
  simp [wordOfInt, h]

/-- Settles O60: an entry of a legal pair goes as its argument goes, and every other entry is refused before its argument. -/
theorem loaderEncodesOrRefusesAnEntry : Obligations.LoaderEncodesOrRefusesAnEntry := by
  intro width
  refine ⟨fun o m n hlegal => ⟨fun hfit => ?_, fun hfit => ?_⟩, fun o hlegal => loadEntry_of_legalPair width hlegal .absent,
    fun o m text hlegal => loadEntry_of_legalPair width hlegal (.str text),
    fun o m arg hillegal => loadEntry_of_illegalPair width hillegal arg,
    fun text arg hunknown mode => loadEntry_unknownOpcode width hunknown mode arg,
    fun o text arg hunknown => loadEntry_unknownMode width hunknown o arg⟩
  · rw [loadEntry_of_legalPair width hlegal, docArgWord, wordOfInt_ok.2 ⟨hfit, rfl⟩]
    rfl
  · rw [loadEntry_of_legalPair width hlegal, docArgWord, wordOfInt_error hfit]
    rfl

end Sys2Proof.Machine
end

section
/-! PROOFS. Encoding and decoding are inverse on the words and on their bits, and the legal codes are the table of 28
(30_encoding.md R61 to R68; 32_microcode_rom.md R126). -/

namespace Sys2Proof

open Machine

/-! The legal codes. -/

/-- Every legal code is at most that of HLT, the last of them (R62, R64). -/
theorem codeNumber_le_of_legalPair {o : Opcode} {m : Mode} (h : legalPair o m = true) : codeNumber o m ≤ 160 := by
  have hall : ∀ p ∈ legalPairs, codeNumber p.1 p.2 ≤ 160 := by decide
  exact hall (o, m) ((mem_legalPairs o m).2 h)

/-- A code is legal exactly when it is the code of a legal pair (R63, R64). -/
theorem legalCode_iff_mem_legalPairs (c : BitVec 8) :
    legalCode c = true ↔ c.toNat ∈ legalPairs.map (fun p => codeNumber p.1 p.2) := by
  rw [legalCode_iff, List.mem_map]
  constructor
  · rintro ⟨o, m, hlegal, rfl⟩
    exact ⟨(o, m), (mem_legalPairs o m).2 hlegal, (toNat_encodeCode o m).symm⟩
  · rintro ⟨⟨o, m⟩, hmem, hcode⟩
    exact ⟨o, m, (mem_legalPairs o m).1 hmem, BitVec.eq_of_toNat_eq (hcode.symm.trans (toNat_encodeCode o m).symm)⟩

/-- The keys of the decode index are the codes of the legal pairs, in the order of the construction (R88, R126). -/
theorem referenceMicrocode_index_keys :
    referenceMicrocode.index.map Prod.fst = legalPairs.map (fun p => codeNumber p.1 p.2) := by decide

/-! The decoder on the words of the encoder. -/

/-- The pair and the argument of an instruction make it again (R64). -/
theorem Instr.make_opcode_mode_arg (i : Instr) : Instr.make i.opcode i.mode i.arg = some i := by cases i <;> rfl

/-- What a pair of mode `NONE` makes does not depend on the argument (R61). -/
theorem Instr.make_none (o : Opcode) (a b : Int) : Instr.make o .none a = Instr.make o .none b := by cases o <;> rfl

/-- The code of a pair decodes to the instruction that the pair makes with the argument (R68). -/
theorem decode_encodeCode {o : Opcode} {m : Mode} {a : Int} {i : Instr} (h : Instr.make o m a = some i) :
    decode ⟨encodeCode o m, a⟩ = .ok i := by simp [decode, h]

/-- The decoder inverts the encoder on whole words (R62, R68). -/
@[simp] theorem decode_encode (i : Instr) : decode (encode i) = .ok i := decode_encodeCode i.make_opcode_mode_arg

/-- A word decodes to an instruction exactly when it has the instruction's code and, unless the mode is `NONE`, its argument
(R61, R68). -/
theorem decode_eq_ok_iff (w : InstrWord) (i : Instr) :
    decode w = .ok i ↔ w.code = (encode i).code ∧ (i.mode = .none ∨ w.arg = i.arg) := by
  obtain ⟨c, a⟩ := w
  constructor
  · intro h
    obtain ⟨hcode, harg⟩ := decode_ok h
    exact ⟨hcode, or_iff_not_imp_left.2 harg⟩
  · rintro ⟨rfl, hmode | rfl⟩
    · apply decode_encodeCode
      rw [hmode, Instr.make_none i.opcode a i.arg, ← hmode]
      exact i.make_opcode_mode_arg
    · exact decode_encode i

/-! The bits of a word. -/

/-- The bits of a word as a number: the code above the argument in two's complement (R66). -/
theorem InstrWord.toNat_toBits (width : Nat) (w : InstrWord) :
    (w.toBits width).toNat = w.code.toNat * 2 ^ width + uint width w.arg := by
  rw [InstrWord.toBits, BitVec.toNat_append, ← Nat.shiftLeft_add_eq_or_of_lt (BitVec.isLt _), Nat.shiftLeft_eq,
    BitVec.toNat_ofInt, Nat.cast_pow, Nat.cast_ofNat]

/-- The bits of an instruction's word decode to it at every width at which it is well formed (R66, R68). -/
theorem decode_ofBits_toBits_encode {width : Nat} (hw : 1 ≤ width) {i : Instr} (h : i.wellFormed width = true) :
    decode (InstrWord.ofBits width ((encode i).toBits width)) = .ok i := by
  rw [InstrWord.ofBits_toBits hw _ ((i.wellFormed_eq width).symm.trans h), decode_encode]

/-- A number of 40 bits is decoded by its fields at width 32 (R66, R69). -/
theorem decodeTableWord_toNat (b : BitVec (8 + 32)) :
    decodeTableWord 40 b.toNat = (decode (InstrWord.ofBits 32 b)).toOption := by
  have hlt : b.toNat < 2 ^ 40 := b.isLt
  have hb : BitVec.ofNat 40 b.toNat = b := (BitVec.ofNat_toNat 40 b).trans (BitVec.setWidth_eq b)
  simp only [decodeTableWord, Nat.mod_eq_of_lt hlt, hlt, if_true, hb]
  cases decode (InstrWord.ofBits 32 b) <;> rfl

/-- The number written out for the word of an instruction decodes to the instruction (R66). -/
theorem decodeTableWord_of_eq_encode {n : Nat} {i : Instr} (hn : n = ((encode i).toBits 32).toNat)
    (h : i.wellFormed 32 = true) : decodeTableWord 40 n = some i := by
  rw [hn, decodeTableWord_toNat, decode_ofBits_toBits_encode (by decide) h]
  rfl

/-- The number written out for a word of an illegal code does not decode (R65). -/
theorem decodeTableWord_of_illegalCode {n : Nat} {w : InstrWord} (hn : n = (w.toBits 32).toNat)
    (hfit : fitsWord 32 w.arg = true) (h : legalCode w.code = false) : decodeTableWord 40 n = none := by
  rw [hn, decodeTableWord_toNat, InstrWord.ofBits_toBits (by decide) _ hfit, decode_error w h]
  rfl

/-- Settles O54: the digits of the code name the pair, and each form of the word has the two fields it was made of. -/
theorem decodeInvertsEncode : Obligations.DecodeInvertsEncode := by
  intro i
  have hcode : (encode i).code.toNat = codeNumber i.opcode i.mode := toNat_encodeCode _ _
  exact ⟨hcode, hcode.trans_le (codeNumber_le_of_legalPair i.legalPair_all), opcodeOf_encodeCode _ _, modeOf_encodeCode _ _,
    decode_encode i, fun _ hw h => decode_ofBits_toBits_encode hw h, decodeTableWord_of_eq_encode rfl⟩

/-- Settles O55: acceptance by code and argument, rejection by code, and the layout of the bits. -/
theorem decodeAcceptsExactlyTheEncodings : Obligations.DecodeAcceptsExactlyTheEncodings :=
  ⟨decode_eq_ok_iff, decode_error, InstrWord.toNat_toBits⟩

/-- Settles O56: the legal codes are those of the legal pairs, which are the keys of the decode index. -/
theorem legalCodesAreTheTable : Obligations.LegalCodesAreTheTable := by
  refine ⟨fun c => ?_, rfl, fun _ => rfl⟩
  rw [Bool.eq_iff_iff, legalCode_iff_mem_legalPairs, ← referenceMicrocode_index_keys, decide_eq_true_iff]
  rfl

/-- Settles O57: each number is the word of its instruction, and the last one that of the illegal code 73. -/
theorem writtenWordsDecode : Obligations.WrittenWordsDecode := by
  refine ⟨?_, ?_, ?_, ?_, ?_, ?_, ?_, decodeTableWord_of_illegalCode (w := ⟨73, 0⟩) (by decide) (by decide) (by decide)⟩ <;>
    exact decodeTableWord_of_eq_encode (by decide) (by decide)

end Sys2Proof
end

section
/-! PROOFS. The tuple, the columns and the packed form of a control word hold the same information, and a tuple is taken exactly
when it is well formed (31_control_word.md R80 to R83, R108; 50_control_unit.md R222). -/

namespace Sys2Proof.Machine

/-! The columns of a tuple. -/

theorem Column.mem_all (c : Column) : c ∈ Column.all := by cases c <;> decide

/-- Tuples of 17 columns that agree in every column are the same. -/
theorem eq_of_columns_eq {t u : List Nat} (ht : t.length = 17) (hu : u.length = 17)
    (h : ∀ c : Column, t.getD c.index 0 = u.getD c.index 0) : t = u := by
  have hindex : ∀ i < 17, ∃ c ∈ Column.all, c.index = i := by decide
  refine List.ext_getElem (ht.trans hu.symm) (fun i hi hj => ?_)
  obtain ⟨c, -, rfl⟩ := hindex i (ht ▸ hi)
  rw [← List.getD_eq_getElem t 0 hi, ← List.getD_eq_getElem u 0 hj]
  exact h c

/-- The tuple form determines the word (R80). -/
theorem ControlWord.toTuple_injective : Function.Injective ControlWord.toTuple := by
  intro w v h
  have hbit : Function.Injective Bool.toNat := Function.LeftInverse.injective Bool.ofNat_toNat
  cases w
  cases v
  simpa [ControlWord.toTuple, hbit.eq_iff, BitVec.toNat_inj] using h

/-- A control word is its columns. -/
theorem ControlWord.ext_col {w v : ControlWord} (h : ∀ c, w.col c = v.col c) : w = v :=
  ControlWord.toTuple_injective (eq_of_columns_eq rfl rfl h)

/-- The number of values that the bits of a column can hold (R82). -/
def Column.base : Column → Nat
  | .selAluIn | .microSelIp => 4
  | _ => 2

theorem Column.base_eq (c : Column) : c.base = if c = .selAluIn ∨ c = .microSelIp then 4 else 2 := by cases c <;> rfl

theorem ControlWord.col_lt_base (w : ControlWord) (c : Column) : w.col c < c.base := by
  cases c with
  | selAluIn => exact w.selAluIn.isLt
  | microSelIp => exact w.microSelIp.isLt
  | _ => exact Bool.toNat_lt _

/-- What holds of every column, column by column. -/
theorem Column.forall_iff {P : Column → Prop} :
    (∀ c, P c) ↔ P .selIp ∧ P .selJump ∧ P .latchIp ∧ P .latchIr ∧ P .selAddr ∧ P .latchAddr ∧ P .selAlu ∧ P .selAluIn ∧
      P .doAlu ∧ P .latchAcc ∧ P .output ∧ P .dataIn ∧ P .dataOut ∧ P .microSelIp ∧ P .microLatchIp ∧ P .port1Out ∧
      P .port2Out := by
  have hiff : (∀ c, P c) ↔ ∀ c ∈ Column.all, P c := ⟨fun h c _ => h c, fun h c => h c c.mem_all⟩
  rw [hiff]
  simp [Column.all]

/-! The packed form. -/

/-- A column of an unpacked word is its field of the packed form (R222). -/
theorem ControlWord.col_unpack (p : BitVec 19) (c : Column) :
    (ControlWord.unpack p).col c = p.toNat / 2 ^ c.lsb % c.base := by
  have hfield (k : Nat) : (p.extractLsb' k 2).toNat = p.toNat / 2 ^ k % 4 := by
    rw [BitVec.extractLsb'_toNat, Nat.shiftRight_eq_div_pow]
  cases c with
  | selAluIn | microSelIp => exact hfield _
  | _ => exact Nat.toNat_testBit _ _

/-- The sum of the fields at their places, with the columns written out (R82). -/
theorem sum_fields (f : Column → Nat) :
    (Column.all.map (fun c => f c * 2 ^ c.lsb)).sum =
      f .selIp + 2 * f .selJump + 4 * f .latchIp + 8 * f .latchIr + 16 * f .selAddr + 32 * f .latchAddr +
        64 * f .selAlu + 128 * f .selAluIn + 512 * f .doAlu + 1024 * f .latchAcc + 2048 * f .output +
        4096 * f .dataIn + 8192 * f .dataOut + 16384 * f .microSelIp + 65536 * f .microLatchIp +
        131072 * f .port1Out + 262144 * f .port2Out := by
  simp only [Column.all, Column.lsb, List.map_cons, List.map_nil, List.sum_cons, List.sum_nil]
  omega

/-- Fields that each fit their base are less than 19 bits together. -/
theorem sum_fields_lt {f : Column → Nat} (h : ∀ c, f c < c.base) :
    (Column.all.map (fun c => f c * 2 ^ c.lsb)).sum < 2 ^ 19 := by
  rw [sum_fields]
  rw [Column.forall_iff] at h
  simp only [Column.base] at h
  omega

/-- A field is read back from the sum of the fields at their places (R82, R222). -/
theorem field_of_sum_fields {f : Column → Nat} (h : ∀ c, f c < c.base) (c : Column) :
    (Column.all.map (fun c => f c * 2 ^ c.lsb)).sum / 2 ^ c.lsb % c.base = f c := by
  rw [sum_fields]
  rw [Column.forall_iff] at h
  simp only [Column.base] at h
  cases c <;> simp only [Column.base, Column.lsb] <;> omega

/-- A number of 19 bits is the sum of its fields at their places (R82, R222). -/
theorem sum_fields_of_lt {n : Nat} (h : n < 2 ^ 19) :
    (Column.all.map (fun c => n / 2 ^ c.lsb % c.base * 2 ^ c.lsb)).sum = n := by
  rw [sum_fields (fun c => n / 2 ^ c.lsb % c.base)]
  simp only [Column.base, Column.lsb]
  omega

/-- The packed form of a word is the sum itself: it fits the 19 bits (R82). -/
theorem ControlWord.toNat_pack (w : ControlWord) :
    w.pack.toNat = (Column.all.map (fun c => w.col c * 2 ^ c.lsb)).sum := by
  rw [ControlWord.pack, BitVec.toNat_ofNat, Nat.mod_eq_of_lt (sum_fields_lt w.col_lt_base)]

/-- Unpacking the packed form gives every column, so the word, back. -/
theorem ControlWord.unpack_pack (w : ControlWord) : ControlWord.unpack w.pack = w := by
  refine ControlWord.ext_col (fun c => ?_)
  rw [ControlWord.col_unpack, ControlWord.toNat_pack, field_of_sum_fields w.col_lt_base]

/-- Packing the fields of a packed form gives it back. -/
theorem ControlWord.pack_unpack (p : BitVec 19) : (ControlWord.unpack p).pack = p := by
  apply BitVec.eq_of_toNat_eq
  simp only [ControlWord.toNat_pack, ControlWord.col_unpack]
  exact sum_fields_of_lt p.isLt

/-- Settles O49: the packed form is the sum of the columns at their places, and the fields of such a sum are the columns. -/
theorem packedWordDecodesBothWays : Obligations.PackedWordDecodesBothWays :=
  ⟨ControlWord.toNat_pack, ControlWord.unpack_pack, ControlWord.pack_unpack,
    fun p c => c.base_eq ▸ ControlWord.col_unpack p c⟩

/-! The tuple form. -/

/-- A tuple is well formed when it has 17 columns, each with a legal value (R80, R83). -/
theorem tupleWellFormed_iff {t : List Nat} :
    tupleWellFormed t = true ↔ t.length = 17 ∧ ∀ c : Column, t.getD c.index 0 ≤ c.maxValue := by
  rw [tupleWellFormed, Bool.and_eq_true, decide_eq_true_iff, List.all_eq_true]
  simp [Column.mem_all]

/-- A control word is well formed when its tuple is (R83). -/
theorem ControlWord.tupleWellFormed_toTuple (w : ControlWord) : tupleWellFormed w.toTuple = w.wellFormed := rfl

/-- Every value that the bits of a column can hold is legal, but for the reserved value of `MICRO_SEL_IP` (R81, R83). -/
theorem Column.base_eq_maxValue_succ {c : Column} (h : c ≠ .microSelIp) : c.base = c.maxValue + 1 := by
  cases c with
  | microSelIp => exact absurd rfl h
  | _ => rfl

/-- A control word is well formed unless `MICRO_SEL_IP` has its reserved value (R83, R108). -/
theorem ControlWord.wellFormed_iff (w : ControlWord) : w.wellFormed = true ↔ w.microSelIp ≠ 3 := by
  have hselect : ∀ b : BitVec 2, b.toNat ≤ 2 ↔ b ≠ 3 := by decide
  rw [← w.tupleWellFormed_toTuple, tupleWellFormed_iff, ← hselect]
  refine ⟨fun h => h.2 .microSelIp, fun h => ⟨rfl, fun c => ?_⟩⟩
  by_cases hc : c = .microSelIp
  · rw [hc]
    exact h
  · exact Nat.le_of_lt_succ ((w.col_lt_base c).trans_eq (Column.base_eq_maxValue_succ hc))

/-- A well-formed tuple is taken, and the word has its columns (R80). -/
theorem ControlWord.ofTuple_of_wellFormed {t : List Nat} (h : tupleWellFormed t = true) :
    ∃ w, ControlWord.ofTuple t = some w ∧ ∀ c : Column, w.col c = t.getD c.index 0 := by
  obtain ⟨-, hmax⟩ := tupleWellFormed_iff.1 h
  have hbit {n : Nat} (hn : n ≤ 1) : (decide (n = 1)).toNat = n := by
    interval_cases n <;> rfl
  refine ⟨_, if_pos h, fun c => ?_⟩
  have hc := hmax c
  cases c with
  | selAluIn | microSelIp => exact Nat.mod_eq_of_lt (lt_of_le_of_lt hc (by decide))
  | _ => exact hbit hc

theorem ControlWord.ofTuple_of_illFormed {t : List Nat} (h : tupleWellFormed t = false) : ControlWord.ofTuple t = none := by
  simp [ControlWord.ofTuple, h]

/-- The tuple of a well-formed word is taken as that word (R80, R83). -/
theorem ControlWord.ofTuple_toTuple {w : ControlWord} (h : w.wellFormed = true) : ControlWord.ofTuple w.toTuple = some w := by
  obtain ⟨v, hv, hcols⟩ := ControlWord.ofTuple_of_wellFormed (w.tupleWellFormed_toTuple.trans h)
  rw [hv, ControlWord.ext_col hcols]

/-- A tuple that is taken is well formed and is the tuple of the word (R80, R83). -/
theorem ControlWord.toTuple_of_ofTuple {t : List Nat} {w : ControlWord} (h : ControlWord.ofTuple t = some w) :
    w.toTuple = t ∧ w.wellFormed = true := by
  cases ht : tupleWellFormed t with
  | false => simp [ControlWord.ofTuple_of_illFormed ht] at h
  | true =>
    obtain ⟨v, hv, hcols⟩ := ControlWord.ofTuple_of_wellFormed ht
    obtain rfl : v = w := Option.some.inj (hv.symm.trans h)
    have htuple : v.toTuple = t := eq_of_columns_eq rfl (tupleWellFormed_iff.1 ht).1 hcols
    exact ⟨htuple, by rw [← v.tupleWellFormed_toTuple, htuple, ht]⟩

/-- Settles O50: a taken tuple and its word have the same columns, and only the reserved select is ill formed. -/
theorem tupleIsTakenExactlyWhenWellFormed : Obligations.TupleIsTakenExactlyWhenWellFormed := by
  refine ⟨fun w h => ControlWord.ofTuple_toTuple h, fun t w h => ControlWord.toTuple_of_ofTuple h,
    fun t h => ControlWord.ofTuple_of_illFormed h, fun p => ?_⟩
  rw [← Bool.not_eq_true, ControlWord.wellFormed_iff, not_not]

end Sys2Proof.Machine
end

section
/-! PROOFS. What the compilation of a set of names writes into the tuple, and what the generator builds and refuses
(31_control_word.md R84 to R88; 32_microcode_rom.md R121 to R126). -/

namespace Sys2Proof.Machine

/-! The two loops of the compilation as one sequence of writes. -/

/-- The tuple `u` comes from the tuple `t` by writes to columns, each of which held 0 when it was written (R87). -/
inductive ColumnsWritten : List (Column × Nat) → List Nat → List Nat → Prop where
  | nil (t : List Nat) : ColumnsWritten [] t t
  | cons {c : Column} {v : Nat} {ws : List (Column × Nat)} {t u : List Nat} (free : t.getD c.index 0 = 0)
      (rest : ColumnsWritten ws (t.set c.index v) u) : ColumnsWritten ((c, v) :: ws) t u

/-- What a name drives: a column and its value (R84, R85). -/
def Signal.drives (n : Signal) : Option (Column × Nat) :=
  match n.effect with
  | .drive c v => some (c, v)
  | .hold _ => none

/-- The value of a column in the previous word, 0 when there is none (R86). -/
def heldValue (previous : Option (List Nat)) (c : Column) : Nat :=
  (previous.getD (List.replicate 17 0)).getD c.index 0

/-- What a name holds: a column and its value in the previous word (R86). -/
def Signal.holds (previous : Option (List Nat)) (n : Signal) : Option (Column × Nat) :=
  match n.effect with
  | .drive _ _ => none
  | .hold c => some (c, heldValue previous c)

theorem Column.index_lt (c : Column) : c.index < 17 := by cases c <;> decide

theorem Column.index_injective : Function.Injective Column.index := by
  intro c d
  have hall : ∀ c ∈ Column.all, ∀ d ∈ Column.all, c.index = d.index → c = d := by decide
  exact hall c c.mem_all d d.mem_all

/-- A column after a write to a tuple of 17. -/
theorem getD_set_column {t : List Nat} (ht : t.length = 17) (c d : Column) (v : Nat) :
    (t.set c.index v).getD d.index 0 = if c = d then v else t.getD d.index 0 := by
  have hc : c.index < t.length := ht ▸ c.index_lt
  by_cases h : c = d
  · subst h
    simp [hc]
  · have hne : c.index ≠ d.index := fun he => h (Column.index_injective he)
    simp [h, hne, List.getD_eq_getElem?_getD]

/-- The first loop of R87 writes what the names drive. -/
theorem driveColumns_ok {names : List Signal} {t u : List Nat} (h : driveColumns names t = .ok u) :
    ColumnsWritten (names.filterMap Signal.drives) t u := by
  induction names generalizing t with
  | nil =>
    cases h
    exact .nil _
  | cons n ns ih =>
    unfold driveColumns at h
    cases he : n.effect with
    | hold c =>
      rw [List.filterMap_cons_none (by rw [Signal.drives, he])]
      exact ih (by simpa [he] using h)
    | drive c v =>
      rw [List.filterMap_cons_some (b := (c, v)) (by rw [Signal.drives, he])]
      simp only [he] at h
      split at h
      · cases h
      · exact .cons (not_not.1 ‹_›) (ih h)

/-- Writing 0 to a column that holds 0 changes nothing. -/
theorem set_zero_of_getD_eq_zero {t : List Nat} {i : Nat} (h : t.getD i 0 = 0) : t.set i 0 = t := by
  rw [List.getD_eq_getElem?_getD] at h
  by_cases hi : i < t.length
  · rw [List.getElem?_eq_getElem hi, Option.getD_some] at h
    exact h ▸ List.set_getElem_self hi
  · exact List.set_eq_of_length_le (Nat.le_of_not_lt hi)

/-- The second loop of R87 writes what the names hold. -/
theorem holdColumns_ok {previous : Option (List Nat)} {names : List Signal} {t u : List Nat}
    (h : holdColumns previous names t = .ok u) : ColumnsWritten (names.filterMap (Signal.holds previous)) t u := by
  induction names generalizing t with
  | nil =>
    cases h
    exact .nil _
  | cons n ns ih =>
    unfold holdColumns at h
    cases he : n.effect with
    | drive c v =>
      rw [List.filterMap_cons_none (by rw [Signal.holds, he])]
      exact ih (by simpa [he] using h)
    | hold c =>
      rw [List.filterMap_cons_some (b := (c, heldValue previous c)) (by rw [Signal.holds, he])]
      simp only [he] at h
      split at h
      · cases h
      · have hfree := not_not.1 ‹_›
        refine .cons hfree (ih ?_)
        cases previous with
        | none => rwa [heldValue, Option.getD_none, List.getD_replicate _ c.index_lt, set_zero_of_getD_eq_zero hfree]
        | some p => exact h

/-- Everything a compiled set has written, the driven columns first (R87). -/
theorem compile_ok {names : List Signal} {previous : Option (List Nat)} {t : List Nat} (h : compile names previous = .ok t) :
    ∃ u, ColumnsWritten (names.dedup.filterMap Signal.drives) (List.replicate 17 0) u ∧
      ColumnsWritten (names.dedup.filterMap (Signal.holds previous)) u t := by
  unfold compile at h
  split at h
  · cases h
  · exact ⟨_, driveColumns_ok ‹_›, holdColumns_ok h⟩

/-! What the writes leave in a column. -/

/-- A value that further writes leave in a column: one that is not 0, which no write may replace, or the value that every write to
the column has. -/
def FinalIn (ws : List (Column × Nat)) (c : Column) (v : Nat) : Prop := v ≠ 0 ∨ ∀ x, (c, x) ∈ ws → x = v

theorem FinalIn.tail {w : Column × Nat} {ws : List (Column × Nat)} {c : Column} {v : Nat} (h : FinalIn (w :: ws) c v) :
    FinalIn ws c v := h.imp_right (fun hall x hx => hall x (List.mem_cons_of_mem w hx))

namespace ColumnsWritten

variable {ws : List (Column × Nat)} {t u : List Nat} {c : Column} {v : Nat}

theorem length_eq (h : ColumnsWritten ws t u) : u.length = t.length := by
  induction h with
  | nil => rfl
  | cons free rest ih => rw [ih, List.length_set]

/-- A column keeps a final value. -/
theorem keeps (h : ColumnsWritten ws t u) (ht : t.length = 17) (hfinal : FinalIn ws c v) (hc : t.getD c.index 0 = v) :
    u.getD c.index 0 = v := by
  induction h with
  | nil => exact hc
  | @cons d x ws t u free rest ih =>
    refine ih (by rwa [List.length_set]) hfinal.tail ?_
    rw [getD_set_column ht]
    split
    · rename_i hd
      subst hd
      exact hfinal.elim (fun hv => absurd (hc.symm.trans free) hv) (fun hall => hall x List.mem_cons_self)
    · exact hc

/-- A column that is written with a final value has it at the end. -/
theorem written (h : ColumnsWritten ws t u) (ht : t.length = 17) (hfinal : FinalIn ws c v) (hmem : (c, v) ∈ ws) :
    u.getD c.index 0 = v := by
  induction h with
  | nil => cases hmem
  | @cons d x ws t u free rest ih =>
    have hlength : (t.set d.index x).length = 17 := by rwa [List.length_set]
    obtain he | hrest := List.mem_cons.1 hmem
    · cases he
      exact rest.keeps hlength hfinal.tail ((getD_set_column ht c c v).trans (if_pos rfl))
    · exact ih hlength hfinal.tail hrest

/-- A column that is not written keeps its value. -/
theorem unwritten (h : ColumnsWritten ws t u) (ht : t.length = 17) (hc : ∀ x, (c, x) ∉ ws) :
    u.getD c.index 0 = t.getD c.index 0 :=
  h.keeps ht (.inr fun x hx => absurd hx (hc x)) rfl

end ColumnsWritten

/-! The compiled word. -/

theorem Signal.drives_eq_some {n : Signal} {c : Column} {v : Nat} : n.drives = some (c, v) ↔ n.effect = .drive c v := by
  unfold Signal.drives
  cases n.effect <;> simp

theorem Signal.holds_eq_some {previous : Option (List Nat)} {n : Signal} {c : Column} {v : Nat} :
    n.holds previous = some (c, v) ↔ n.effect = .hold c ∧ v = heldValue previous c := by
  unfold Signal.holds
  cases n.effect with
  | drive => simp
  | hold d =>
    simp only [Option.some.injEq, Prod.mk.injEq, SignalEffect.hold.injEq]
    constructor <;> rintro ⟨rfl, rfl⟩ <;> exact ⟨rfl, rfl⟩

/-- No name drives a column with 0 (R84, R85). -/
theorem Signal.drive_ne_zero {n : Signal} {c : Column} {v : Nat} (h : n.effect = .drive c v) : v ≠ 0 := by
  cases n <;> cases h <;> decide

/-- Settles O51: the driven columns are written before the held ones, each into a column that holds 0. -/
theorem compiledColumnIsDrivenHeldOrZero : Obligations.CompiledColumnIsDrivenHeldOrZero := by
  intro names previous t h
  obtain ⟨u, hdriven, hheld⟩ := compile_ok h
  have hzero : (List.replicate 17 0).length = 17 := List.length_replicate
  have hu : u.length = 17 := hdriven.length_eq.trans hzero
  refine ⟨hheld.length_eq.trans hu, fun n hn c v he => ?_, fun n hn c he => ?_, fun c hc => ?_⟩
  · have hv := Signal.drive_ne_zero he
    have hmem : (c, v) ∈ names.dedup.filterMap Signal.drives :=
      List.mem_filterMap.2 ⟨n, List.mem_dedup.2 hn, Signal.drives_eq_some.2 he⟩
    exact hheld.keeps hu (.inl hv) (hdriven.written hzero (.inl hv) hmem)
  · have hmem : (c, heldValue previous c) ∈ names.dedup.filterMap (Signal.holds previous) :=
      List.mem_filterMap.2 ⟨n, List.mem_dedup.2 hn, Signal.holds_eq_some.2 ⟨he, rfl⟩⟩
    refine hheld.written hu (.inr fun x hx => ?_) hmem
    obtain ⟨k, -, hk⟩ := List.mem_filterMap.1 hx
    exact (Signal.holds_eq_some.1 hk).2
  · have hnodrive : ∀ x, (c, x) ∉ names.dedup.filterMap Signal.drives := by
      intro x hx
      obtain ⟨n, hn, he⟩ := List.mem_filterMap.1 hx
      exact (hc n (List.mem_dedup.1 hn)).1 x (Signal.drives_eq_some.1 he)
    have hnohold : ∀ x, (c, x) ∉ names.dedup.filterMap (Signal.holds previous) := by
      intro x hx
      obtain ⟨n, hn, he⟩ := List.mem_filterMap.1 hx
      exact (hc n (List.mem_dedup.1 hn)).2 (Signal.holds_eq_some.1 he).1
    rw [hheld.unwritten hu hnohold, hdriven.unwritten hzero hnodrive]
    exact List.getD_replicate _ c.index_lt

/-! The generator. -/

/-- A set with a name outside the vocabulary is not spelled in it (R84). -/
theorem not_spelled_of_undefined {names : List String} (h : ∃ text ∈ names, ∀ n : Signal, n.name ≠ text) (ns : List Signal) :
    names ≠ ns.map Signal.name := by
  rintro rfl
  obtain ⟨text, hmem, hbad⟩ := h
  obtain ⟨n, -, hn⟩ := List.mem_map.1 hmem
  exact hbad n hn

/-- A set with a name outside the vocabulary is refused for such a name (R87, first line). -/
theorem compileNames_undefined {names : List String} (previous : Option (List Nat))
    (h : ∃ text ∈ names, ∀ n : Signal, n.name ≠ text) :
    ∃ text ∈ names, (∀ n : Signal, n.name ≠ text) ∧ compileNames names previous = .error (.undefinedSignal text) := by
  obtain ⟨ns, -, hns⟩ | ⟨text, hmem, hnone, hlookup⟩ := lookupNames_cases names
  · exact absurd hns (not_spelled_of_undefined h ns)
  · exact ⟨text, hmem, Signal.ofName_eq_none.1 hnone, by simp [compileNames, hlookup]⟩

/-- Every mode and every opcode stands in a legal pair, so the construction visits the program of each (R63, R88). -/
theorem exists_legalPair_of_mode (m : Mode) : ∃ o, legalPair o m = true := by
  cases m with
  | none => exact ⟨.inc, rfl⟩
  | direct | labelAddr | labelValue | indirect => exact ⟨.add, rfl⟩

theorem exists_legalPair_of_opcode (o : Opcode) : ∃ m, legalPair o m = true := by
  have hall : ∀ o ∈ Opcode.all, ∃ m ∈ Mode.all, legalPair o m = true := by decide
  obtain ⟨m, -, h⟩ := hall o (by cases o <;> decide)
  exact ⟨m, h⟩

/-- Every set of a source that is built is spelled in the vocabulary, wherever it stands (R88). -/
theorem MicroSource.spelled_of_build_ok {src : MicroSource} {m : Microcode} (h : src.build = .ok m) {names : List String}
    (hmem : names ∈ src.boot ∨ (∃ m, names ∈ src.mode m) ∨ (∃ o, names ∈ src.opcode o)) :
    ∃ ns : List Signal, names = ns.map Signal.name := by
  obtain ⟨hboot, hpairs⟩ := MicroSource.build_ok h
  obtain hb | ⟨mode, hm⟩ | ⟨o, ho⟩ := hmem
  · exact hboot names hb
  · obtain ⟨o, hlegal⟩ := exists_legalPair_of_mode mode
    exact hpairs (o, mode) ((mem_legalPairs o mode).2 hlegal) names (List.mem_append_left _ hm)
  · obtain ⟨mode, hlegal⟩ := exists_legalPair_of_opcode o
    exact hpairs (o, mode) ((mem_legalPairs o mode).2 hlegal) names (List.mem_append_right _ ho)

/-- A source with a set that has a name outside the vocabulary is refused (R87, R254). -/
theorem MicroSource.build_undefined {src : MicroSource} {names : List String}
    (hbad : ∃ text ∈ names, ∀ n : Signal, n.name ≠ text)
    (hmem : names ∈ src.boot ∨ (∃ m, names ∈ src.mode m) ∨ (∃ o, names ∈ src.opcode o)) : ∃ e, src.build = .error e := by
  cases hbuild : src.build with
  | error e => exact ⟨e, rfl⟩
  | ok m =>
    obtain ⟨ns, hns⟩ := MicroSource.spelled_of_build_ok hbuild hmem
    exact absurd hns (not_spelled_of_undefined hbad ns)

/-- The host's sequence passes on the refusal of the generator (R254, R282). -/
theorem prepare_build_error {cfg : Config} {src : MicroSource} {e : ConfigError} (hcfg : cfg.wellFormed = true)
    (h : src.build = .error e) (doc : ProgramDocument) (in0 p1in p2in : List Int) :
    prepare cfg (.built src) doc in0 p1in p2in = .error e := by
  simp [prepare, hcfg, RomChoice.microcode, h]

/-- The construction evaluated on the reference micro-programs (R125, R126). -/
theorem referenceSource_build : referenceSource.build = .ok referenceMicrocode := by decide

theorem referenceMicrocode_wellFormed : referenceMicrocode.wellFormed = true := by decide

/-- Settles O52: the construction evaluates to the reference ROM, and a set that it compiles has names of the vocabulary only. -/
theorem generatorBuildsTheReferenceRom : Obligations.GeneratorBuildsTheReferenceRom := by
  refine ⟨⟨referenceSource_build, referenceMicrocode_rom_length, referenceMicrocode_wellFormed⟩,
    fun names previous hbad => compileNames_undefined previous hbad, fun src names hbad hmem => ?_⟩
  obtain ⟨e, he⟩ := MicroSource.build_undefined hbad hmem
  exact ⟨e, he, fun cfg doc in0 p1in p2in hcfg => prepare_build_error hcfg he doc in0 p1in p2in⟩

end Sys2Proof.Machine
end

section
/-! PROOFS. A control word that is applied to the end, seen around one of its columns, and what that says of the accumulator, the
outputs, `MIP` and `ICOUNT` (31_control_word.md R89, R100 to R107; 10_state.md R23). -/

namespace Sys2Proof.Machine

/-! A word around one of its columns. -/

/-- The columns before a column in canonical order (R81). -/
def Column.before (k : Column) : List Column := Column.all.take k.index

/-- The columns after a column in canonical order (R81). -/
def Column.after (k : Column) : List Column := Column.all.drop (k.index + 1)

theorem Column.all_eq_before_after (k : Column) : Column.all = k.before ++ k :: k.after := by cases k <;> rfl

theorem Column.not_mem_before (k : Column) : k ∉ k.before := by cases k <;> decide

theorem Column.not_mem_after (k : Column) : k ∉ k.after := by cases k <;> decide

/-- A word applied to the end has applied the columns before `k`, `k` itself and the columns after it to the end (R89). -/
theorem applyWord_done_around (k : Column) {m : Microcode} {w : ControlWord} {s t : State} (h : applyWord m w s = .done t) :
    ∃ u v, applyColumns m w k.before (.done s) = .done u ∧ primitive m w k u = .done v ∧
      applyColumns m w k.after (.done v) = .done t := by
  have hword : applyWord m w s = applyColumns m w k.after ((applyColumns m w k.before (.done s)).andThen (primitive m w k)) := by
    rw [applyWord, k.all_eq_before_after, List.foldl_append, List.foldl_cons]
    rfl
  rw [hword] at h
  cases hu : applyColumns m w k.before (.done s) with
  | raised c u =>
    rw [hu, TickResult.andThen_raised, applyColumns_raised] at h
    cases h
  | done u =>
    rw [hu, TickResult.andThen_done] at h
    cases hv : primitive m w k u with
    | raised c v =>
      rw [hv, applyColumns_raised] at h
      cases h
    | done v => exact ⟨u, v, rfl, hv, hv ▸ h⟩

/-- Columns applied to the end leave an element that only a column not among them writes. -/
theorem applyColumns_done_keeps {α : Type} (f : State → α) {k : Column} {w : ControlWord}
    (hf : ∀ {c : Column} {u v : State}, ColumnWrite w u c v → c ≠ k → f v = f u) {m : Microcode} {cs : List Column} (hk : k ∉ cs)
    {s t : State} (h : applyColumns m w cs (.done s) = .done t) : f t = f s := by
  have hkeeps := applyColumns_induct (fun u => f u = f s) m w cs
    (fun c hc u hu => (hf (primitive_columnWrite m w c u) (fun he => hk (he ▸ hc))).trans hu) (.done s) rfl
  rwa [h] at hkeeps

namespace ColumnWrite

variable {w : ControlWord} {s t : State} {c : Column}

/-- Only `LATCH_ACC` writes the accumulator and its flag (R100). -/
theorem acc_z (h : ColumnWrite w s c t) (hc : c ≠ .latchAcc) : (t.acc, t.z) = (s.acc, s.z) := by
  cases h with
  | acc => exact absurd rfl hc
  | pop | output | port1Out | port2Out => simp
  | dataOut ht =>
    obtain ⟨-, rfl⟩ := State.dmemWrite_eq_some.1 ht
    rfl
  | _ => rfl

/-- Only `DO_ALU` writes the staged result (R99). -/
theorem aluOut_aluZ (h : ColumnWrite w s c t) (hc : c ≠ .doAlu) : (t.aluOut, t.aluZ) = (s.aluOut, s.aluZ) := by
  cases h with
  | alu | pop => exact absurd rfl hc
  | output | port1Out | port2Out => simp
  | dataOut ht =>
    obtain ⟨-, rfl⟩ := State.dmemWrite_eq_some.1 ht
    rfl
  | _ => rfl

/-- Only `LATCH_ADDR` writes the address register (R97). -/
theorem ar_eq (h : ColumnWrite w s c t) (hc : c ≠ .latchAddr) : t.ar = s.ar := by
  cases h with
  | addr => exact absurd rfl hc
  | pop | output | port1Out | port2Out => simp
  | dataOut ht =>
    obtain ⟨-, rfl⟩ := State.dmemWrite_eq_some.1 ht
    rfl
  | _ => rfl

/-- Only `LATCH_IR` writes the instruction register (R95). -/
theorem ir_eq (h : ColumnWrite w s c t) (hc : c ≠ .latchIr) : t.ir = s.ir := by
  cases h with
  | ir => exact absurd rfl hc
  | pop | output | port1Out | port2Out => simp
  | dataOut ht =>
    obtain ⟨-, rfl⟩ := State.dmemWrite_eq_some.1 ht
    rfl
  | _ => rfl

/-- Only `DATA_OUT` writes data memory (R103). -/
theorem dmem_eq (h : ColumnWrite w s c t) (hc : c ≠ .dataOut) : t.dmem = s.dmem := by
  cases h with
  | dataOut => exact absurd rfl hc
  | pop | output | port1Out | port2Out => simp
  | _ => rfl

end ColumnWrite

section

variable {m : Microcode} {w : ControlWord} {s t : State}

/-! The accumulator. -/

/-- `LATCH_ACC` commits the result staged before it, which the later columns leave alone (R100). -/
theorem applyWord_latchAcc (h : applyWord m w s = .done t) (hw : w.latchAcc = true) : t.acc = t.aluOut ∧ t.z = t.aluZ := by
  obtain ⟨u, v, -, hv, hafter⟩ := applyWord_done_around .latchAcc h
  have hacc := applyColumns_done_keeps (fun u => (u.acc, u.z)) ColumnWrite.acc_z (Column.not_mem_after _) hafter
  have halu := applyColumns_done_keeps (fun u => (u.aluOut, u.aluZ)) ColumnWrite.aluOut_aluZ (by decide) hafter
  obtain ⟨hn, -⟩ | ⟨-, he⟩ := primLatchAcc_cases w u
  · simp [hw] at hn
  · cases hv.symm.trans he
    exact Prod.mk.inj (hacc.trans halu.symm)

theorem applyWord_no_latchAcc (h : applyWord m w s = .done t) (hw : w.latchAcc = false) : t.acc = s.acc ∧ t.z = s.z := by
  obtain ⟨u, v, hbefore, hv, hafter⟩ := applyWord_done_around .latchAcc h
  have hfirst := applyColumns_done_keeps (fun u => (u.acc, u.z)) ColumnWrite.acc_z (Column.not_mem_before _) hbefore
  have hlast := applyColumns_done_keeps (fun u => (u.acc, u.z)) ColumnWrite.acc_z (Column.not_mem_after _) hafter
  obtain ⟨-, he⟩ | ⟨hn, -⟩ := primLatchAcc_cases w u
  · cases hv.symm.trans he
    exact Prod.mk.inj (hlast.trans hfirst)
  · simp [hw] at hn

/-- A column that appends to an output sequence appends the accumulator that the whole word leaves: `LATCH_ACC` stands before it
(R101, R106, R107). -/
theorem applyWord_appends (h : applyWord m w s = .done t) {q : OutQueue} (hw : w.appendsTo q = true) :
    t.outQueue q = s.outQueue q ++ [t.acc] := by
  obtain ⟨u, v, hbefore, hv, hafter⟩ := applyWord_done_around q.column h
  have hlatched : Column.latchAcc ∉ q.column.after := by cases q <;> decide
  have hfirst := applyColumns_done_keeps (State.outQueue · q) (ColumnWrite.outQueue · ·) (Column.not_mem_before _) hbefore
  have hlast := applyColumns_done_keeps (State.outQueue · q) (ColumnWrite.outQueue · ·) (Column.not_mem_after _) hafter
  have hacc := applyColumns_done_keeps (fun u => (u.acc, u.z)) ColumnWrite.acc_z hlatched hafter
  rw [primitive_appends, if_pos hw] at hv
  cases hv
  have hsame : t.acc = u.acc := (Prod.mk.inj hacc).1.trans (u.appendOut_acc q _)
  rw [hlast, State.outQueue_appendOut, if_pos rfl, hfirst, hsame]

/-- `DATA_OUT` writes the accumulator that the whole word leaves to the cell at the address that it leaves (R103). -/
theorem applyWord_dataOut (h : applyWord m w s = .done t) (hw : w.dataOut = true) (hs : s.memorySound = true) :
    t.dmem.read t.ar.toNat = t.acc := by
  obtain ⟨u, v, hbefore, hv, hafter⟩ := applyWord_done_around .dataOut h
  have hfirst := applyColumns_done_keeps State.dmem ColumnWrite.dmem_eq (Column.not_mem_before _) hbefore
  have hlast := applyColumns_done_keeps State.dmem ColumnWrite.dmem_eq (Column.not_mem_after _) hafter
  have hacc := applyColumns_done_keeps (fun u => (u.acc, u.z)) ColumnWrite.acc_z (by decide) hafter
  have har := applyColumns_done_keeps State.ar ColumnWrite.ar_eq (by decide) hafter
  have hwf : u.dmem.wf = true := hfirst ▸ (Bool.and_eq_true_iff.1 hs).1
  obtain ⟨hn, -⟩ | ⟨-, v', hwrite, he⟩ | ⟨-, -, he⟩ := primDataOut_cases w u
  · simp [hw] at hn
  · cases hv.symm.trans he
    obtain ⟨-, rfl⟩ := State.dmemWrite_eq_some.1 hwrite
    rw [hlast, har, (Prod.mk.inj hacc).1]
    exact Memory.read_write_same hwf _ _
  · cases hv.symm.trans he

/-! `MIP` and `ICOUNT`. -/

/-- What a micro latch that completes does (R105). -/
theorem primMicroLatchIp_done {u v : State} (h : primMicroLatchIp m w u = .done v) :
    (w.microLatchIp = false ∧ v = u) ∨
    (w.microLatchIp = true ∧ w.microSelIp = 0 ∧ u.mip + 1 < m.rom.length ∧ v = u.setMip (u.mip + 1)) ∨
    (w.microLatchIp = true ∧ w.microSelIp = 1 ∧ ∃ o, m.entry u.ir.toNat = some o ∧ o < m.rom.length ∧ v = u.setMip o) ∨
    (w.microLatchIp = true ∧ w.microSelIp = 2 ∧ v = u.boundary) := by
  obtain ⟨hl, he⟩ | ⟨hl, hsel, hlt, he⟩ | ⟨-, -, -, he⟩ | ⟨-, -, -, he⟩ | ⟨hl, hsel, o, ho, hlt, he⟩ | ⟨-, -, o, -, -, he⟩ |
    ⟨hl, hsel, he⟩ | ⟨-, -, he⟩ := primMicroLatchIp_cases m w u <;> cases h.symm.trans he
  exacts [.inl ⟨hl, rfl⟩, .inr (.inl ⟨hl, hsel, hlt, rfl⟩), .inr (.inr (.inl ⟨hl, hsel, o, ho, hlt, rfl⟩)),
    .inr (.inr (.inr ⟨hl, hsel, rfl⟩))]

/-- A word applied to the end moves `MIP` and `ICOUNT` as the micro latch does, on their values before the tick and on the `IR`
after it: `LATCH_IR` stands before the micro latch (R105). -/
theorem applyWord_microLatchIp (h : applyWord m w s = .done t) :
    ∃ u v, primMicroLatchIp m w u = .done v ∧ (u.mip = s.mip ∧ u.icount = s.icount) ∧
      t.mip = v.mip ∧ t.icount = v.icount ∧ t.ir = v.ir := by
  obtain ⟨u, v, hbefore, hv, hafter⟩ := applyWord_done_around .microLatchIp h
  have hfield {x y : State} {c : Column} (hw : ColumnWrite w x c y) (hc : c ≠ .microLatchIp) :
      (y.mip, y.icount) = (x.mip, x.icount) := Prod.ext_iff.2 (hw.mip_icount hc)
  have hfirst := applyColumns_done_keeps (fun u => (u.mip, u.icount)) hfield (Column.not_mem_before _) hbefore
  have hlast := applyColumns_done_keeps (fun u => (u.mip, u.icount)) hfield (Column.not_mem_after _) hafter
  have hir := applyColumns_done_keeps State.ir ColumnWrite.ir_eq (by decide) hafter
  exact ⟨u, v, hv, Prod.mk.inj hfirst, (Prod.mk.inj hlast).1, (Prod.mk.inj hlast).2, hir⟩

end

/-- Settles O47: each column sees the accumulator of the word's end, because `LATCH_ACC` stands before it. -/
theorem laterColumnsSeeTheLatchedAccumulator : Obligations.LaterColumnsSeeTheLatchedAccumulator := by
  intro m w s t h
  exact ⟨applyWord_latchAcc h, applyWord_no_latchAcc h, applyWord_appends h (q := .out0), applyWord_appends h (q := .p1out),
    applyWord_appends h (q := .p2out), applyWord_dataOut h⟩

/-- Settles O48: the four ways in which the micro latch completes; the reserved select is none of them. -/
theorem microLatchAloneMovesMip : Obligations.MicroLatchAloneMovesMip := by
  intro m w s t h
  obtain ⟨u, v, hv, ⟨hum, hui⟩, htm, hti, htr⟩ := applyWord_microLatchIp h
  rw [htm, hti, htr]
  obtain ⟨hl, rfl⟩ | ⟨hl, hsel, hlt, rfl⟩ | ⟨hl, hsel, o, ho, hlt, rfl⟩ | ⟨hl, hsel, rfl⟩ := primMicroLatchIp_done hv
  · simp [hl, hum, hui]
  · rw [hum] at hlt
    simp [hl, hsel, hum, hui, hlt]
  · simp [hl, hsel, hui, ho, hlt]
  · simp [hl, hsel, hui]

end Sys2Proof.Machine
end

section
/-! PROOFS. A step where the fetch finds no instruction (30_encoding.md R65; 31_control_word.md R95), and that a program of legal
codes meets no microcode fault on the reference ROM (31_control_word.md R105; 32_microcode_rom.md R127). -/

namespace Sys2Proof.Machine

/-! A fetch that finds no instruction. -/

section

variable {s : State}

theorem fetch_outsideProgram (hat : s.atCeiling = false) (hip : s.ip ≥ (s.progLen : Int)) :
    s.fetch = .stop (s.stop (.fetchOutsideProgram s.ip)) := by
  simp [State.fetch, hat, hip]

theorem fetch_illegalCode (hat : s.atCeiling = false) (hip : s.ip < (s.progLen : Int))
    (hcode : legalCode (s.imemRead s.ip).code = false) :
    s.fetch = .stop ((s.setIr (s.imemRead s.ip).code).stop (.decodeIndexMiss (s.imemRead s.ip).code)) := by
  simp [State.fetch, hat, not_le.2 hip, decode_error _ hcode]

/-- At an instruction boundary a fetch that stops is the step. -/
theorem step_of_fetch_stop {t : State} (hrun : s.status = .running) (hmip : s.mip = 0) (hip : s.ipInRange = true)
    (h : s.fetch = .stop t) : step s = .next t := by
  simp [step, hrun, hmip, hip, h]

end

/-- Settles O32: the fetch of a padding word and the fetch of an illegal code stop, and each stop is the step. -/
theorem stepOnNoInstructionStops : Obligations.StepOnNoInstructionStops :=
  fun _ hrun hmip hip hat =>
    ⟨fun hpad => step_of_fetch_stop hrun hmip hip (fetch_outsideProgram hat hpad),
      fun hprog hcode => step_of_fetch_stop hrun hmip hip (fetch_illegalCode hat hprog hcode)⟩

/-! Microcode faults. -/

/-- The causes that name a fault of the microcode or of the code that it dispatches (R105, R127). -/
def Cause.ofMicrocode : Cause → Bool
  | .decodeIndexMiss _ | .microAddrOutOfRange _ | .reservedMicroSelect _ => true
  | _ => false

/-- The machine has not stopped with a microcode fault. -/
def State.FreeOfMicrocodeFault (s : State) : Prop := ∀ c, s.status = .stopped c → c.ofMicrocode = false

theorem freeOfMicrocodeFault_of_running {s : State} (h : s.status = .running) : s.FreeOfMicrocodeFault := by
  simp [State.FreeOfMicrocodeFault, h]

theorem freeOfMicrocodeFault_stop (s : State) {c : Cause} (h : c.ofMicrocode = false) : (s.stop c).FreeOfMicrocodeFault := by
  rintro _ ⟨⟩
  exact h

/-- The results of a tick that leaves `STATUS` alone and raises no microcode fault. -/
inductive FaultFreeTick (s : State) : TickResult → Prop where
  | done {t : State} (status : t.status = s.status) : FaultFreeTick s (.done t)
  | raised {c : Cause} {t : State} (cause : c.ofMicrocode = false) : FaultFreeTick s (.raised c t)

/-- The loop body stops with no microcode fault around such a tick. -/
theorem freeOfMicrocodeFault_controlTick {f : State → TickResult} {s : State} (h : s.FreeOfMicrocodeFault)
    (hf : FaultFreeTick s (f s)) : (controlTick f s).FreeOfMicrocodeFault := by
  obtain ⟨c, -, he⟩ | ⟨-, -, he⟩ | ⟨hrun, -, t, ht, he⟩ | ⟨-, -, c, t, ht, he⟩ := controlTick_cases f s <;> rw [he]
  · exact h
  · exact freeOfMicrocodeFault_stop s rfl
  all_goals
    rw [ht] at hf
    cases hf
  · exact freeOfMicrocodeFault_of_running (Eq.trans ‹_› hrun)
  · exact freeOfMicrocodeFault_stop t ‹_›

/-! The ticks of an instruction. -/

theorem faultFreeTick_readCell (a : Int) (s : State) : FaultFreeTick s (readCellTick a s) := by
  obtain ⟨v, -, he⟩ | ⟨-, he⟩ := readCellTick_cases a s <;> rw [he]
  exacts [.done rfl, .raised rfl]

theorem faultFreeTick_operand (fn : AluFn) (i : Instr) (s : State) : FaultFreeTick s (operandTick fn i s) := by
  unfold operandTick
  split <;> exact .done rfl

theorem faultFreeTick_input (q : InQueue) (s : State) : FaultFreeTick s (inputTick q s) := by
  obtain ⟨v, rest, -, he⟩ | ⟨-, he⟩ := inputTick_cases q s <;> rw [he]
  exacts [.done (by simp), .raised rfl]

theorem faultFreeTick_output (q : OutQueue) (s : State) : FaultFreeTick s (outputTick q s) :=
  .done (s.appendOut_status q s.acc)

theorem faultFreeTick_store (s : State) : FaultFreeTick s (storeTick s) := by
  obtain ⟨t, ht, he⟩ | ⟨-, he⟩ := storeTick_cases s <;> rw [he]
  · obtain ⟨-, rfl⟩ := State.dmemWrite_eq_some.1 ht
    exact .done rfl
  · exact .raised rfl

theorem faultFreeTick_latch (new : Int) (s : State) : FaultFreeTick s (latchTick new s) := by
  obtain ⟨-, he⟩ | ⟨-, he⟩ := latchTick_cases new s <;> rw [he]
  exacts [.done rfl, .raised rfl]

theorem faultFreeTick_of_mem_modeTicks {i : Instr} {f : State → TickResult} (hf : f ∈ modeTicks i) (s : State) :
    FaultFreeTick s (f s) := by
  have hmem : f = argCellTick i.arg ∨ f = pointerCellTick := by
    unfold modeTicks at hf
    cases hm : i.mode <;> rw [hm] at hf
    case direct | labelAddr => exact .inl (List.mem_singleton.1 hf)
    case indirect => simpa using hf
    case none | labelValue => cases hf
  obtain rfl | rfl := hmem <;> exact faultFreeTick_readCell _ s

theorem faultFreeTick_of_mem_operationTicks {i : Instr} {f : State → TickResult} (hf : f ∈ operationTicks i) (s : State) :
    FaultFreeTick s (f s) := by
  unfold operationTicks at hf
  cases ho : i.opcode <;> rw [ho] at hf
  case jmp | jmpz | hlt => cases hf
  all_goals rw [List.mem_singleton.1 hf]
  case inc | dec | cls | neg => exact .done rfl
  case add | sub | load => exact faultFreeTick_operand _ i s
  case store => exact faultFreeTick_store s
  case input | port1In | port2In => exact faultFreeTick_input _ s
  case output | port1Out | port2Out => exact faultFreeTick_output _ s

/-- The meaning of an instruction is a sequence of ticks that raise no microcode fault. -/
theorem exec_eq_faultFreeTicks (i : Instr) (s : State) :
    ∃ fs, exec i s = .next (runTicks fs s) ∧ ∀ f ∈ fs, ∀ u, FaultFreeTick u (f u) := by
  by_cases hi : i = .hlt
  · refine ⟨[haltTick 160], by rw [hi, exec_hlt], fun f hf u => ?_⟩
    rw [List.mem_singleton.1 hf]
    exact .raised rfl
  · obtain ⟨entry, -, -, he⟩ := exec_eq_block hi s
    refine ⟨_, he, fun f hf u => ?_⟩
    simp only [middleTicks, List.mem_cons, List.mem_append, List.not_mem_nil, or_false] at hf
    obtain rfl | (hf | hf) | rfl := hf
    · exact .done rfl
    · exact faultFreeTick_of_mem_modeTicks hf u
    · exact faultFreeTick_of_mem_operationTicks hf u
    · exact faultFreeTick_latch _ u

theorem exec_freeOfMicrocodeFault {i : Instr} {s t : State} (hs : s.FreeOfMicrocodeFault) (h : exec i s = .next t) :
    t.FreeOfMicrocodeFault := by
  obtain ⟨fs, he, hfs⟩ := exec_eq_faultFreeTicks i s
  rw [he] at h
  cases h
  exact runTicks_induct _ fs s hs (fun f hf u hu => freeOfMicrocodeFault_controlTick hu (hfs f hf u))

/-! The ticks of the reference ROM inside a block. -/

/-- Only the micro latch raises a microcode fault (R93 to R107). -/
theorem faultFreeTick_primitive (m : Microcode) (w : ControlWord) {c : Column} (hc : c ≠ .microLatchIp) (s : State) :
    FaultFreeTick s (primitive m w c s) := by
  cases c with
  | microLatchIp => exact absurd rfl hc
  | selIp | selJump | selAddr | selAlu | selAluIn | microSelIp => exact .done rfl
  | latchIp =>
    obtain ⟨-, he⟩ | ⟨-, -, he⟩ | ⟨-, -, he⟩ := primLatchIp_cases w s <;> rw [primitive, he]
    exacts [.done rfl, .done rfl, .raised rfl]
  | latchIr =>
    obtain ⟨-, he⟩ | ⟨-, -, he⟩ | ⟨-, -, -, he⟩ | ⟨-, -, -, he⟩ := primLatchIr_cases w s <;> rw [primitive, he]
    exacts [.done rfl, .raised rfl, .raised rfl, .done rfl]
  | latchAddr =>
    obtain ⟨-, he⟩ | ⟨-, he⟩ := primLatchAddr_cases w s <;> rw [primitive, he] <;> exact .done rfl
  | doAlu =>
    obtain ⟨-, he⟩ | ⟨-, -, he⟩ | ⟨-, q, -, -, he⟩ | ⟨-, q, v, rest, -, -, he⟩ := primDoAlu_cases w s <;> rw [primitive, he]
    exacts [.done rfl, .done rfl, .raised rfl, .done (by simp)]
  | latchAcc =>
    obtain ⟨-, he⟩ | ⟨-, he⟩ := primLatchAcc_cases w s <;> rw [primitive, he] <;> exact .done rfl
  | output =>
    obtain ⟨-, he⟩ | ⟨-, he⟩ := primOutput_cases w s <;> rw [primitive, he] <;> exact .done rfl
  | dataIn =>
    obtain ⟨-, he⟩ | ⟨-, v, -, he⟩ | ⟨-, -, he⟩ := primDataIn_cases w s <;> rw [primitive, he]
    exacts [.done rfl, .done rfl, .raised rfl]
  | dataOut =>
    obtain ⟨-, he⟩ | ⟨-, t, ht, he⟩ | ⟨-, -, he⟩ := primDataOut_cases w s <;> rw [primitive, he]
    · exact .done rfl
    · obtain ⟨-, rfl⟩ := State.dmemWrite_eq_some.1 ht
      exact .done rfl
    · exact .raised rfl
  | port1Out =>
    obtain ⟨-, he⟩ | ⟨-, he⟩ := primPort1Out_cases w s <;> rw [primitive, he] <;> exact .done rfl
  | port2Out =>
    obtain ⟨-, he⟩ | ⟨-, he⟩ := primPort2Out_cases w s <;> rw [primitive, he] <;> exact .done rfl

/-- One more primitive after those that raised no microcode fault. -/
theorem FaultFreeTick.andThen {s : State} {r : TickResult} {f : State → TickResult} (h : FaultFreeTick s r)
    (hf : ∀ t, r = .done t → FaultFreeTick t (f t)) : FaultFreeTick s (r.andThen f) := by
  cases h with
  | raised cause => exact .raised cause
  | @done t status =>
    have hlast := hf t rfl
    rw [TickResult.andThen_done]
    cases hr : f t with
    | done u =>
      rw [hr] at hlast
      cases hlast with
      | done hu => exact .done (hu.trans status)
    | raised c u =>
      rw [hr] at hlast
      cases hlast with
      | raised cause => exact .raised cause

theorem faultFreeTick_applyColumns (m : Microcode) (w : ControlWord) {cs : List Column} (hcs : .microLatchIp ∉ cs) {s : State}
    {r : TickResult} (h : FaultFreeTick s r) : FaultFreeTick s (applyColumns m w cs r) := by
  induction cs generalizing r with
  | nil => exact h
  | cons c cs ih =>
    have hc : c ≠ .microLatchIp := fun he => hcs (he ▸ List.mem_cons_self)
    exact ih (fun hmem => hcs (List.mem_cons_of_mem c hmem)) (h.andThen fun t _ => faultFreeTick_primitive m w hc t)

/-- Inside a block of the reference ROM every word goes to the next word, which is one of the ROM, or back to the fetch word
(R127). -/
theorem referenceMicrocode_word_in_block {k : Nat} {w : ControlWord} (h : referenceMicrocode.rom[k]? = some w) (hk : k ≠ 0) :
    (w.microSelIp = 0 ∧ k + 1 < referenceMicrocode.rom.length) ∨ w.microSelIp = 2 := by
  have hall : ∀ p ∈ referenceMicrocode.rom.zipIdx, p.2 ≠ 0 →
      (p.1.microSelIp = 0 ∧ p.2 + 1 < referenceMicrocode.rom.length) ∨ p.1.microSelIp = 2 := by decide
  exact hall (w, k) (List.mem_zipIdx_iff_getElem?.2 h) hk

/-- A micro latch that goes to the next word of the ROM or back to the fetch word raises no microcode fault (R105). -/
theorem faultFreeTick_primMicroLatchIp {m : Microcode} {w : ControlWord} {s : State}
    (h : (w.microSelIp = 0 ∧ s.mip + 1 < m.rom.length) ∨ w.microSelIp = 2) : FaultFreeTick s (primMicroLatchIp m w s) := by
  unfold primMicroLatchIp
  split
  · obtain ⟨hsel, hlt⟩ | hsel := h
    · simpa [hsel, hlt] using .done rfl
    · simpa [hsel] using .done rfl
  · exact .done rfl

theorem faultFreeTick_applyWord {s : State} {w : ControlWord} (hw : referenceMicrocode.rom[s.mip]? = some w) (hmip : s.mip ≠ 0) :
    FaultFreeTick s (applyWord referenceMicrocode w s) := by
  have hword := referenceMicrocode_word_in_block hw hmip
  have hbefore := applyColumns_before_microLatchIp referenceMicrocode w s
  rw [applyWord_eq_around_microLatchIp]
  refine (((faultFreeTick_applyColumns _ w (by decide) (.done rfl)).andThen fun u hu => ?_).andThen fun u _ => ?_).andThen
    fun u _ => ?_
  · rw [hu] at hbefore
    refine faultFreeTick_primMicroLatchIp ?_
    rwa [show u.mip = s.mip from hbefore.1]
  · exact faultFreeTick_primitive referenceMicrocode w (c := .port1Out) (by decide) u
  · exact faultFreeTick_primitive referenceMicrocode w (c := .port2Out) (by decide) u

theorem tick_freeOfMicrocodeFault {s t : State} (hs : s.FreeOfMicrocodeFault) (hmip : s.mip ≠ 0) (h : tick s = .next t) :
    t.FreeOfMicrocodeFault := by
  obtain ⟨-, rfl⟩ | ⟨-, -, w, hw, rfl⟩ := tickOf_next_cases h
  · exact hs
  · exact freeOfMicrocodeFault_controlTick hs (faultFreeTick_applyWord hw hmip)

/-! The step. -/

/-- The word at an `IP` inside the program is one of the program's (20_memory.md R42, R46). -/
theorem State.imemRead_mem {s : State} (hip : s.ipInRange = true) (hprog : s.ip < (s.progLen : Int)) :
    s.imemRead s.ip ∈ s.imem := by
  obtain ⟨hnonneg, -⟩ := (inRange_iff _ _).1 hip
  have hlt : s.ip.toNat < s.imem.length := by
    unfold State.progLen at hprog
    omega
  rw [State.imemRead, List.getD_eq_getElem _ _ hlt]
  exact List.getElem_mem hlt

/-- With a program of legal codes a fetch that stops names no microcode fault (R105). -/
theorem fetch_stop_freeOfMicrocodeFault {s t : State} (hip : s.ipInRange = true)
    (hlegal : ∀ w ∈ s.imem, legalCode w.code = true) (h : s.fetch = .stop t) : t.FreeOfMicrocodeFault := by
  obtain ⟨-, he⟩ | ⟨-, -, he⟩ | ⟨-, -, i, -, he⟩ | ⟨-, hprog, hillegal, -⟩ := s.fetch_cases
  · cases h.symm.trans he
    exact freeOfMicrocodeFault_stop s rfl
  · cases h.symm.trans he
    exact freeOfMicrocodeFault_stop s rfl
  · cases h.symm.trans he
  · exact absurd ((hlegal _ (State.imemRead_mem hip hprog)).symm.trans hillegal) (by decide)

theorem step_freeOfMicrocodeFault {s t : State} (hs : s.FreeOfMicrocodeFault) (hlegal : ∀ w ∈ s.imem, legalCode w.code = true)
    (h : step s = .next t) : t.FreeOfMicrocodeFault := by
  obtain ⟨c, -, he⟩ | ⟨-, -, he⟩ | ⟨-, -, -, i, -, he⟩ | ⟨-, hip, -, u, hu, he⟩ | ⟨-, -, hmip, he⟩ := step_cases s <;>
    rw [he] at h
  · cases h
    exact hs
  · cases h
  · exact exec_freeOfMicrocodeFault hs h
  · cases h
    exact fetch_stop_freeOfMicrocodeFault hip hlegal hu
  · exact tick_freeOfMicrocodeFault hs hmip h

/-- Settles O39: neither the fetch of a legal code nor a tick of an instruction or of a block of the ROM raises such a fault. -/
theorem legalProgramMeetsNoMicrocodeFault : Obligations.LegalProgramMeetsNoMicrocodeFault := by
  intro s t _ hrun hlegal h
  have hfree := step_freeOfMicrocodeFault (freeOfMicrocodeFault_of_running hrun) hlegal h
  refine ⟨fun c he => ?_, fun n he => ?_, fun n he => ?_⟩ <;> cases hfree _ he

end Sys2Proof.Machine
end

section
/-! PROOFS. The structure of the reference ROM: the fetch word, the blocks behind it, and which columns no word sets together
(32_microcode_rom.md R127). -/

namespace Sys2Proof.Machine

/-! The fetch word and the words of the blocks. -/

/-- The fetch word stands before the words of the blocks (R121, R125). -/
theorem referenceMicrocode_rom_eq_cons :
    referenceMicrocode.rom = ControlWord.unpack 0x14008 :: referenceMicrocode.rom.tail := rfl

/-- In a block a word goes on to the next word without a latch of `IP`, or latches `IP` and returns to the fetch word (R127). -/
theorem referenceMicrocode_block_word {k : Nat} {w : ControlWord} (h : referenceMicrocode.rom[k]? = some w) (hk : k ≠ 0) :
    (w.microSelIp = 0 ∧ w.latchIp = false) ∨ (w.microSelIp = 2 ∧ w.latchIp = true) := by
  obtain ⟨hsel, -⟩ | hsel := referenceMicrocode_word_in_block h hk
  · refine .inl ⟨hsel, Bool.eq_false_iff.2 fun hlatch => ?_⟩
    obtain ⟨-, -, -, hreset⟩ := referenceMicrocode_latchIp_word w (List.mem_of_getElem? h) hlatch
    exact absurd (hsel.symm.trans hreset) (by decide)
  · obtain ⟨-, -, hend⟩ := referenceMicrocode_word h
    obtain ⟨-, hlatch, -⟩ := hend hsel
    exact .inr ⟨hsel, hlatch⟩

/-- The decode index is looked up by the fetch word only (R127). -/
theorem referenceMicrocode_tail_microSelIp {w : ControlWord} (hw : w ∈ referenceMicrocode.rom.tail) : w.microSelIp ≠ 1 := by
  obtain ⟨k, hk⟩ := List.mem_iff_getElem?.1 hw
  rw [List.getElem?_tail] at hk
  obtain ⟨hsel, -⟩ | ⟨hsel, -⟩ := referenceMicrocode_block_word hk k.succ_ne_zero <;> simp [hsel]

theorem referenceMicrocode_tail_latchIr : ∀ w ∈ referenceMicrocode.rom.tail, w.latchIr = false := by decide

theorem referenceMicrocode_filter_microSelIp :
    referenceMicrocode.rom.filter (fun w => w.microSelIp = 1) = [ControlWord.unpack 0x14008] := by
  have htail : referenceMicrocode.rom.tail.filter (fun w => w.microSelIp = 1) = [] :=
    List.filter_eq_nil_iff.2 fun w hw => by simpa using referenceMicrocode_tail_microSelIp hw
  rw [referenceMicrocode_rom_eq_cons, List.filter_cons_of_pos (by decide), htail]

/-! The end of a block. -/

/-- From the entry of every code but HLT's a latch of `IP` stands at most three words on (R122 to R124, R126). -/
theorem referenceMicrocode_latchIp_within_block : ∀ e ∈ referenceMicrocode.index, e.1 ≠ 160 →
    ∃ n ≤ 3, (referenceMicrocode.rom[e.2 + n]?).map ControlWord.latchIp = some true := by decide

/-- A block ends at its first latch of `IP`, and the words before it go on to the next word (R127). -/
theorem referenceMicrocode_block_ends {o m : Nat} (ho : o ≠ 0)
    (h : (referenceMicrocode.rom[o + m]?).map ControlWord.latchIp = some true) :
    ∃ n ≤ m,
      (∀ k < n, (referenceMicrocode.rom[o + k]?).map (fun w => (w.microSelIp, w.latchIp)) = some (0, false)) ∧
      (referenceMicrocode.rom[o + n]?).map (fun w => (w.microSelIp, w.latchIp)) = some (2, true) := by
  have hex : ∃ n, (referenceMicrocode.rom[o + n]?).map ControlWord.latchIp = some true := ⟨m, h⟩
  obtain ⟨last, hlast, hlatch⟩ := Option.map_eq_some_iff.1 (Nat.find_spec hex)
  refine ⟨Nat.find hex, Nat.find_min' hex h, fun k hk => ?_, ?_⟩
  · have hlt : o + k < referenceMicrocode.rom.length :=
      (Nat.add_lt_add_left hk o).trans (List.getElem?_eq_some_iff.1 hlast).1
    have hword := List.getElem?_eq_getElem hlt
    have hfirst := Nat.find_min hex hk
    obtain ⟨hsel, hno⟩ | ⟨-, hyes⟩ := referenceMicrocode_block_word hword (by omega)
    · simp [hword, hsel, hno]
    · simp [hword, hyes] at hfirst
  · obtain ⟨-, hno⟩ | ⟨hsel, -⟩ := referenceMicrocode_block_word hlast (by omega)
    · exact absurd (hno.symm.trans hlatch) (by decide)
    · exact Option.map_eq_some_iff.2 ⟨last, hlast, by simp [hsel, hlatch]⟩

/-- A block of a code but HLT's has up to three words that go on and then one that latches `IP` and returns (R127). -/
theorem referenceMicrocode_block {e : Nat × Nat} (he : e ∈ referenceMicrocode.index) (hhlt : e.1 ≠ 160) :
    ∃ n ≤ 3,
      (∀ k < n, (referenceMicrocode.rom[e.2 + k]?).map (fun w => (w.microSelIp, w.latchIp)) = some (0, false)) ∧
      (referenceMicrocode.rom[e.2 + n]?).map (fun w => (w.microSelIp, w.latchIp)) = some (2, true) := by
  have hentry : ∀ e ∈ referenceMicrocode.index, e.2 ≠ 0 := by decide
  obtain ⟨m, hm, hlatch⟩ := referenceMicrocode_latchIp_within_block e he hhlt
  obtain ⟨n, hn, hblock⟩ := referenceMicrocode_block_ends (hentry e he) hlatch
  exact ⟨n, hn.trans hm, hblock⟩

/-! Columns that exclude each other. -/

/-- A word that reads a cell neither computes nor writes a cell (R127). -/
theorem referenceMicrocode_dataIn_word :
    ∀ w ∈ referenceMicrocode.rom, w.dataIn = true → w.doAlu = false ∧ w.dataOut = false := by decide

theorem referenceMicrocode_exclusive_columns {w : ControlWord} (hw : w ∈ referenceMicrocode.rom) :
    ¬ (w.latchIp = true ∧ w.doAlu = true) ∧ ¬ (w.dataIn = true ∧ w.doAlu = true) ∧
      ¬ (w.dataIn = true ∧ w.dataOut = true) := by
  have hread := referenceMicrocode_dataIn_word w hw
  refine ⟨fun ⟨hlatch, halu⟩ => ?_, fun ⟨hin, halu⟩ => ?_, fun ⟨hin, hout⟩ => ?_⟩
  · obtain ⟨⟨-, -, hno, -⟩, -⟩ := referenceMicrocode_latchIp_word w hw hlatch
    exact Bool.eq_false_iff.1 hno halu
  · exact Bool.eq_false_iff.1 (hread hin).1 halu
  · exact Bool.eq_false_iff.1 (hread hin).2 hout

/-- Every word is well formed, the word-by-word part of the well-formed ROM (R83, R127). -/
theorem referenceMicrocode_word_wellFormed {w : ControlWord} (hw : w ∈ referenceMicrocode.rom) : w.wellFormed = true := by
  have hrom := referenceMicrocode_wellFormed
  simp only [Microcode.wellFormed, Bool.and_eq_true, List.all_eq_true] at hrom
  obtain ⟨⟨hwords, -⟩, -⟩ := hrom
  exact hwords w hw

/-- Settles O53: every word but the first stands in a block, and a block ends at its first latch of `IP`. -/
theorem referenceRomStructure : Obligations.ReferenceRomStructure := by
  refine ⟨fun w hw => ?_, ⟨by rw [referenceMicrocode_filter_microSelIp]; rfl, rfl⟩,
    fun e he hhlt => referenceMicrocode_block he hhlt,
    ⟨by simpa using referenceMicrocode_tail_latchIr, rfl, fun w hw hlatch => ?_⟩,
    fun w hw => referenceMicrocode_exclusive_columns hw, fun w hw => referenceMicrocode_word_wellFormed hw⟩
  · obtain ⟨k, hk⟩ := List.mem_iff_getElem?.1 hw
    exact (referenceMicrocode_word hk).1
  · obtain ⟨-, -, -, hsel⟩ := referenceMicrocode_latchIp_word w hw hlatch
    exact hsel

end Sys2Proof.Machine
end

section
/-! PROOFS. The functions of the ALU: arithmetic modulo `2^w` on the unsigned reading, and exact on the signed reading whenever the
result fits a word (40_arithmetic.md R140, R141; 00_scope.md R7). -/

namespace Sys2Proof

/-! The unsigned reading. -/

/-- The unsigned reading is congruent to the word (R7). -/
theorem uint_modEq (w : Nat) (v : Int) : (uint w v : Int) ≡ v [ZMOD 2 ^ w] := by
  rw [uint, Int.toNat_of_nonneg (Int.emod_nonneg v (by positivity))]
  exact Int.mod_modEq v _

theorem uint_lt (w : Nat) (v : Int) : uint w v < 2 ^ w := by
  have hlt := Int.emod_lt_of_pos v (show (0 : Int) < 2 ^ w by positivity)
  have hnonneg := Int.emod_nonneg v (show (2 : Int) ^ w ≠ 0 by positivity)
  zify
  rwa [uint, Int.toNat_of_nonneg hnonneg]

/-- The unsigned reading of a wrap is the residue of any number congruent to what was wrapped (R7). -/
theorem uint_wrap_eq_mod {w k : Nat} {n : Int} (h : (k : Int) ≡ n [ZMOD 2 ^ w]) : uint w (wrap w n) = k % 2 ^ w := by
  have hbmod : wrap w n % 2 ^ w = n % 2 ^ w := by exact_mod_cast Int.bmod_emod (x := n) (m := 2 ^ w)
  rw [uint, hbmod, ← h]
  exact_mod_cast Int.toNat_natCast (k % 2 ^ w)

/-- The complement of the unsigned reading is congruent to the negation. -/
theorem compl_uint_modEq (w : Nat) (v : Int) : ((2 ^ w - uint w v : Nat) : Int) ≡ -v [ZMOD 2 ^ w] := by
  have hpow : (2 : Int) ^ w ≡ 0 [ZMOD 2 ^ w] := Int.modEq_zero_iff_dvd.2 dvd_rfl
  simpa [Nat.cast_sub (uint_lt w v).le] using hpow.sub (uint_modEq w v)

/-! The signed reading. -/

/-- The word whose negation does not fit is the most negative one, and it is the wrap of its negation (R141). -/
theorem wrap_neg_of_not_fitsWord {w : Nat} (hw : 1 ≤ w) {x : Int} (hx : fitsWord w x = true) (hn : fitsWord w (-x) = false) :
    wrap w (-x) = x := by
  have hpow : (2 : Int) ^ w = 2 * 2 ^ (w - 1) := by rw [← pow_succ', Nat.sub_add_cancel hw]
  have hmin : -x = x + ((2 ^ w : Nat) : Int) := by
    push_cast
    have hfits := fitsWord_iff.1 hx
    rw [← Bool.not_eq_true, fitsWord_iff] at hn
    omega
  calc wrap w (-x) = wrap w x := by rw [wrap, hmin, Int.add_bmod_right]
    _ = x := wrap_of_fitsWord hw hx

end Sys2Proof

namespace Sys2Proof.Machine

/-- Every opcode number from 6 on selects pass-through (R140). -/
theorem aluFnOf_of_six_le {op : Nat} (h : 6 ≤ op) : aluFnOf op = .pass := by
  obtain ⟨k, rfl⟩ := Nat.exists_eq_add_of_le' h
  rfl

/-- Settles O1: each exact result is congruent to the sum of the readings, and wrapping keeps the residue. -/
theorem aluIsArithmeticModuloPowerOfTwo : Obligations.AluIsArithmeticModuloPowerOfTwo := by
  intro w a x hw
  have hx := uint_modEq w x
  have hcompl := compl_uint_modEq w x
  refine ⟨uint_wrap_eq_mod ?inc, uint_wrap_eq_mod ?dec, rfl, uint_wrap_eq_mod hcompl, uint_wrap_eq_mod ?add,
    uint_wrap_eq_mod ?sub, fun op h => ?pass, fun hfits op => fitsWord_aluResult hw (aluFnOf op) a hfits⟩
  case inc => exact_mod_cast hx.add_right 1
  case dec =>
    have hpow : (2 : Int) ^ w ≡ 0 [ZMOD 2 ^ w] := Int.modEq_zero_iff_dvd.2 dvd_rfl
    simpa [Nat.cast_sub Nat.one_le_two_pow, sub_eq_add_neg] using hx.add (hpow.sub_right 1)
  case add => exact_mod_cast (uint_modEq w a).add hx
  case sub => simpa [sub_eq_add_neg] using (uint_modEq w a).add hcompl
  case pass => rw [alu, aluFnOf_of_six_le h, aluResult]

/-- Settles O2: a wrap of what fits is exact, and the most negative word is the wrap of its negation. -/
theorem aluIsExactWhenTheResultFits : Obligations.AluIsExactWhenTheResultFits := by
  intro w a x hw
  exact ⟨wrap_of_fitsWord hw, wrap_of_fitsWord hw, wrap_of_fitsWord hw, wrap_of_fitsWord hw, wrap_of_fitsWord hw,
    wrap_neg_of_not_fitsWord hw⟩

end Sys2Proof.Machine
end

section
/-! PROOFS. The zero flag under a step: `ACC` and `Z` are written together, from a result and its zero-ness, by the ticks of an
instruction and by every control word of the reference ROM (31_control_word.md R99, R100; 40_arithmetic.md R142). -/

namespace Sys2Proof.Machine

/-- `Z` says whether `ACC` is zero (R142). -/
def State.FlagMatches (s : State) : Prop := s.z = decide (s.acc = 0)

/-- Matching is a property of `ACC` and `Z` alone. -/
theorem State.FlagMatches.congr {s t : State} (h : s.FlagMatches) (he : (t.acc, t.z) = (s.acc, s.z)) : t.FlagMatches := by
  obtain ⟨hacc, hz⟩ := Prod.mk.inj he
  rwa [State.FlagMatches, hacc, hz]

/-- Columns without `LATCH_ACC` keep the flag matching: they write neither `ACC` nor `Z`. -/
theorem flagMatches_applyColumns {m : Microcode} {w : ControlWord} {cs : List Column} (hcs : .latchAcc ∉ cs) {r : TickResult}
    (h : r.state.FlagMatches) : (applyColumns m w cs r).state.FlagMatches :=
  applyColumns_induct State.FlagMatches m w cs
    (fun c hc u hu => hu.congr ((primitive_columnWrite m w c u).acc_z (fun he => hcs (he ▸ hc)))) r h

/-- `DO_ALU` stages a result with its zero-ness, and `LATCH_ACC` after it commits the two; without either, and after a raise, the
accumulator and the flag stay (R99, R100). -/
theorem flagMatches_doAlu_latchAcc {w : ControlWord} (hw : w.latchAcc = true → w.doAlu = true) {s : State}
    (h : s.FlagMatches) : ((primDoAlu w s).andThen (primLatchAcc w)).state.FlagMatches := by
  have hkeeps : (primDoAlu w s).state.FlagMatches :=
    h.congr ((primitive_columnWrite referenceMicrocode w .doAlu s).acc_z (by decide))
  have hcommit (u : State) (r : Int) (hu : (u.setAlu r).FlagMatches) : (primLatchAcc w (u.setAlu r)).state.FlagMatches := by
    obtain ⟨-, he⟩ | ⟨-, he⟩ := primLatchAcc_cases w (u.setAlu r) <;> rw [he]
    exacts [hu, rfl]
  obtain ⟨hdo, he⟩ | ⟨-, -, he⟩ | ⟨-, q, -, -, he⟩ | ⟨-, q, v, rest, -, -, he⟩ := primDoAlu_cases w s <;>
    rw [he] at hkeeps ⊢
  · have hlatch : w.latchAcc = false := Bool.eq_false_iff.2 fun hl => by simp [hw hl] at hdo
    simpa [primLatchAcc, hlatch] using hkeeps
  · exact hcommit _ _ hkeeps
  · exact hkeeps
  · exact hcommit _ _ hkeeps

/-- The columns around the two that compute and commit a result, which stand next to each other (R81, R89). -/
theorem applyWord_eq_around_doAlu (m : Microcode) (w : ControlWord) (s : State) :
    applyWord m w s =
      applyColumns m w Column.latchAcc.after
        (((applyColumns m w Column.doAlu.before (.done s)).andThen (primDoAlu w)).andThen (primLatchAcc w)) :=
  List.foldl_append (l := Column.doAlu.before) (l' := .doAlu :: .latchAcc :: Column.latchAcc.after)

/-- Every word of the reference ROM that commits a result has computed it (32_microcode_rom.md R124). -/
theorem referenceMicrocode_latchAcc_word : ∀ w ∈ referenceMicrocode.rom, w.latchAcc = true → w.doAlu = true := by decide

/-- A word of the reference ROM keeps the flag matching. -/
theorem flagMatches_applyWord (m : Microcode) {w : ControlWord} (hw : w ∈ referenceMicrocode.rom) {s : State}
    (h : s.FlagMatches) : (applyWord m w s).state.FlagMatches := by
  rw [applyWord_eq_around_doAlu]
  refine flagMatches_applyColumns (Column.not_mem_after _) ?_
  have hbefore := flagMatches_applyColumns (m := m) (w := w) (cs := Column.doAlu.before) (r := .done s) (by decide) h
  cases hr : applyColumns m w Column.doAlu.before (.done s) with
  | done u =>
    rw [hr] at hbefore
    exact flagMatches_doAlu_latchAcc (referenceMicrocode_latchAcc_word w hw) hbefore
  | raised c u =>
    rwa [hr] at hbefore

/-- Settles O4: the writes of an instruction leave `ACC` and `Z` alone or match them, and so does a word of the reference ROM. -/
theorem stepKeepsFlagMatchingAccumulator : Obligations.StepKeepsFlagMatchingAccumulator := by
  intro s t h ht
  refine step_induct State.FlagMatches h (fun i u v hu hw => ?_) (fun w hw htick => ?_) ht
  · obtain ⟨ha, hz, -, -⟩ | ⟨-, hz, -, -⟩ := hw.accumulator
    · exact hu.congr (Prod.ext ha hz)
    · exact hz
  · obtain he | he := tickOf_unchanged_or_applied (fun u => (u.acc, u.z)) (fun _ => rfl) (fun _ _ => rfl) hw htick
    · exact State.FlagMatches.congr h he
    · exact (flagMatches_applyWord referenceMicrocode (List.mem_of_getElem? hw) h).congr he

end Sys2Proof.Machine
end

section
/-! PROOFS. When an instruction completes: its ticks complete one after the other, and what they leave is the effect of the middle
ticks with the bookkeeping of the fetch and the last tick (40_arithmetic.md R143; 32_microcode_rom.md R129). From it the
arithmetic instructions, and the common effect of every instruction that completes (R144 to R149). -/

namespace Sys2Proof.Machine

/-! Ticks that complete one after the other. -/

/-- The ticks complete in order and are counted, and lead from the first state to the second; where the ceiling stands is left
open. -/
inductive Completes : List (State → TickResult) → State → State → Prop where
  | nil (s : State) : Completes [] s s
  | cons {f : State → TickResult} {fs : List (State → TickResult)} {s t u : State} (tick : f s = .done t)
      (rest : Completes fs t.countTick u) : Completes (f :: fs) s u

theorem Completes.append {fs gs : List (State → TickResult)} {s t u : State} (h : Completes fs s t) (k : Completes gs t u) :
    Completes (fs ++ gs) s u := by
  induction h with
  | nil => exact k
  | cons tick _ ih => exact .cons tick (ih k)

theorem Completes.of_append {fs gs : List (State → TickResult)} {s u : State} (h : Completes (fs ++ gs) s u) :
    ∃ t, Completes fs s t ∧ Completes gs t u := by
  induction fs generalizing s with
  | nil => exact ⟨s, .nil s, h⟩
  | cons f fs ih =>
    obtain ⟨⟩ | ⟨tick, rest⟩ := h
    obtain ⟨t, hfs, hgs⟩ := ih rest
    exact ⟨t, .cons tick hfs, hgs⟩

/-- A machine that runs after its ticks has completed them all (R225, R226). -/
theorem completes_of_running {fs : List (State → TickResult)} {s : State} (h : (runTicks fs s).status = .running) :
    Completes fs s (runTicks fs s) := by
  induction fs generalizing s with
  | nil => exact .nil s
  | cons f fs ih =>
    rw [runTicks_cons] at h ⊢
    have hstopped {t : State} {c : Cause} (ht : t.status = .stopped c) : (runTicks fs t).status ≠ .running := by
      simp [runTicks_stopped ht, ht]
    obtain ⟨c, hs, he⟩ | ⟨-, -, he⟩ | ⟨-, -, t, ht, he⟩ | ⟨-, -, c, t, -, he⟩ := controlTick_cases f s <;> rw [he] at h ⊢
    · exact absurd h (hstopped hs)
    · exact absurd h (hstopped rfl)
    · exact .cons ht (ih h)
    · exact absurd h (hstopped rfl)

/-- What every tick of an instruction leaves to the controller (R221, R225, R226). -/
structure ControllerFrame (s t : State) : Prop where
  cfg : t.cfg = s.cfg
  status : t.status = s.status
  ticks : t.ticks = s.ticks

/-- Ticks that complete are what a running machine does with them when the ceiling leaves room for them. -/
theorem Completes.runTicks_eq {fs : List (State → TickResult)} {s t : State} (h : Completes fs s t)
    (hframe : ∀ f ∈ fs, ∀ u, ControllerFrame u (f u).state) (hrun : s.status = .running)
    (hticks : s.hasTicks fs.length = true) : runTicks fs s = t := by
  induction h with
  | nil => rfl
  | @cons f fs s t u tick rest ih =>
    have hf := hframe f List.mem_cons_self s
    rw [tick] at hf
    have hroom : t.hasTicks (fs.length + 1) = true := by
      rwa [State.hasTicks, show t.cfg = s.cfg from hf.cfg, show t.ticks = s.ticks from hf.ticks]
    rw [runTicks_done hrun (State.atCeiling_of_hasTicks hticks (Nat.succ_pos _)) tick]
    exact ih (fun g hg => hframe g (List.mem_cons_of_mem f hg)) (hf.status.trans hrun) (State.hasTicks_countTick hroom)

/-! The ticks between the fetch and the last tick. -/

/-- What a tick between the fetch and the last tick leaves as it was, completing or raising. -/
structure MiddleFrame (s t : State) : Prop extends ControllerFrame s t where
  imem : t.imem = s.imem
  ip : t.ip = s.ip
  ir : t.ir = s.ir
  icount : t.icount = s.icount

theorem middleFrame_readCell (a : Int) (s : State) : MiddleFrame s (readCellTick a s).state := by
  obtain ⟨v, -, he⟩ | ⟨-, he⟩ := readCellTick_cases a s <;> rw [he] <;> exact ⟨⟨rfl, rfl, rfl⟩, rfl, rfl, rfl, rfl⟩

theorem middleFrame_alu (fn : AluFn) (x : Int) (s : State) : MiddleFrame s (aluTick fn x s).state :=
  ⟨⟨rfl, rfl, rfl⟩, rfl, rfl, rfl, rfl⟩

theorem middleFrame_operand (fn : AluFn) (i : Instr) (s : State) : MiddleFrame s (operandTick fn i s).state := by
  unfold operandTick
  split <;> exact middleFrame_alu fn _ s

theorem middleFrame_input (q : InQueue) (s : State) : MiddleFrame s (inputTick q s).state := by
  obtain ⟨v, rest, -, he⟩ | ⟨-, he⟩ := inputTick_cases q s <;> rw [he]
  · cases q <;> exact ⟨⟨rfl, rfl, rfl⟩, rfl, rfl, rfl, rfl⟩
  · exact ⟨⟨rfl, rfl, rfl⟩, rfl, rfl, rfl, rfl⟩

theorem middleFrame_output (q : OutQueue) (s : State) : MiddleFrame s (outputTick q s).state := by
  cases q <;> exact ⟨⟨rfl, rfl, rfl⟩, rfl, rfl, rfl, rfl⟩

theorem middleFrame_store (s : State) : MiddleFrame s (storeTick s).state := by
  obtain ⟨t, ht, he⟩ | ⟨-, he⟩ := storeTick_cases s <;> rw [he]
  · obtain ⟨-, rfl⟩ := State.dmemWrite_eq_some.1 ht
    exact ⟨⟨rfl, rfl, rfl⟩, rfl, rfl, rfl, rfl⟩
  · exact ⟨⟨rfl, rfl, rfl⟩, rfl, rfl, rfl, rfl⟩

/-- A tick of a mode program reads a cell at the argument or at the pointer just read (41_memory_ops.md R163). -/
theorem eq_of_mem_modeTicks {i : Instr} {f : State → TickResult} (hf : f ∈ modeTicks i) :
    f = argCellTick i.arg ∨ f = pointerCellTick := by
  unfold modeTicks at hf
  cases hm : i.mode <;> rw [hm] at hf
  case direct | labelAddr => exact .inl (List.mem_singleton.1 hf)
  case indirect => simpa using hf
  case none | labelValue => cases hf

theorem middleFrame_of_mem_middleTicks {i : Instr} {f : State → TickResult} (hf : f ∈ middleTicks i) (s : State) :
    MiddleFrame s (f s).state := by
  obtain hf | hf := List.mem_append.1 hf
  · obtain rfl | rfl := eq_of_mem_modeTicks hf <;> exact middleFrame_readCell _ s
  · unfold operationTicks at hf
    cases ho : i.opcode <;> rw [ho] at hf
    case jmp | jmpz | hlt => cases hf
    all_goals rw [List.mem_singleton.1 hf]
    case inc | dec | cls | neg => exact middleFrame_alu _ _ s
    case add | sub | load => exact middleFrame_operand _ i s
    case store => exact middleFrame_store s
    case input | port1In | port2In => exact middleFrame_input _ s
    case output | port1Out | port2Out => exact middleFrame_output _ s

theorem controllerFrame_latch (new : Int) (s : State) : ControllerFrame s (latchTick new s).state := by
  obtain ⟨-, he⟩ | ⟨-, he⟩ := latchTick_cases new s <;> rw [he] <;> exact ⟨rfl, rfl, rfl⟩

/-- Ticks of this kind that complete leave all of it as it was but the tick count, which each of them raises by one. -/
theorem Completes.middleFrame {fs : List (State → TickResult)} {s t : State} (h : Completes fs s t)
    (hframe : ∀ f ∈ fs, ∀ u, MiddleFrame u (f u).state) : MiddleFrame { s with ticks := s.ticks + fs.length } t := by
  induction h with
  | nil => exact ⟨⟨rfl, rfl, rfl⟩, rfl, rfl, rfl, rfl⟩
  | @cons f fs s t u tick rest ih =>
    have hf := hframe f List.mem_cons_self s
    rw [tick] at hf
    have hrest := ih (fun g hg => hframe g (List.mem_cons_of_mem f hg))
    refine ⟨⟨hrest.cfg.trans hf.cfg, hrest.status.trans hf.status, hrest.ticks.trans ?_⟩, hrest.imem.trans hf.imem,
      hrest.ip.trans hf.ip, hrest.ir.trans hf.ir, hrest.icount.trans hf.icount⟩
    have hticks : t.ticks = s.ticks := hf.ticks
    simp only [State.countTick_ticks, hticks, List.length_cons]
    omega

/-! The whole block of an instruction. -/

/-- The fetch tick, completed and counted (R143). -/
def State.fetched (s : State) (code : BitVec 8) (entry : Nat) : State := ((s.setIr code).setMip entry).countTick

/-- `n` more ticks inside a block, completed and counted. -/
def State.passed (s : State) (n : Nat) : State := { s with mip := s.mip + n, ticks := s.ticks + n }

/-- All ticks of an instruction whose block begins at `entry`. -/
def blockTicks (i : Instr) (entry : Nat) : List (State → TickResult) :=
  fetchTick (encode i).code entry :: (middleTicks i ++ [fun t => latchTick (nextAddress i t) t])

theorem exec_eq_blockTicks {i : Instr} (hi : i ≠ .hlt) (s : State) :
    ∃ entry, exec i s = .next (runTicks (blockTicks i entry) s) := by
  obtain ⟨entry, -, -, he⟩ := exec_eq_block hi s
  exact ⟨entry, he⟩

/-- The fetch and the last tick are the two ticks besides the middle ones (R129). -/
theorem ticksOf_eq_middleTicks {i : Instr} (hi : i ≠ .hlt) : ticksOf i = (middleTicks i).length + 2 := by
  cases i with
  | hlt => exact absurd rfl hi
  | _ => rfl

theorem controllerFrame_of_mem_blockTicks {i : Instr} {entry : Nat} {f : State → TickResult} (hf : f ∈ blockTicks i entry)
    (s : State) : ControllerFrame s (f s).state := by
  simp only [blockTicks, List.mem_cons, List.mem_append, List.not_mem_nil, or_false] at hf
  obtain rfl | hf | rfl := hf
  · exact ⟨rfl, rfl, rfl⟩
  · exact (middleFrame_of_mem_middleTicks hf s).toControllerFrame
  · exact controllerFrame_latch _ s

/-- A block completes exactly when its middle ticks complete and the address that they leave for the latch is inside instruction
memory. -/
theorem completes_blockTicks_iff {i : Instr} {entry : Nat} {s t : State} :
    Completes (blockTicks i entry) s t ↔
      ∃ u, Completes (middleTicks i) (s.fetched (encode i).code entry) u ∧
        inRange u.cfg.instrMemSize (nextAddress i u) = true ∧ t = (u.setIp (nextAddress i u)).boundary.countTick := by
  constructor
  · rintro (_ | ⟨⟨⟩, rest⟩)
    obtain ⟨u, hmiddle, hlast⟩ := rest.of_append
    obtain ⟨⟩ | ⟨tick, ⟨⟩⟩ := hlast
    obtain ⟨hr, he⟩ | ⟨-, he⟩ := latchTick_cases (nextAddress i u) u <;> cases tick.symm.trans he
    exact ⟨u, hmiddle, hr, rfl⟩
  · rintro ⟨u, hmiddle, hr, rfl⟩
    exact .cons rfl (hmiddle.append (.cons (if_pos hr) (.nil _)))

/-- The bookkeeping of the fetch and the last tick around what the middle ticks do to a state (R143). -/
theorem finish_eq (s : State) (code : BitVec 8) (entry : Nat) (new : Int) (n : Nat) :
    (((s.fetched code entry).passed n).setIp new).boundary.countTick = s.finish code new (n + 2) := by
  have hticks : s.ticks + 1 + n + 1 = s.ticks + (n + 2) := by omega
  exact congrArg (fun k => { s.finish code new (n + 2) with ticks := k }) hticks

/-- The last tick of an instruction other than JMP and JMPZ goes to the next word (32_microcode_rom.md R122, R124). -/
theorem nextAddress_eq_nextIp {i : Instr} (hjmp : i.opcode ≠ .jmp) (hjmpz : i.opcode ≠ .jmpz) (s : State) :
    nextAddress i s = s.nextIp := by
  unfold nextAddress
  split
  · exact absurd ‹_› hjmp
  · exact absurd ‹_› hjmpz
  · rfl

/-- An instruction that ends with `NEXT` and meets no ceiling completes with what its middle ticks do when they complete
(R143). -/
theorem exec_of_middleTicks_complete {i : Instr} (hop : i.opcode ∉ [.jmp, .jmpz, .hlt]) {s u : State}
    (hready : s.readyFor (ticksOf i) = true)
    (h : ∀ entry, Completes (middleTicks i) (s.fetched (encode i).code entry)
      ((u.fetched (encode i).code entry).passed (middleTicks i).length)) :
    exec i s = .next (u.finish (encode i).code s.nextIp (ticksOf i)) := by
  simp only [List.mem_cons, List.not_mem_nil, or_false, not_or] at hop
  obtain ⟨hjmp, hjmpz, hhlt⟩ := hop
  have hi : i ≠ .hlt := fun he => hhlt (congrArg Instr.opcode he)
  have hnext := nextAddress_eq_nextIp hjmp hjmpz
  obtain ⟨hrun, hticks, hip⟩ := (s.readyFor_iff _).1 hready
  obtain ⟨entry, he⟩ := exec_eq_blockTicks hi s
  have hframe := (h entry).middleFrame fun f hf t => middleFrame_of_mem_middleTicks hf t
  have hsame : ((u.fetched (encode i).code entry).passed (middleTicks i).length).nextIp = s.nextIp :=
    State.nextIp_congr hframe.ip hframe.cfg
  have hblock := completes_blockTicks_iff.2 ⟨_, h entry, by rw [hnext, hsame, hframe.cfg]; exact hip, rfl⟩
  have hlength : (blockTicks i entry).length = ticksOf i := by simp [blockTicks, ticksOf_eq_middleTicks hi]
  rw [he, hblock.runTicks_eq (fun f hf t => controllerFrame_of_mem_blockTicks hf t) hrun (hlength ▸ hticks), hnext, hsame,
    finish_eq, ticksOf_eq_middleTicks hi]

/-! The arithmetic instructions. -/

/-- The instructions with the accumulator for their input (40_arithmetic.md, section 2). -/
theorem exec_unary {i : Instr} (hnext : i.opcode ∉ [.jmp, .jmpz, .hlt]) {fn : AluFn}
    (hmiddle : middleTicks i = [unaryTick fn]) {s : State} (hready : s.readyFor (ticksOf i) = true) :
    exec i s = .next
      ((s.withResult (aluResult s.cfg.width fn s.acc s.acc)).finish (encode i).code s.nextIp (ticksOf i)) := by
  refine exec_of_middleTicks_complete hnext hready fun entry => ?_
  rw [hmiddle]
  exact .cons rfl (.nil _)

/-- Settles O5: a unary instruction with the function `inc`. -/
theorem incIncrementsAccumulator : Obligations.IncIncrementsAccumulator :=
  fun _ h => exec_unary (i := .inc) (fn := .inc) (by decide) rfl h

/-- Settles O6: a unary instruction with the function `dec`. -/
theorem decDecrementsAccumulator : Obligations.DecDecrementsAccumulator :=
  fun _ h => exec_unary (i := .dec) (fn := .dec) (by decide) rfl h

/-- Settles O7: a unary instruction with the function `cls`. -/
theorem clsClearsAccumulator : Obligations.ClsClearsAccumulator :=
  fun _ h => exec_unary (i := .cls) (fn := .cls) (by decide) rfl h

/-- Settles O8: a unary instruction with the function `neg`. -/
theorem negNegatesAccumulator : Obligations.NegNegatesAccumulator :=
  fun _ h => exec_unary (i := .neg) (fn := .neg) (by decide) rfl h

/-- A read of a cell inside data memory completes (41_memory_ops.md R161). -/
theorem readCellTick_of_some {a v : Int} {s : State} (h : s.dmemRead a = some v) :
    readCellTick a s = .done ((s.setAr a).setMdr v).advance := by simp [readCellTick, h]

/-- A mode program whose operand is readable completes in the state that the mode leaves (R164). -/
theorem completes_modeTicks {i : Instr} {s : State} {v : Int} (h : s.operand i.mode i.arg = some v) :
    Completes (modeTicks i) s ((s.afterMode (s.effectiveAddr i.mode i.arg) v).passed (modeTicks i).length) := by
  unfold modeTicks
  cases hm : i.mode <;> rw [hm] at h
  case none => cases h
  case labelValue => exact .nil s
  case direct | labelAddr => exact .cons (readCellTick_of_some h) (.nil _)
  case indirect =>
    obtain ⟨pointer, hpointer, hcell⟩ := Option.bind_eq_some_iff.1 h
    rw [State.effectiveAddr, hpointer]
    have hfirst : Completes [argCellTick i.arg] s ((s.withCell i.arg pointer).passed 1) :=
      .cons (readCellTick_of_some hpointer) (.nil _)
    have hsecond : Completes [pointerCellTick] ((s.withCell i.arg pointer).passed 1) ((s.withCell pointer v).passed 2) :=
      .cons (readCellTick_of_some (s := (s.withCell i.arg pointer).passed 1) hcell) (.nil _)
    exact hfirst.append hsecond

/-- After its mode program an operation tick computes on the operand of the mode (R160, R164). -/
theorem operandTick_afterMode (fn : AluFn) {i : Instr} {s : State} {v : Int} (h : s.operand i.mode i.arg = some v) (n : Nat) :
    operandTick fn i ((s.afterMode (s.effectiveAddr i.mode i.arg) v).passed n) =
      aluTick fn v ((s.afterMode (s.effectiveAddr i.mode i.arg) v).passed n) := by
  unfold operandTick
  cases hm : i.mode <;> rw [hm] at h
  case none => cases h
  case labelValue =>
    cases h
    rfl
  case direct | labelAddr => rfl
  case indirect =>
    obtain ⟨pointer, hpointer, -⟩ := Option.bind_eq_some_iff.1 h
    rw [State.effectiveAddr, hpointer]
    rfl

theorem State.afterMode_fetched (s : State) (ea : Option Int) (v : Int) (code : BitVec 8) (entry : Nat) :
    (s.fetched code entry).afterMode ea v = (s.afterMode ea v).fetched code entry := by cases ea <;> rfl

theorem State.effectiveAddr_fetched (s : State) (m : Mode) (arg : Int) (code : BitVec 8) (entry : Nat) :
    (s.fetched code entry).effectiveAddr m arg = s.effectiveAddr m arg := by cases m <;> rfl

@[simp] theorem State.afterMode_cfg (s : State) (ea : Option Int) (v : Int) : (s.afterMode ea v).cfg = s.cfg := by
  cases ea <;> rfl

@[simp] theorem State.afterMode_acc (s : State) (ea : Option Int) (v : Int) : (s.afterMode ea v).acc = s.acc := by
  cases ea <;> rfl

/-- The instructions that compute on the operand of their mode (R164). -/
theorem exec_operand {i : Instr} (hnext : i.opcode ∉ [.jmp, .jmpz, .hlt]) {fn : AluFn}
    (hop : operationTicks i = [operandTick fn i]) {s : State} {v : Int} (h : s.operand i.mode i.arg = some v)
    (hready : s.readyFor (ticksOf i) = true) :
    exec i s = .next
      (((s.afterMode (s.effectiveAddr i.mode i.arg) v).withResult (aluResult s.cfg.width fn s.acc v)).finish
        (encode i).code s.nextIp (ticksOf i)) := by
  refine exec_of_middleTicks_complete hnext hready fun entry => ?_
  have hmode := completes_modeTicks (s := s.fetched (encode i).code entry) h
  have htick := operandTick_afterMode fn (s := s.fetched (encode i).code entry) h (modeTicks i).length
  have hresult : aluResult s.cfg.width fn s.acc v = aluResult (s.afterMode (s.effectiveAddr i.mode i.arg) v).cfg.width fn
      (s.afterMode (s.effectiveAddr i.mode i.arg) v).acc v := by
    rw [State.afterMode_cfg, State.afterMode_acc]
  rw [State.effectiveAddr_fetched, State.afterMode_fetched] at hmode htick
  rw [middleTicks, hop, List.length_append, hresult]
  exact hmode.append (.cons htick (.nil _))

/-- Settles O9: the operand of the mode, with the function `add`. -/
theorem addAddsOperandInEveryMode : Obligations.AddAddsOperandInEveryMode :=
  fun _ _ _ ho hv hready => exec_operand (fn := .add) (by simp [ho]) (by simp [operationTicks, ho]) hv hready

/-- Settles O10: the operand of the mode, with the function `sub`. -/
theorem subSubtractsOperandInEveryMode : Obligations.SubSubtractsOperandInEveryMode :=
  fun _ _ _ ho hv hready => exec_operand (fn := .sub) (by simp [ho]) (by simp [operationTicks, ho]) hv hready

/-! What every completed instruction has done. -/

/-- HLT completes no tick block: it stops a machine that runs (43_control.md R204). -/
theorem exec_hlt_not_running {s t : State} (h : exec .hlt s = .next t) : t.status ≠ .running := by
  rw [exec_hlt] at h
  cases h
  intro hrun
  obtain ⟨⟩ | ⟨tick, -⟩ := completes_of_running hrun
  cases tick

/-- The bookkeeping of an instruction after which the machine runs (R143). -/
theorem exec_running {i : Instr} {s t : State} (h : exec i s = .next t) (hrun : t.status = .running) :
    t.ir = (encode i).code ∧ t.opr = (s.imemRead t.ip).arg ∧ t.mip = 0 ∧ t.icount = s.icount + 1 ∧
      t.ticks = s.ticks + ticksOf i := by
  have hi : i ≠ .hlt := by
    rintro rfl
    exact exec_hlt_not_running h hrun
  obtain ⟨entry, he⟩ := exec_eq_blockTicks hi s
  cases he.symm.trans h
  obtain ⟨u, hmiddle, -, ht⟩ := completes_blockTicks_iff.1 (completes_of_running hrun)
  have hframe := hmiddle.middleFrame fun f hf v => middleFrame_of_mem_middleTicks hf v
  rw [ht]
  refine ⟨hframe.ir, congrArg InstrWord.arg (State.imemRead_congr hframe.imem _), rfl, congrArg (· + 1) hframe.icount, ?_⟩
  have hticks : u.ticks = s.ticks + 1 + (middleTicks i).length := hframe.ticks
  simp only [State.countTick_ticks, State.boundary_ticks, State.setIp_ticks, hticks, ticksOf_eq_middleTicks hi]
  omega

/-- Settles O21: a machine that runs after an instruction has completed its block; the numbers of ticks are the table's. -/
theorem completedInstructionIsCounted : Obligations.CompletedInstructionIsCounted :=
  ⟨fun _ _ _ _ h hrun => exec_running h hrun, fun _ => ⟨rfl, rfl, rfl, rfl, rfl⟩⟩

end Sys2Proof.Machine
end

section
/-! PROOFS. The memory instructions: LOAD and STORE in their modes (41_memory_ops.md R164 to R166), the frame of STORE on data
memory, and where an instruction stops whose address or pointer is no cell of data memory (R162, R163). -/

namespace Sys2Proof.Machine

/-! LOAD. -/

/-- Settles O11: the operand of the mode, with the function `pass`. -/
theorem loadLoadsOperandInEveryMode : Obligations.LoadLoadsOperandInEveryMode :=
  fun _ _ _ ho hv hready => exec_operand (fn := .pass) (by simp [ho]) (by simp [operationTicks, ho]) hv hready

/-! The operand and the effective address. -/

/-- Outside mode `LABEL_VALUE` the operand is the cell at the effective address (R164). -/
theorem State.operand_eq_bind (s : State) {m : Mode} (hm : m ≠ .labelValue) (arg : Int) :
    s.operand m arg = (s.effectiveAddr m arg).bind s.dmemRead := by
  cases m with
  | labelValue => exact absurd rfl hm
  | _ => rfl

/-- STORE has an address, so neither of the modes without one is a mode of it (30_encoding.md R63). -/
theorem mode_of_store {i : Instr} (hop : i.opcode = .store) : i.mode ≠ .none ∧ i.mode ≠ .labelValue := by
  have hlegal := i.legalPair_all
  rw [hop] at hlegal
  constructor <;> intro hm <;> rw [hm] at hlegal <;> cases hlegal

/-! Mode programs that complete. -/

theorem Completes.unique {fs : List (State → TickResult)} {s t u : State} (h : Completes fs s t) (k : Completes fs s u) :
    t = u := by
  induction h with
  | nil => cases k; rfl
  | cons tick _ ih =>
    obtain ⟨⟩ | ⟨tick', rest⟩ := k
    cases tick.symm.trans tick'
    exact ih rest

/-- A read that completes has found its cell (R161). -/
theorem exists_dmemRead_of_readCellTick {a : Int} {s t : State} (h : readCellTick a s = .done t) :
    ∃ v, s.dmemRead a = some v ∧ t = ((s.setAr a).setMdr v).advance := by
  obtain ⟨v, hv, he⟩ | ⟨-, he⟩ := readCellTick_cases a s <;> cases h.symm.trans he
  exact ⟨v, hv, rfl⟩

/-- A mode program completes only if the operand is readable (R164). -/
theorem exists_operand_of_completes {i : Instr} (hmode : i.mode ≠ .none) {s t : State} (h : Completes (modeTicks i) s t) :
    ∃ v, s.operand i.mode i.arg = some v := by
  unfold modeTicks at h
  cases hm : i.mode <;> rw [hm] at h
  case none => exact absurd hm hmode
  case labelValue => exact ⟨_, rfl⟩
  case direct | labelAddr =>
    obtain ⟨⟩ | ⟨tick, -⟩ := h
    obtain ⟨v, hv, -⟩ := exists_dmemRead_of_readCellTick tick
    exact ⟨v, hv⟩
  case indirect =>
    obtain ⟨⟩ | ⟨first, _ | ⟨second, -⟩⟩ := h
    obtain ⟨pointer, hpointer, rfl⟩ := exists_dmemRead_of_readCellTick first
    obtain ⟨v, hv, -⟩ := exists_dmemRead_of_readCellTick second
    exact ⟨v, Option.bind_eq_some_iff.2 ⟨pointer, hpointer, hv⟩⟩

/-! STORE. -/

section

variable {i : Instr} {s t : State}

/-- The mode program of a STORE completes exactly when the cell at the effective address is readable, and leaves that address in
`AR` and the cell's word in `MDR` and `OPR` (R164). -/
theorem completes_modeTicks_store (hop : i.opcode = .store) :
    Completes (modeTicks i) s t ↔ ∃ ea old, s.effectiveAddr i.mode i.arg = some ea ∧ s.dmemRead ea = some old ∧
      t = (s.withCell ea old).passed (modeTicks i).length := by
  obtain ⟨hnone, hvalue⟩ := mode_of_store hop
  have hcompletes {ea old : Int} (hea : s.effectiveAddr i.mode i.arg = some ea) (hold : s.dmemRead ea = some old) :
      Completes (modeTicks i) s ((s.withCell ea old).passed (modeTicks i).length) := by
    have h := completes_modeTicks (i := i) (by rw [s.operand_eq_bind hvalue, hea]; exact hold)
    rwa [hea] at h
  constructor
  · intro h
    obtain ⟨old, hv⟩ := exists_operand_of_completes hnone h
    rw [s.operand_eq_bind hvalue] at hv
    obtain ⟨ea, hea, hold⟩ := Option.bind_eq_some_iff.1 hv
    exact ⟨ea, old, hea, hold, h.unique (hcompletes hea hold)⟩
  · rintro ⟨ea, old, hea, hold, rfl⟩
    exact hcompletes hea hold

/-- The store tick on an address inside data memory (31_control_word.md R103). -/
theorem storeTick_of_inRange (h : inRange s.cfg.dataMemSize s.ar = true) :
    storeTick s = .done ({ s with dmem := s.dmem.write s.ar.toNat s.acc } : State).advance := by
  simp [storeTick, State.dmemWrite_eq_some.2 ⟨h, rfl⟩]

end

/-- Settles O12: after the mode program the address in `AR` is the effective one, and the store tick writes there. -/
theorem storeWritesAccumulatorInEveryMode : Obligations.StoreWritesAccumulatorInEveryMode := by
  intro i s ea old hop hea hold hready
  refine exec_of_middleTicks_complete (by simp [hop]) hready fun entry => ?_
  have hmode := (completes_modeTicks_store (s := s.fetched (encode i).code entry) hop).2
    ⟨ea, old, (s.effectiveAddr_fetched _ _ _ _).trans hea, hold, rfl⟩
  have hstore : operationTicks i = [storeTick] := by simp [operationTicks, hop]
  rw [middleTicks, hstore, List.length_append]
  exact hmode.append (.cons (storeTick_of_inRange (State.dmemRead_eq_some.1 hold).1) (.nil _))

/-! The frame of STORE on data memory. -/

theorem readCellTick_dmem (a : Int) (s : State) : (readCellTick a s).state.dmem = s.dmem := by
  obtain ⟨v, -, he⟩ | ⟨-, he⟩ := readCellTick_cases a s <;> rw [he] <;> rfl

theorem latchTick_dmem (new : Int) (s : State) : (latchTick new s).state.dmem = s.dmem := by
  obtain ⟨-, he⟩ | ⟨-, he⟩ := latchTick_cases new s <;> rw [he] <;> rfl

/-- Ticks that leave data memory as it was, completing or raising, leave it so in sequence. -/
theorem runTicks_dmem {fs : List (State → TickResult)} (hfs : ∀ f ∈ fs, ∀ u, (f u).state.dmem = u.dmem) (s : State) :
    (runTicks fs s).dmem = s.dmem := by
  refine runTicks_induct (fun u => u.dmem = s.dmem) fs s rfl fun f hf u hu => ?_
  have hkeep := (hfs f hf u).trans hu
  obtain ⟨c, -, he⟩ | ⟨-, -, he⟩ | ⟨-, -, v, hv, he⟩ | ⟨-, -, c, v, hv, he⟩ := controlTick_cases f u <;> rw [he]
  · exact hu
  · exact hu
  all_goals
    rw [hv] at hkeep
    exact hkeep

/-- A STORE leaves data memory as it was and the machine stopped, or it has an effective address and has written `ACC` there
(R166). -/
theorem exec_store_dmem {i : Instr} {s t : State} (hop : i.opcode = .store) (h : exec i s = .next t) :
    (t.dmem = s.dmem ∧ t.status ≠ .running) ∨
      ∃ ea, s.effectiveAddr i.mode i.arg = some ea ∧ t.dmem = s.dmem.write ea.toNat s.acc := by
  have hi : i ≠ .hlt := by
    rintro rfl
    cases hop
  have hstore : operationTicks i = [storeTick] := by simp [operationTicks, hop]
  obtain ⟨entry, he⟩ := exec_eq_blockTicks hi s
  cases he.symm.trans h
  rw [blockTicks, middleTicks, hstore, List.append_assoc, ← List.cons_append, runTicks_append, List.singleton_append,
    runTicks_cons]
  have hbefore : (runTicks (fetchTick (encode i).code entry :: modeTicks i) s).dmem = s.dmem := by
    refine runTicks_dmem (List.forall_mem_cons.2 ⟨fun _ => rfl, fun f hf u => ?_⟩) s
    obtain rfl | rfl := eq_of_mem_modeTicks hf <;> exact readCellTick_dmem _ u
  have hafter (u : State) : (runTicks [fun v => latchTick (nextAddress i v) v] u).dmem = u.dmem :=
    runTicks_dmem (List.forall_mem_singleton.2 fun v => latchTick_dmem _ v) u
  have hstops {u : State} {c : Cause} (hu : u.status = .stopped c) :
      (runTicks [fun v => latchTick (nextAddress i v) v] u).status ≠ .running := by
    simp [runTicks_stopped hu, hu]
  have hcompletes := completes_of_running (fs := fetchTick (encode i).code entry :: modeTicks i) (s := s)
  generalize runTicks (fetchTick (encode i).code entry :: modeTicks i) s = u at hbefore hcompletes ⊢
  obtain ⟨c, hs, hu⟩ | ⟨-, -, hu⟩ | ⟨hrun, -, v, hv, hu⟩ | ⟨-, -, c, v, hv, hu⟩ :=
    controlTick_cases storeTick u <;> rw [hu]
  · exact .inl ⟨(hafter u).trans hbefore, hstops hs⟩
  · exact .inl ⟨(hafter _).trans hbefore, hstops rfl⟩
  · obtain ⟨⟩ | ⟨⟨⟩, hmode⟩ := hcompletes hrun
    obtain ⟨ea, old, hea, hold, rfl⟩ := (completes_modeTicks_store hop).1 hmode
    rw [storeTick_of_inRange (State.dmemRead_eq_some.1 hold).1] at hv
    cases hv
    exact .inr ⟨ea, (s.effectiveAddr_fetched _ _ _ _).symm.trans hea, hafter _⟩
  · obtain ⟨w, -, hw⟩ | ⟨-, hw⟩ := storeTick_cases u <;> cases hv.symm.trans hw
    exact .inl ⟨(hafter _).trans hbefore, hstops rfl⟩

/-- Settles O13: a STORE writes data memory at the effective address or not at all, and not at all only if it stops. -/
theorem storeChangesOneCell : Obligations.StoreChangesOneCell := by
  intro i s t hop hsound h
  have hwf : s.dmem.wf = true := by
    rw [State.memorySound, Bool.and_eq_true] at hsound
    exact hsound.1
  obtain ⟨hsame, hstopped⟩ | ⟨ea, hea, hwritten⟩ := exec_store_dmem hop h
  · rw [hsame]
    exact ⟨fun _ _ _ _ => rfl, fun _ _ _ hrun => absurd hrun hstopped, fun _ _ => rfl⟩
  · rw [hea, hwritten]
    refine ⟨fun _ a he ha => ?_, fun _ he _ _ => ?_, nofun⟩ <;> cases he
    · exact Memory.read_write_other hwf ha _
    · exact Memory.read_write_same hwf _ _

/-! Addresses outside data memory. -/

theorem ControllerFrame.hasTicks_eq {s t : State} (h : ControllerFrame s t) (n : Nat) : t.hasTicks n = s.hasTicks n := by
  rw [State.hasTicks, State.hasTicks, h.cfg, h.ticks]

/-- A tick that raises after ticks that complete stops the machine in the state that it leaves (50_control_unit.md R226). -/
theorem Completes.runTicks_raised {fs gs : List (State → TickResult)} {f : State → TickResult} {s t u : State} {c : Cause}
    (h : Completes fs s t) (hframe : ∀ g ∈ fs, ∀ v, ControllerFrame v (g v).state) (hrun : s.status = .running)
    (hticks : s.hasTicks (fs.length + 1) = true) (hf : f t = .raised c u) : runTicks (fs ++ f :: gs) s = u.stop c := by
  induction h with
  | nil => exact Machine.runTicks_raised hrun (State.atCeiling_of_hasTicks hticks (Nat.succ_pos _)) hf gs
  | @cons g fs s v _ tick _ ih =>
    have hg := hframe g List.mem_cons_self s
    rw [tick] at hg
    rw [List.cons_append, runTicks_done hrun (State.atCeiling_of_hasTicks hticks (Nat.succ_pos _)) tick]
    exact ih (fun k hk => hframe k (List.mem_cons_of_mem g hk)) (hg.status.trans hrun)
      (State.hasTicks_countTick ((hg.hasTicks_eq _).trans hticks)) hf

/-- The block that the fetch enters is the one that the decode index names (32_microcode_rom.md R126). -/
theorem exec_eq_blockTicks_entryOffset {i : Instr} (hi : i ≠ .hlt) (s : State) :
    exec i s = .next (runTicks (blockTicks i (entryOffset i)) s) := by
  cases i with
  | hlt => exact absurd rfl hi
  | _ => rfl

/-- An instruction whose middle ticks complete up to one that raises stops in the state that this tick leaves (R226). -/
theorem exec_of_middleTick_raised {i : Instr} {fs gs : List (State → TickResult)} {f : State → TickResult} {s t u : State}
    {c : Cause} (hmiddle : middleTicks i = fs ++ f :: gs) (hrun : s.status = .running)
    (hticks : s.hasTicks (fs.length + 2) = true) (h : Completes fs (s.fetched (encode i).code (entryOffset i)) t)
    (hf : f t = .raised c u) : exec i s = .next (u.stop c) := by
  have hi : i ≠ .hlt := by
    rintro rfl
    cases fs <;> cases hmiddle
  have hblock : blockTicks i (entryOffset i) = (fetchTick (encode i).code (entryOffset i) :: fs) ++
      f :: (gs ++ [fun v => latchTick (nextAddress i v) v]) := by simp [blockTicks, hmiddle]
  have hfetch : Completes (fetchTick (encode i).code (entryOffset i) :: fs) s t := .cons rfl h
  have hframe : ∀ g ∈ fetchTick (encode i).code (entryOffset i) :: fs, ∀ v, ControllerFrame v (g v).state :=
    fun g hg v => controllerFrame_of_mem_blockTicks (hblock ▸ List.mem_append_left _ hg) v
  rw [exec_eq_blockTicks_entryOffset hi, hblock, hfetch.runTicks_raised hframe hrun hticks hf]

/-- A read outside data memory raises with the address latched (R162). -/
theorem readCellTick_of_outside {a : Int} {s : State} (h : inRange s.cfg.dataMemSize a = false) :
    readCellTick a s = .raised (.dataAddrOutOfRange a) (s.setAr a) := by
  simp [readCellTick, State.dmemRead_eq_none.2 h]

/-- The mode program of a memory mode begins with the read at the argument (R161, R163). -/
theorem exists_modeTicks_eq_cons {i : Instr} (h : i.mode = .direct ∨ i.mode = .labelAddr ∨ i.mode = .indirect) :
    ∃ fs, modeTicks i = argCellTick i.arg :: fs := by
  obtain hm | hm | hm := h <;> exact ⟨_, by rw [modeTicks, hm]⟩

theorem eq_entryOffset {i : Instr} {entry : Nat} (h : referenceMicrocode.entry (encode i).code.toNat = some entry) :
    entry = entryOffset i := Option.some.inj (h.symm.trans (referenceMicrocode_entry_encode i))

/-- Settles O22: the read at the argument is the first tick after the fetch. -/
theorem badAddressStopsInFirstModeTick : Obligations.BadAddressStopsInFirstModeTick := by
  intro i s entry hmode hrun hticks hout hentry
  obtain rfl := eq_entryOffset hentry
  obtain ⟨fs, hfs⟩ := exists_modeTicks_eq_cons hmode
  have hmiddle : middleTicks i = [] ++ argCellTick i.arg :: (fs ++ operationTicks i) := by rw [middleTicks, hfs]; rfl
  exact exec_of_middleTick_raised hmiddle hrun hticks (.nil _) (readCellTick_of_outside hout)

/-- Settles O23: the read at the argument completes and leaves the pointer, at which the next read raises. -/
theorem badPointerStopsInSecondModeTick : Obligations.BadPointerStopsInSecondModeTick := by
  intro i s entry pointer hmode hrun hticks hpointer hout hentry
  obtain rfl := eq_entryOffset hentry
  have hmiddle : middleTicks i = [argCellTick i.arg] ++ pointerCellTick :: operationTicks i := by
    rw [middleTicks, modeTicks, hmode]
    rfl
  have hfirst : Completes [argCellTick i.arg] (s.fetched (encode i).code (entryOffset i))
      (((s.fetched (encode i).code (entryOffset i)).withCell i.arg pointer).passed 1) :=
    .cons (readCellTick_of_some hpointer) (.nil _)
  have hsecond := readCellTick_of_outside
    (s := ((s.fetched (encode i).code (entryOffset i)).withCell i.arg pointer).passed 1) hout
  exact exec_of_middleTick_raised hmiddle hrun hticks hfirst hsecond

end Sys2Proof.Machine
end

section
/-! PROOFS. The input and output instructions (42_io.md R181, R183 to R188): the middle tick of each, on the state that the fetch
leaves, and from it the whole next state. -/

namespace Sys2Proof.Machine

variable {i : Instr} {s : State}

/-! Input. -/

/-- An input tick on a queue that is not empty takes its first element (R181). -/
theorem inputTick_of_cons {q : InQueue} {v : Int} {rest : List Int} (h : s.inQueue q = v :: rest) :
    inputTick q s = .done (((s.setInQueue q rest).setAlu v).commitAlu).advance := by
  obtain ⟨x, xs, hq, he⟩ | ⟨hempty, -⟩ := inputTick_cases q s
  · cases h.symm.trans hq
    exact he
  · cases h.symm.trans hempty

theorem State.inQueue_fetched (s : State) (code : BitVec 8) (entry : Nat) (q : InQueue) :
    (s.fetched code entry).inQueue q = s.inQueue q := by cases q <;> rfl

theorem State.setInQueue_fetched (s : State) (code : BitVec 8) (entry : Nat) (q : InQueue) (l : List Int) :
    (s.fetched code entry).setInQueue q l = (s.setInQueue q l).fetched code entry := by cases q <;> rfl

/-- The instructions that pass the first element of a queue into the accumulator (R183, R185, R187). -/
theorem exec_input {q : InQueue} {v : Int} {rest : List Int} (hnext : i.opcode ∉ [.jmp, .jmpz, .hlt])
    (hmiddle : middleTicks i = [inputTick q]) (h : s.inQueue q = v :: rest) (hready : s.readyFor (ticksOf i) = true) :
    exec i s = .next (((s.setInQueue q rest).withResult v).finish (encode i).code s.nextIp (ticksOf i)) := by
  refine exec_of_middleTicks_complete hnext hready fun entry => ?_
  have htick := inputTick_of_cons ((s.inQueue_fetched (encode i).code entry q).trans h)
  rw [State.setInQueue_fetched] at htick
  rw [hmiddle]
  exact .cons htick (.nil _)

/-- Settles O15: each of the three takes from its own queue. -/
theorem inputInstructionsPopTheirQueue : Obligations.InputInstructionsPopTheirQueue :=
  fun _ _ _ hready =>
    ⟨fun h => exec_input (i := .input) (q := .in0) (by decide) rfl h hready,
      fun h => exec_input (i := .port1In) (q := .p1in) (by decide) rfl h hready,
      fun h => exec_input (i := .port2In) (q := .p2in) (by decide) rfl h hready⟩

/-! Output. -/

theorem State.appendOut_fetched (s : State) (code : BitVec 8) (entry : Nat) (q : OutQueue) (v : Int) :
    (s.fetched code entry).appendOut q v = (s.appendOut q v).fetched code entry := by cases q <;> rfl

/-- The instructions that append the accumulator to an output sequence (R184, R186, R188). -/
theorem exec_output {q : OutQueue} (hnext : i.opcode ∉ [.jmp, .jmpz, .hlt]) (hmiddle : middleTicks i = [outputTick q])
    (hready : s.readyFor (ticksOf i) = true) :
    exec i s = .next ((s.appendOut q s.acc).finish (encode i).code s.nextIp (ticksOf i)) := by
  refine exec_of_middleTicks_complete hnext hready fun entry => ?_
  have htick := outputTick_eq q (s.fetched (encode i).code entry)
  rw [State.appendOut_fetched] at htick
  rw [hmiddle]
  exact .cons htick (.nil _)

/-- Settles O16: each of the three appends to its own sequence. -/
theorem outputInstructionsAppendAccumulator : Obligations.OutputInstructionsAppendAccumulator :=
  fun _ hready =>
    ⟨exec_output (i := .output) (q := .out0) (by decide) rfl hready,
      exec_output (i := .port1Out) (q := .p1out) (by decide) rfl hready,
      exec_output (i := .port2Out) (q := .p2out) (by decide) rfl hready⟩

end Sys2Proof.Machine
end

section
/-! PROOFS. The control instructions (43_control.md R202 to R204): how the latch of the next address ends a block, inside and
outside instruction memory, the jumps by it, and that a machine that HLT has stopped stays as it is (60_exceptions.md R250). -/

namespace Sys2Proof.Machine

variable {i : Instr} {s u : State}

/-! The latch that ends a block. -/

/-- A block whose latch finds its address inside instruction memory completes there (31_control_word.md R93). -/
theorem exec_of_latch_inside (hi : i ≠ .hlt) (hrun : s.status = .running) (hticks : s.hasTicks (ticksOf i) = true)
    (h : Completes (middleTicks i) (s.fetched (encode i).code (entryOffset i)) u)
    (hnew : inRange u.cfg.instrMemSize (nextAddress i u) = true) :
    exec i s = .next (u.setIp (nextAddress i u)).boundary.countTick := by
  have hblock := completes_blockTicks_iff.2 ⟨u, h, hnew, rfl⟩
  have hlength : (blockTicks i (entryOffset i)).length = ticksOf i := by simp [blockTicks, ticksOf_eq_middleTicks hi]
  rw [exec_eq_blockTicks_entryOffset hi,
    hblock.runTicks_eq (fun _ hf => controllerFrame_of_mem_blockTicks hf) hrun (hlength ▸ hticks)]

/-- A block whose latch finds its address outside instruction memory stops there, with nothing latched (R93, R226). -/
theorem exec_of_latch_outside (hi : i ≠ .hlt) (hrun : s.status = .running) (hticks : s.hasTicks (ticksOf i) = true)
    (h : Completes (middleTicks i) (s.fetched (encode i).code (entryOffset i)) u)
    (hnew : inRange u.cfg.instrMemSize (nextAddress i u) = false) :
    exec i s = .next (u.stop (.instrAddrOutOfRange (nextAddress i u))) := by
  have hfetch : Completes (fetchTick (encode i).code (entryOffset i) :: middleTicks i) s u := .cons rfl h
  have hframe : ∀ f ∈ fetchTick (encode i).code (entryOffset i) :: middleTicks i, ∀ v, ControllerFrame v (f v).state :=
    fun _ hf => controllerFrame_of_mem_blockTicks (List.mem_append_left _ hf)
  have hraised : latchTick (nextAddress i u) u = .raised (.instrAddrOutOfRange (nextAddress i u)) u := by
    simp [latchTick, hnew]
  rw [ticksOf_eq_middleTicks hi] at hticks
  rw [exec_eq_blockTicks_entryOffset hi]
  exact congrArg _ (hfetch.runTicks_raised hframe hrun hticks hraised)

/-! JMP and JMPZ. -/

/-- An instruction without middle ticks latches its next address on the state that the fetch leaves (R202, R203). -/
theorem exec_jump {new : Int} (hi : i ≠ .hlt) (hmiddle : middleTicks i = []) (hrun : s.status = .running)
    (hticks : s.hasTicks 2 = true) (hnew : nextAddress i (s.fetched (encode i).code (entryOffset i)) = new) :
    (inRange s.cfg.instrMemSize new = true → exec i s = .next (s.finish (encode i).code new 2)) ∧
    (inRange s.cfg.instrMemSize new = false →
      exec i s = .next ((s.fetched (encode i).code (entryOffset i)).stop (.instrAddrOutOfRange new))) := by
  subst hnew
  have hroom : s.hasTicks (ticksOf i) = true := by rwa [ticksOf_eq_middleTicks hi, hmiddle]
  have hcompletes (v : State) : Completes (middleTicks i) v v := by
    rw [hmiddle]
    exact .nil v
  exact ⟨exec_of_latch_inside hi hrun hroom (hcompletes _), exec_of_latch_outside hi hrun hroom (hcompletes _)⟩

/-- Settles O17: the address that JMP latches is its argument. -/
theorem jmpGoesToTarget : Obligations.JmpGoesToTarget :=
  fun a _ hrun hticks => exec_jump (i := .jmpLabelValue a) nofun rfl hrun hticks rfl

/-- The address that JMPZ latches is chosen by `Z`, which its fetch has left as it was (R203). -/
theorem nextAddress_jmpz_fetched {a new : Int} (hset : s.z = true → new = a) (hclear : s.z = false → new = s.nextIp)
    (code : BitVec 8) (entry : Nat) : nextAddress (.jmpzLabelValue a) (s.fetched code entry) = new := by
  change (if s.z then a else s.nextIp) = new
  cases hz : s.z with
  | true => exact (hset hz).symm
  | false => exact (hclear hz).symm

/-- Settles O18: the address that JMPZ latches is the one that `Z` chooses. -/
theorem jmpzGoesToTargetIfZero : Obligations.JmpzGoesToTargetIfZero :=
  fun a _ _ hrun hticks hset hclear =>
    exec_jump (i := .jmpzLabelValue a) nofun rfl hrun hticks (nextAddress_jmpz_fetched hset hclear _ _)

/-! HLT. -/

/-- A stopped machine steps to itself (50_control_unit.md R226). -/
theorem step_of_stopped {c : Cause} (h : s.status = .stopped c) : step s = .next s := by simp [step, h]

/-- Every instruction leaves a stopped machine as it is (R226). -/
theorem exec_of_stopped {c : Cause} (h : s.status = .stopped c) (i : Instr) : exec i s = .next s := by
  obtain ⟨fs, -, he⟩ := exec_isNext i s
  rw [he, runTicks_stopped h]

/-- HLT under the ceiling: its fetch writes `IR` and raises the halt (31_control_word.md R95; R204). -/
theorem exec_hlt_of_hasTicks (hrun : s.status = .running) (hticks : s.hasTicks 1 = true) :
    exec .hlt s = .next ((s.setIr 160).stop .normalHalt) := by
  rw [exec_hlt, runTicks_raised hrun (State.atCeiling_of_hasTicks hticks Nat.one_pos) (haltTick_eq 160 s)]

/-- Settles O19: the state that HLT leaves is stopped, and a stopped state is absorbing. -/
theorem hltStopsTheMachine : Obligations.HltStopsTheMachine :=
  fun _ hrun hticks => ⟨_, exec_hlt_of_hasTicks hrun hticks, rfl, step_of_stopped rfl, exec_of_stopped rfl⟩

end Sys2Proof.Machine
end

section
/-! PROOFS. The stopped machine and its run result, and the step at an instruction boundary: it is the meaning of the word there, a
word that was placed included (30_encoding.md R68; 50_control_unit.md R226, R227, R229). -/

namespace Sys2Proof.Machine

/-! The stopped machine. -/

/-- A stopped machine ticks to itself on every microcode (R226). -/
theorem tickOf_of_stopped {s : State} {c : Cause} (h : s.status = .stopped c) (m : Microcode) : tickOf m s = .next s := by
  simp [tickOf, h]

/-- Settles O28: the step, the instructions and the ticks each look at `STATUS` first. -/
theorem stoppedMachineStaysAsItIs : Obligations.StoppedMachineStaysAsItIs :=
  fun _ _ h => ⟨step_of_stopped h, exec_of_stopped h, tickOf_of_stopped h⟩

theorem State.runResult_of_running {s : State} (h : s.status = .running) : s.runResult = none := by simp [State.runResult, h]

theorem State.runResult_of_stopped {s : State} {c : Cause} (h : s.status = .stopped c) :
    s.runResult = some ⟨c, s.ticks, s.icount, s.out0, s.p1out, s.p2out⟩ := by simp [State.runResult, h]

/-- The sentinel stands for the tick ceiling alone: a tick count is never negative (R227). -/
theorem RunResult.reportedTicks_eq_neg_one (r : RunResult) : r.reportedTicks = -1 ↔ r.cause = .tickCeilingExceeded := by
  unfold RunResult.reportedTicks
  split <;> rename_i h
  · simp [h]
  · simp only [h, iff_false]
    omega

theorem RunResult.reportedTicks_of_ne {r : RunResult} (h : r.cause ≠ .tickCeilingExceeded) : r.reportedTicks = (r.ticks : Int) :=
  if_neg h

/-- Settles O29: the result is read off a stopped state, and its single number off the result. -/
theorem runResultCarriesTheCause : Obligations.RunResultCarriesTheCause :=
  fun _ => ⟨State.runResult_of_running, fun _ h => ⟨_, State.runResult_of_stopped h, rfl, rfl, rfl, rfl, rfl, rfl,
    RunResult.reportedTicks_eq_neg_one _, fun hc => RunResult.reportedTicks_of_ne hc⟩⟩

/-! The step at an instruction boundary. -/

section

variable {s : State} {i : Instr}

theorem fetch_of_decode (hat : s.atCeiling = false) (hip : s.ip < (s.progLen : Int)) (h : decode (s.imemRead s.ip) = .ok i) :
    s.fetch = .instr i := by
  simp [State.fetch, hat, not_le.2 hip, h]

/-- At an instruction boundary the step is the meaning of the instruction that the fetch finds (R229). -/
theorem step_of_fetch_instr (hrun : s.status = .running) (hmip : s.mip = 0) (hip : s.ipInRange = true)
    (h : s.fetch = .instr i) : step s = exec i s := by
  simp [step, hrun, hmip, hip, h]

end

/-- Settles O30: the fetch of a word that decodes finds its instruction. -/
theorem stepRunsTheDecodedInstruction : Obligations.StepRunsTheDecodedInstruction :=
  fun _ _ hrun hmip hip hat hprog hdecode => step_of_fetch_instr hrun hmip hip (fetch_of_decode hat hprog hdecode)

/-! A word placed where the machine fetches. -/

/-- The number of an encoded instruction is read back as its word when the argument fits the width of the run (30_encoding.md
R66). -/
theorem State.withFetchWord_encode {s : State} {i : Instr} (hw : 1 ≤ s.cfg.width) (hi : i.wellFormed s.cfg.width = true) :
    s.withFetchWord (8 + s.cfg.width) ((encode i).toBits s.cfg.width).toNat = s.placeAtIp (encode i) := by
  rw [Instr.wellFormed_eq] at hi
  rw [State.withFetchWord, Nat.mod_eq_of_lt (BitVec.isLt _), BitVec.ofNat_toNat, BitVec.setWidth_eq,
    InstrWord.ofBits_toBits hw _ hi]

/-- A placed word has its argument staged (10_state.md R18). -/
theorem State.placeAtIp_staged (s : State) (w : InstrWord) : (s.placeAtIp w).staged = true := by
  have hword : w.arg = (s.placeAtIp w).wireArg := congrArg InstrWord.arg (s.imemRead_placeAtIp w).symm
  exact decide_eq_true fun _ => hword

/-- The program reaches beyond a word placed at an `IP` inside instruction memory. -/
theorem State.placeAtIp_ip_lt_progLen {s : State} (hip : s.ipInRange = true) (w : InstrWord) :
    (s.placeAtIp w).ip < ((s.placeAtIp w).progLen : Int) := by
  obtain ⟨hnonneg, -⟩ := (inRange_iff _ _).1 hip
  have hlt : s.ip.toNat < (s.placeAtIp w).progLen := lt_length_placeWord s.imem s.ip.toNat w
  rw [State.placeAtIp_ip]
  omega

/-- Settles O31: the word is read back as it was encoded, it stands where the machine fetches, and it decodes to its instruction. -/
theorem placedWordIsRunNext : Obligations.PlacedWordIsRunNext := by
  intro i s hi hcfg hrun hmip hip hat t
  have ht : t = s.placeAtIp (encode i) := State.withFetchWord_encode (Config.width_pos hcfg) hi
  rw [ht]
  refine ⟨s.placeAtIp_staged _, stepRunsTheDecodedInstruction _ i hrun hmip hip hat (State.placeAtIp_ip_lt_progLen hip _) ?_⟩
  rw [s.imemRead_placeAtIp, decode_encode]

end Sys2Proof.Machine
end

section
/-! PROOFS. A control word that raises (31_control_word.md R89; 50_control_unit.md R226), and the run loop: where it ends, and that
it ends under a finite ceiling (R225, R252). -/

namespace Sys2Proof.Machine

/-! A word that raises. -/

/-- Columns that raise were applied up to one whose primitive raises, and none after it was (R226). -/
theorem applyColumns_raised_around {m : Microcode} {w : ControlWord} {cs : List Column} {s t : State} {c : Cause}
    (h : applyColumns m w cs (.done s) = .raised c t) :
    ∃ before after col u, cs = before ++ col :: after ∧ applyColumns m w before (.done s) = .done u ∧
      primitive m w col u = .raised c t := by
  induction cs generalizing s with
  | nil => cases h
  | cons k ks ih =>
    change applyColumns m w ks (primitive m w k s) = .raised c t at h
    cases hk : primitive m w k s with
    | raised d u =>
      rw [hk, applyColumns_raised] at h
      cases h
      exact ⟨[], ks, k, s, rfl, rfl, hk⟩
    | done u =>
      rw [hk] at h
      obtain ⟨before, after, col, v, rfl, hbefore, hcol⟩ := ih h
      refine ⟨k :: before, after, col, v, rfl, ?_, hcol⟩
      change applyColumns m w before (primitive m w k s) = .done v
      rw [hk, hbefore]

/-- No primitive counts a tick or writes `STATUS`: both are the controller's (R221, R226). -/
theorem ColumnWrite.ticks_status {w : ControlWord} {s t : State} {c : Column} (h : ColumnWrite w s c t) :
    (t.ticks, t.status) = (s.ticks, s.status) := by
  cases h with
  | pop | output | port1Out | port2Out => simp
  | dataOut ht =>
    obtain ⟨-, rfl⟩ := State.dmemWrite_eq_some.1 ht
    rfl
  | _ => rfl

theorem applyWord_ticks_status (m : Microcode) (w : ControlWord) (s : State) :
    ((applyWord m w s).state.ticks, (applyWord m w s).state.status) = (s.ticks, s.status) :=
  applyWord_induct (fun u => (u.ticks, u.status) = (s.ticks, s.status)) m w
    (fun c u hu => (primitive_columnWrite m w c u).ticks_status.trans hu) s rfl

/-- A running machine under the ceiling ticks by the loop body around the word at `MIP` (R225). -/
theorem tickOf_of_running {m : Microcode} {s : State} {w : ControlWord} (hrun : s.status = .running)
    (hip : s.ipInRange = true) (hw : m.rom[s.mip]? = some w) : tickOf m s = .next (controlTick (applyWord m w) s) := by
  simp [tickOf, hrun, hip, hw]

/-- Settles O46: the raising column parts the word in two, and the state that it leaves is the one that the tick stops. -/
theorem raiseAbandonsTheTick : Obligations.RaiseAbandonsTheTick := by
  intro m w s t c h
  have hticks := applyWord_ticks_status m w s
  rw [h] at hticks
  obtain ⟨d, u, he, hmip, hicount⟩ | ⟨u, -, -, he, -⟩ := applyWord_mip_icount m w s <;> cases h.symm.trans he
  refine ⟨applyColumns_raised_around h, (Prod.mk.inj hticks).1, hmip, hicount, fun hrun hip hat hw => ?_⟩
  rw [tickOf_of_running hrun hip hw, controlTick_raised hrun hat h]
  rfl

/-! Where a run ends. -/

section

variable {m : Microcode} {s t u : State}

/-- A run that ends within some passes ends so within any greater number of them (R225). -/
theorem runWithin_mono {n k : Nat} (h : runWithin m n s = some (.next t)) (hk : n ≤ k) :
    runWithin m k s = some (.next t) := by
  induction n generalizing s k with
  | zero =>
    cases hs : s.status with
    | running => simp [runWithin, hs] at h
    | stopped c => rwa [runWithin_stopped hs] at h ⊢
  | succ n ih =>
    obtain ⟨k, rfl⟩ : ∃ j, k = j + 1 := ⟨k - 1, by omega⟩
    cases hs : s.status with
    | stopped c => rwa [runWithin_stopped hs] at h ⊢
    | running =>
      cases hv : tickOf m s with
      | next v =>
        rw [runWithin_succ hv] at h ⊢
        exact ih h (Nat.le_of_succ_le_succ hk)
      | fault f => simp [runWithin, hs, hv] at h
      | refused r => simp [runWithin, hs, hv] at h

/-- A run ends in a stopped state only (R225). -/
theorem stopped_of_runWithin {n : Nat} (h : runWithin m n s = some (.next t)) : ∃ c, t.status = .stopped c := by
  induction n generalizing s with
  | zero =>
    cases hs : s.status with
    | running => simp [runWithin, hs] at h
    | stopped c =>
      cases (runWithin_stopped hs 0).symm.trans h
      exact ⟨c, hs⟩
  | succ n ih =>
    cases hs : s.status with
    | stopped c =>
      cases (runWithin_stopped hs (n + 1)).symm.trans h
      exact ⟨c, hs⟩
    | running =>
      cases hv : tickOf m s with
      | next v =>
        rw [runWithin_succ hv] at h
        exact ih h
      | fault f => simp [runWithin, hs, hv] at h
      | refused r => simp [runWithin, hs, hv] at h

theorem State.RunsTo.unique (h : s.RunsTo m t) (k : s.RunsTo m u) : u = t := by
  obtain ⟨n, hn⟩ := h
  obtain ⟨l, hl⟩ := k
  cases (runWithin_mono hl (Nat.le_max_right n l)).symm.trans (runWithin_mono hn (Nat.le_max_left n l))
  rfl

theorem State.RunsTo.stopped (h : s.RunsTo m t) : ∃ c, t.status = .stopped c := by
  obtain ⟨n, hn⟩ := h
  exact stopped_of_runWithin hn

/-- A tick moves a run on and does not change where it ends (R225). -/
theorem State.runsTo_iff_of_tickOf (h : tickOf m s = .next t) : s.RunsTo m u ↔ t.RunsTo m u := by
  constructor
  · rintro ⟨n, hn⟩
    exact ⟨n, runWithin_succ h n ▸ runWithin_mono hn n.le_succ⟩
  · rintro ⟨n, hn⟩
    exact ⟨n + 1, (runWithin_succ h n).trans hn⟩

end

/-! A finite ceiling. -/

/-- A tick after which the machine runs is counted. -/
theorem tickOf_ticks_of_running {m : Microcode} {s t : State} (h : tickOf m s = .next t) (hrun : t.status = .running) :
    t.ticks = s.ticks + 1 := by
  obtain ⟨⟨c, hs⟩, rfl⟩ | ⟨-, -, w, hw, -⟩ := tickOf_next_cases h
  · simp [hrun] at hs
  · obtain ⟨u, hu, rfl⟩ := tickOf_running hw h hrun
    have hticks := applyWord_ticks_status m w s
    rw [hu] at hticks
    exact congrArg (· + 1) (Prod.mk.inj hticks).1

/-- One pass for every tick left and one more are enough for the run of a sound state, which stays sound. -/
theorem runWithin_of_sound {s : State} {limit n : Nat} (hs : s.sound = true) (hlimit : s.cfg.tickLimit = some limit)
    (hn : limit < s.ticks + n) : ∃ t, runWithin referenceMicrocode n s = some (.next t) ∧ t.sound = true ∧ t.cfg = s.cfg := by
  induction n generalizing s with
  | zero =>
    have hle := (s.sound_iff.1 hs).2.ceiling limit hlimit
    omega
  | succ n ih =>
    obtain ⟨-, u, hu⟩ := soundStateNeverFaults s hs
    have hsound := tickKeepsStateSound s u hs hu
    obtain ⟨-, hcfg⟩ := tickOf_imem_cfg hu
    rw [runWithin_succ hu]
    cases hstatus : u.status with
    | stopped c => exact ⟨u, runWithin_stopped hstatus n, hsound, hcfg⟩
    | running =>
      have hticks := tickOf_ticks_of_running hu hstatus
      obtain ⟨t, ht, htsound, htcfg⟩ := ih hsound (hcfg ▸ hlimit) (by omega)
      exact ⟨t, ht, htsound, htcfg.trans hcfg⟩

/-- Settles O40: every tick of a sound state stops the machine or uses up one of the ticks left, and more passes do not change
where a run ends. -/
theorem runUnderFiniteCeilingEnds : Obligations.RunUnderFiniteCeilingEnds := by
  refine ⟨fun s limit passes hs hlimit => ?_, fun m s t u ht hu => ?_, fun m s t u h => State.runsTo_iff_of_tickOf h,
    fun m s t n passes hlimit h hle => ?_⟩
  · obtain ⟨t, ht, hsound, hcfg⟩ := runWithin_of_sound (n := limit - s.ticks + 1) hs hlimit (by omega)
    obtain ⟨c, hc⟩ := stopped_of_runWithin ht
    have hceiling := (t.sound_iff.1 hsound).2.ceiling limit (hcfg ▸ hlimit)
    exact ⟨t, c, by rwa [State.runToEnd, hlimit], ⟨_, ht⟩, hc, hceiling⟩
  · obtain ⟨c, hc⟩ := ht.stopped
    exact ⟨ht.unique hu, c, _, hc, State.runResult_of_stopped hc, rfl⟩
  · rw [State.runToEnd, hlimit]
    exact runWithin_mono h hle

end Sys2Proof.Machine
end

section
/-! PROOFS. What an instruction does to the tick count under a finite ceiling (50_control_unit.md R225; 60_exceptions.md R252): a tick
leaves the count to the controller, and none raises the ceiling's own cause. -/

namespace Sys2Proof.Machine

/-! The ticks between the fetch and the last tick. -/

/-- The results that such a tick may have: it goes to the next word and leaves a staged value operand on `OPR`, or it raises a cause
that is not the ceiling's (31_control_word.md R105; 41_memory_ops.md R164). -/
inductive MiddleResult (i : Instr) (s : State) : TickResult → Prop where
  | done {t : State} (mip : t.mip = s.mip + 1) (opr : i.mode = .labelValue → t.opr = s.opr) : MiddleResult i s (.done t)
  | raised {c : Cause} {t : State} (cause : c ≠ .tickCeilingExceeded) : MiddleResult i s (.raised c t)

section

variable {i : Instr}

theorem middleResult_readCell (hmode : i.mode ≠ .labelValue) (a : Int) (s : State) : MiddleResult i s (readCellTick a s) := by
  obtain ⟨v, -, he⟩ | ⟨-, he⟩ := readCellTick_cases a s <;> rw [he]
  exacts [.done rfl (fun h => absurd h hmode), .raised nofun]

theorem middleResult_operand (fn : AluFn) (s : State) : MiddleResult i s (operandTick fn i s) := by
  unfold operandTick
  split <;> exact .done rfl (fun _ => rfl)

theorem middleResult_input (q : InQueue) (s : State) : MiddleResult i s (inputTick q s) := by
  obtain ⟨v, rest, -, he⟩ | ⟨-, he⟩ := inputTick_cases q s <;> rw [he]
  · cases q <;> exact .done rfl (fun _ => rfl)
  · exact .raised nofun

theorem middleResult_output (q : OutQueue) (s : State) : MiddleResult i s (outputTick q s) := by
  cases q <;> exact .done rfl (fun _ => rfl)

theorem middleResult_store (s : State) : MiddleResult i s (storeTick s) := by
  obtain ⟨t, ht, he⟩ | ⟨-, he⟩ := storeTick_cases s <;> rw [he]
  · obtain ⟨-, rfl⟩ := State.dmemWrite_eq_some.1 ht
    exact .done rfl (fun _ => rfl)
  · exact .raised nofun

theorem middleResult_of_mem_middleTicks {f : State → TickResult} (hf : f ∈ middleTicks i) (s : State) :
    MiddleResult i s (f s) := by
  obtain hf | hf := List.mem_append.1 hf
  · have hmode : i.mode ≠ .labelValue := by
      intro hm
      simp [modeTicks, hm] at hf
    obtain rfl | rfl := eq_of_mem_modeTicks hf <;> exact middleResult_readCell hmode _ s
  · unfold operationTicks at hf
    cases ho : i.opcode <;> rw [ho] at hf
    case jmp | jmpz | hlt => cases hf
    all_goals rw [List.mem_singleton.1 hf]
    case inc | dec | cls | neg => exact .done rfl (fun _ => rfl)
    case add | sub | load => exact middleResult_operand _ s
    case store => exact middleResult_store s
    case input | port1In | port2In => exact middleResult_input _ s
    case output | port1Out | port2Out => exact middleResult_output _ s

end

/-! The ticks of an instruction leave the count and the ceiling to the controller. -/

/-- A tick that changes neither the parameters nor the count nor `STATUS`, and does not raise the ceiling's cause. -/
structure UncountedTick (s : State) (r : TickResult) : Prop where
  frame : ControllerFrame s r.state
  cause : ∀ c t, r = .raised c t → c ≠ .tickCeilingExceeded

theorem uncountedTick_fetch (code : BitVec 8) (entry : Nat) (s : State) : UncountedTick s (fetchTick code entry s) :=
  ⟨⟨rfl, rfl, rfl⟩, fun _ _ hr => by cases hr⟩

theorem uncountedTick_halt (code : BitVec 8) (s : State) : UncountedTick s (haltTick code s) := by
  refine ⟨⟨rfl, rfl, rfl⟩, fun c t hr => ?_⟩
  cases hr
  exact nofun

theorem uncountedTick_of_mem_middleTicks {i : Instr} {f : State → TickResult} (hf : f ∈ middleTicks i) (s : State) :
    UncountedTick s (f s) := by
  refine ⟨(middleFrame_of_mem_middleTicks hf s).toControllerFrame, fun c t hr => ?_⟩
  have hresult := middleResult_of_mem_middleTicks hf s
  rw [hr] at hresult
  cases hresult
  assumption

theorem uncountedTick_latch (new : Int) (s : State) : UncountedTick s (latchTick new s) := by
  refine ⟨controllerFrame_latch new s, fun c t hr => ?_⟩
  obtain ⟨-, he⟩ | ⟨-, he⟩ := latchTick_cases new s <;> cases hr.symm.trans he
  exact nofun

/-- The meaning of an instruction is its number of ticks (32_microcode_rom.md R129), each of this kind. -/
theorem exec_eq_uncountedTicks (i : Instr) (s : State) :
    ∃ fs, exec i s = .next (runTicks fs s) ∧ fs.length = ticksOf i ∧ ∀ f ∈ fs, ∀ u, UncountedTick u (f u) := by
  by_cases hi : i = .hlt
  · subst hi
    refine ⟨[haltTick 160], rfl, rfl, fun f hf u => ?_⟩
    rw [List.mem_singleton.1 hf]
    exact uncountedTick_halt 160 u
  · refine ⟨_, exec_eq_blockTicks_entryOffset hi s, by simp [blockTicks, ticksOf_eq_middleTicks hi], fun f hf u => ?_⟩
    simp only [blockTicks, List.mem_cons, List.mem_append, List.not_mem_nil, or_false] at hf
    obtain rfl | hf | rfl := hf
    · exact uncountedTick_fetch _ _ u
    · exact uncountedTick_of_mem_middleTicks hf u
    · exact uncountedTick_latch _ u

/-! The count under a ceiling. -/

/-- The tick count of a state under a ceiling: not beyond it, and at it when the ceiling has stopped the machine (R225, R252). -/
structure State.CountedUnder (limit : Nat) (s : State) : Prop where
  ceiling : s.cfg.tickLimit = some limit
  within : s.ticks ≤ limit
  cut : s.status = .stopped .tickCeilingExceeded → s.ticks = limit

/-- The loop body around such a tick counts it at most once and keeps the count under the ceiling. -/
theorem State.CountedUnder.controlTick {limit : Nat} {s : State} {f : State → TickResult} (h : s.CountedUnder limit)
    (hf : UncountedTick s (f s)) :
    (controlTick f s).CountedUnder limit ∧ s.ticks ≤ (controlTick f s).ticks ∧ (controlTick f s).ticks ≤ s.ticks + 1 := by
  have ⟨hceiling, hwithin, _⟩ := h
  obtain ⟨c, -, he⟩ | ⟨-, hat, he⟩ | ⟨hrun, hat, t, ht, he⟩ | ⟨-, -, c, t, ht, he⟩ := controlTick_cases f s <;> rw [he]
  · exact ⟨h, le_rfl, Nat.le_succ _⟩
  · simp only [State.atCeiling, ceilingAt, hceiling, decide_eq_true_eq] at hat
    exact ⟨⟨hceiling, hwithin, fun _ => le_antisymm hwithin hat⟩, le_rfl, Nat.le_succ _⟩
  · obtain ⟨⟨hcfg, hstatus, hticks⟩, -⟩ := ht ▸ hf
    simp only [State.atCeiling, ceilingAt, hceiling, decide_eq_false_iff_not, not_le] at hat
    have hcount : t.countTick.ticks = s.ticks + 1 := congrArg (· + 1) hticks
    have hrunning : t.countTick.status = .running := hstatus.trans hrun
    refine ⟨⟨hcfg ▸ hceiling, hcount ▸ hat, fun hcut => ?_⟩, hcount ▸ Nat.le_succ _, hcount.le⟩
    cases hrunning.symm.trans hcut
  · obtain ⟨⟨hcfg, -, hticks⟩, hcause⟩ := ht ▸ hf
    have hcount : (t.stop c).ticks = s.ticks := hticks
    refine ⟨⟨hcfg ▸ hceiling, hcount ▸ hwithin, ?_⟩, hcount.ge, hcount ▸ Nat.le_succ _⟩
    rintro ⟨⟩
    exact absurd rfl (hcause _ t rfl)

/-- Ticks of this kind count at most as many ticks as they are. -/
theorem State.CountedUnder.runTicks {limit : Nat} {fs : List (State → TickResult)} {s : State} (h : s.CountedUnder limit)
    (hfs : ∀ f ∈ fs, ∀ u, UncountedTick u (f u)) :
    (runTicks fs s).CountedUnder limit ∧ s.ticks ≤ (runTicks fs s).ticks ∧ (runTicks fs s).ticks ≤ s.ticks + fs.length := by
  induction fs generalizing s with
  | nil => exact ⟨h, le_rfl, le_rfl⟩
  | cons f fs ih =>
    obtain ⟨hfirst, hlow, hhigh⟩ := h.controlTick (hfs f List.mem_cons_self s)
    obtain ⟨hrest, hlow', hhigh'⟩ := ih hfirst fun g hg => hfs g (List.mem_cons_of_mem f hg)
    rw [runTicks_cons, List.length_cons]
    exact ⟨hrest, by omega, by omega⟩

/-- Settles O27: the ticks of the instruction, each counted at most once and only under the ceiling. -/
theorem ceilingCutsInstructionAtTheLimit : Obligations.CeilingCutsInstructionAtTheLimit := by
  intro i s t limit hlimit hle hrun h
  obtain ⟨fs, he, hlength, hfs⟩ := exec_eq_uncountedTicks i s
  cases he.symm.trans h
  have hs : s.CountedUnder limit := ⟨hlimit, hle, fun hcut => by simp [hrun] at hcut⟩
  obtain ⟨⟨-, hwithin, hcut⟩, hlow, hhigh⟩ := hs.runTicks hfs
  exact ⟨hwithin, hlow, hlength ▸ hhigh, hcut⟩

end Sys2Proof.Machine
end

section
/-! PROOFS. The instruction-level step is the tick machine's run of the instruction's ticks (50_control_unit.md R229): the fetch word
does the fetch tick, and each word of a block of the reference ROM the tick that stands at its place (31_control_word.md R109;
32_microcode_rom.md R121 to R126, R129). -/

namespace Sys2Proof.Machine

/-! Ticks that the words of a ROM do. -/

/-- From a state on, the words that the ROM holds where `MIP` leads do the ticks of a list, as long as these complete. -/
inductive RomDoes (m : Microcode) : List (State → TickResult) → State → Prop where
  | nil (s : State) : RomDoes m [] s
  | cons {f : State → TickResult} {fs : List (State → TickResult)} {s : State} {w : ControlWord} (ip : s.ipInRange = true)
      (word : m.rom[s.mip]? = some w) (apply : applyWord m w s = f s)
      (rest : ∀ t, f s = .done t → RomDoes m fs t.countTick) : RomDoes m (f :: fs) s

theorem ticksFor_succ {m : Microcode} {s t : State} (h : tickOf m s = .next t) (n : Nat) :
    ticksFor m (n + 1) s = ticksFor m n t := by
  have hstep : (tickMachine m).step s = .next t := h
  change Host.Core.run (tickMachine m) (n + 1) s = Host.Core.run (tickMachine m) n t
  simp only [Host.Core.run, hstep]

/-- A stopped machine stays as it is over any number of ticks (R226). -/
theorem ticksFor_of_stopped {m : Microcode} {s : State} {c : Cause} (h : s.status = .stopped c) (n : Nat) :
    ticksFor m n s = .next s := by
  induction n with
  | zero => rfl
  | succ n ih => rw [ticksFor_succ (tickOf_of_stopped h m), ih]

/-- The tick machine's run over words that do the ticks is these ticks, raises and ceiling cuts included (R225, R226). -/
theorem ticksFor_eq_runTicks {m : Microcode} {fs : List (State → TickResult)} {s : State} (h : RomDoes m fs s)
    (hrun : s.status = .running) (hfs : ∀ f ∈ fs, ∀ u, ControllerFrame u (f u).state) :
    ticksFor m fs.length s = .next (runTicks fs s) := by
  induction h with
  | nil => rfl
  | @cons f fs s w ip word apply rest ih =>
    have hbody : controlTick (applyWord m w) s = controlTick f s := by simp only [controlTick, apply]
    rw [List.length_cons, ticksFor_succ ((tickOf_of_running hrun ip word).trans (congrArg _ hbody)), runTicks_cons]
    obtain ⟨c, hs, -⟩ | ⟨-, -, he⟩ | ⟨-, -, t, ht, he⟩ | ⟨-, -, c, t, -, he⟩ := controlTick_cases f s
    · simp [hrun] at hs
    · rw [he, ticksFor_of_stopped (State.stop_status s _), runTicks_stopped (State.stop_status s _)]
    · have hframe := hfs f List.mem_cons_self s
      rw [ht] at hframe
      rw [he]
      exact ih t ht (hframe.status.trans hrun) fun g hg => hfs g (List.mem_cons_of_mem f hg)
    · rw [he, ticksFor_of_stopped (State.stop_status t _), runTicks_stopped (State.stop_status t _)]

/-! The actions of a word. -/

/-- The six columns that select an input of a multiplexer (R94, R96, R98, R104). -/
def Column.isSelect : Column → Bool
  | .selIp | .selJump | .selAddr | .selAlu | .selAluIn | .microSelIp => true
  | _ => false

/-- The word sets the column, and the column is an action. -/
def ControlWord.acts (w : ControlWord) (c : Column) : Bool := !c.isSelect && decide (w.col c ≠ 0)

/-- The actions that a word sets, in column order (R81). -/
def ControlWord.actions (w : ControlWord) : List Column := Column.all.filter w.acts

/-- The primitive of a select, and that of an action that the word does not set, changes nothing (R89, R93 to R107). -/
theorem primitive_of_not_acts {m : Microcode} {w : ControlWord} {c : Column} (h : w.acts c = false) (s : State) :
    primitive m w c s = .done s := by
  have hunset (b : Bool) (hb : b.toNat = 0) : b = false := by simpa using hb
  cases c with
  | selIp | selJump | selAddr | selAlu | selAluIn | microSelIp => rfl
  | _ =>
    simp only [ControlWord.acts, Column.isSelect, Bool.not_false, Bool.true_and, decide_eq_false_iff_not, not_not] at h
    have hcol := hunset _ h
    simp [primitive, primLatchIp, primLatchIr, primLatchAddr, primDoAlu, primLatchAcc, primOutput, primDataIn, primDataOut,
      primMicroLatchIp, primPort1Out, primPort2Out, hcol]

/-- Columns that do not act may be left out. -/
theorem applyColumns_filter_acts (m : Microcode) (w : ControlWord) (cs : List Column) (r : TickResult) :
    applyColumns m w cs r = applyColumns m w (cs.filter w.acts) r := by
  induction cs generalizing r with
  | nil => rfl
  | cons c cs ih =>
    have hcons : applyColumns m w (c :: cs) r = applyColumns m w cs (r.andThen (primitive m w c)) := rfl
    cases hacts : w.acts c with
    | true =>
      rw [List.filter_cons_of_pos hacts, hcons]
      exact ih _
    | false =>
      have hnothing : r.andThen (primitive m w c) = r := by
        cases r with
        | raised d t => rfl
        | done t => exact primitive_of_not_acts hacts t
      rw [List.filter_cons_of_neg (by simp [hacts]), hcons, hnothing, ih]

/-- A word is the actions that it sets, in column order (R89, R109). -/
theorem applyWord_eq_actions (m : Microcode) (w : ControlWord) (s : State) :
    applyWord m w s = applyColumns m w w.actions (.done s) := applyColumns_filter_acts m w Column.all (.done s)

/-- The micro latch of a word with select 0 goes to the next word of the ROM (R105). -/
theorem primMicroLatchIp_next {m : Microcode} (w : ControlWord) {s : State} (hlatch : w.microLatchIp = true)
    (hsel : w.microSelIp = 0) (hrom : s.mip + 1 < m.rom.length) : primMicroLatchIp m w s = .done s.advance := by
  simp [primMicroLatchIp, hlatch, hsel, hrom, State.advance]

/-! The words of the blocks. -/

/-- The word that sets `MICRO_LATCH_IP` alone: it goes to the next word, and every word of a block but the last adds columns to it
(32_microcode_rom.md R123, R124). -/
def ControlWord.adv : ControlWord where
  selIp := false
  selJump := false
  latchIp := false
  latchIr := false
  selAddr := false
  latchAddr := false
  selAlu := false
  selAluIn := 0
  doAlu := false
  latchAcc := false
  output := false
  dataIn := false
  dataOut := false
  microSelIp := 0
  microLatchIp := true
  port1Out := false
  port2Out := false

/-- A word of a mode program: it reads the cell at the argument, or at the pointer just read (R123). -/
def readWord (atArg : Bool) : ControlWord := { ControlWord.adv with selAddr := atArg, latchAddr := true, dataIn := true }

/-- The word of an operation that computes and commits a result, from the operand and the input that it selects (R124). -/
def aluWord (selAlu : Bool) (selAluIn : BitVec 2) : ControlWord :=
  { ControlWord.adv with selAlu := selAlu, selAluIn := selAluIn, doAlu := true, latchAcc := true }

/-- The word of STORE (R124). -/
def storeWord : ControlWord := { ControlWord.adv with dataOut := true }

/-- The word of an output instruction (R124). -/
def outputWord : OutQueue → ControlWord
  | .out0 => { ControlWord.adv with output := true }
  | .p1out => { ControlWord.adv with port1Out := true }
  | .p2out => { ControlWord.adv with port2Out := true }

/-- The words of the mode programs (R123). -/
def modeWords : Mode → List ControlWord
  | .direct | .labelAddr => [readWord true]
  | .indirect => [readWord true, readWord false]
  | .none | .labelValue => []

/-- The words of the operations, one at most (R124). -/
def operationWords : Opcode → List ControlWord
  | .inc | .dec | .cls | .neg => [aluWord false 0]
  | .add | .sub | .load => [aluWord true 0]
  | .store => [storeWord]
  | .input => [aluWord false InQueue.in0.select]
  | .port1In => [aluWord false InQueue.p1in.select]
  | .port2In => [aluWord false InQueue.p2in.select]
  | .output => [outputWord .out0]
  | .port1Out => [outputWord .p1out]
  | .port2Out => [outputWord .p2out]
  | .jmp | .jmpz | .hlt => []

/-- The input of the ALU that the operation of an opcode selects (R98, R124). -/
def operationInput : Opcode → BitVec 2
  | .input => InQueue.in0.select
  | .port1In => InQueue.p1in.select
  | .port2In => InQueue.p2in.select
  | _ => 0

/-- The last word of a block: it latches `IP` by the selects of the opcode, returns to the fetch word, and holds the selects of the
operation before it (R122, R124). -/
def lastWord (o : Opcode) : ControlWord :=
  { ControlWord.adv with
    selIp := decide (o = .jmp ∨ o = .jmpz)
    selJump := decide (o = .jmpz)
    latchIp := true
    selAlu := decide (o ∈ [.add, .sub, .load])
    selAluIn := operationInput o
    microSelIp := 2 }

/-- The words of the block of a pair. -/
def blockWords (o : Opcode) (m : Mode) : List ControlWord := modeWords m ++ operationWords o ++ [lastWord o]

/-- The reference ROM holds the words of a pair's block from the pair's entry on (R122 to R126). -/
theorem referenceMicrocode_blockWords : ∀ p ∈ legalPairs, p.1 ≠ .hlt →
    blockWords p.1 p.2 <+: referenceMicrocode.rom.drop ((referenceMicrocode.entry (codeNumber p.1 p.2)).getD 0) := by decide

theorem blockWords_prefix {i : Instr} (hi : i ≠ .hlt) :
    blockWords i.opcode i.mode <+: referenceMicrocode.rom.drop (entryOffset i) := by
  have hop : i.opcode ≠ .hlt := by
    cases i with
    | hlt => exact absurd rfl hi
    | _ => exact nofun
  have hentry : entryOffset i = (referenceMicrocode.entry (codeNumber i.opcode i.mode)).getD 0 :=
    congrArg (fun k => (referenceMicrocode.entry k).getD 0) (toNat_encodeCode i.opcode i.mode)
  rw [hentry]
  exact referenceMicrocode_blockWords (i.opcode, i.mode) ((mem_legalPairs _ _).2 i.legalPair_all) hop

theorem entryOffset_lt {i : Instr} (hi : i ≠ .hlt) : entryOffset i < referenceMicrocode.rom.length := by
  have hlength := (blockWords_prefix hi).length_le
  rw [blockWords, List.length_append, List.length_singleton, List.length_drop] at hlength
  omega

/-! What each of these words does. -/

section

variable {m : Microcode} {s : State}

/-- A word of a mode program is the tick that reads the cell at the address that it selects (41_memory_ops.md R161, R163). -/
theorem applyWord_readWord (atArg : Bool) (hrom : s.mip + 1 < m.rom.length) :
    applyWord m (readWord atArg) s = readCellTick (if atArg then s.wireArg else s.mdr) s := by
  have hword : applyWord m (readWord atArg) s =
      (primDataIn (readWord atArg) (s.setAr (if atArg then s.wireArg else s.mdr))).andThen
        (primMicroLatchIp m (readWord atArg)) := applyWord_eq_actions m _ s
  rw [hword]
  obtain ⟨v, hv, he⟩ | ⟨hv, he⟩ := readCellTick_cases (if atArg then s.wireArg else s.mdr) s <;> rw [he]
  · rw [primDataIn_of_some rfl hv, TickResult.andThen_done]
    exact primMicroLatchIp_next _ rfl rfl hrom
  · rw [primDataIn_of_none rfl hv, TickResult.andThen_raised, State.setAr_ar]

/-- The word of STORE is the store tick (R103). -/
theorem applyWord_storeWord (hrom : s.mip + 1 < m.rom.length) : applyWord m storeWord s = storeTick s := by
  have hword : applyWord m storeWord s = (primDataOut storeWord s).andThen (primMicroLatchIp m storeWord) :=
    applyWord_eq_actions m _ s
  rw [hword]
  obtain ⟨t, ht, he⟩ | ⟨hnone, he⟩ := storeTick_cases s <;> rw [he]
  · rw [primDataOut_of_some rfl ht, TickResult.andThen_done]
    obtain ⟨-, rfl⟩ := State.dmemWrite_eq_some.1 ht
    exact primMicroLatchIp_next storeWord rfl rfl hrom
  · rw [primDataOut_of_none rfl hnone, TickResult.andThen_raised]

/-- The word of an output instruction is its output tick, the append standing before or after the micro latch (R101, R106,
R107). -/
theorem applyWord_outputWord (q : OutQueue) (hrom : s.mip + 1 < m.rom.length) :
    applyWord m (outputWord q) s = outputTick q s := by
  rw [applyWord_eq_actions]
  cases q with
  | out0 => exact primMicroLatchIp_next (outputWord .out0) (s := s.appendOut .out0 s.acc) rfl rfl hrom
  | p1out =>
    change (primMicroLatchIp m (outputWord .p1out) s).andThen (primPort1Out (outputWord .p1out)) = _
    rw [primMicroLatchIp_next (outputWord .p1out) rfl rfl hrom]
    rfl
  | p2out =>
    change (primMicroLatchIp m (outputWord .p2out) s).andThen (primPort2Out (outputWord .p2out)) = _
    rw [primMicroLatchIp_next (outputWord .p2out) rfl rfl hrom]
    rfl

/-- The actions of a word that computes and commits (R99, R100). -/
theorem applyWord_aluWord (selAlu : Bool) (selAluIn : BitVec 2) :
    applyWord m (aluWord selAlu selAluIn) s =
      ((primDoAlu (aluWord selAlu selAluIn) s).andThen (primLatchAcc (aluWord selAlu selAluIn))).andThen
        (primMicroLatchIp m (aluWord selAlu selAluIn)) := applyWord_eq_actions m _ s

/-- The word of an operation without external input is the tick that computes the function that `IR` selects (R98 to R100). -/
theorem applyWord_aluWord_operand {fn : AluFn} (hfn : aluFnOf (opcodeOf s.ir) = fn) (selAlu : Bool)
    (hrom : s.mip + 1 < m.rom.length) :
    applyWord m (aluWord selAlu 0) s = aluTick fn (if selAlu then s.opr else s.acc) s := by
  subst hfn
  rw [applyWord_aluWord]
  exact primMicroLatchIp_next _
    (s := (s.setAlu (alu s.cfg.width (opcodeOf s.ir) s.acc (if selAlu then s.opr else s.acc))).commitAlu) rfl rfl hrom

/-- The word of an input instruction is its input tick: every function that `IR` selects there passes the element through (R99;
42_io.md R181). -/
theorem applyWord_aluWord_input (hfn : aluFnOf (opcodeOf s.ir) = .pass) (q : InQueue) (hrom : s.mip + 1 < m.rom.length) :
    applyWord m (aluWord false q.select) s = inputTick q s := by
  have hset : (aluWord false q.select).doAlu = true := rfl
  have hqueue : aluInputQueue (aluWord false q.select) = some q := aluInputQueue_eq_some.2 rfl
  rw [applyWord_aluWord]
  obtain ⟨v, rest, hv, he⟩ | ⟨hempty, he⟩ := inputTick_cases q s <;> rw [he]
  · have hpop : primDoAlu (aluWord false q.select) s = .done ((s.setInQueue q rest).setAlu v) := by
      simp [primDoAlu, hset, hqueue, State.popQueue, hv, alu, hfn, aluResult]
    rw [hpop]
    refine primMicroLatchIp_next _ (s := ((s.setInQueue q rest).setAlu v).commitAlu) rfl rfl ?_
    simpa using hrom
  · have hraise : primDoAlu (aluWord false q.select) s = .raised (.bufferUnderrun q) s := by
      simp [primDoAlu, hset, hqueue, State.popQueue, hempty]
    rw [hraise]
    rfl

end

/-! The words of an instruction do its ticks. -/

/-- A state in the block of an instruction: its code is in `IR`, its argument at `IP`, and in mode `LABEL_VALUE` also on `OPR`
(10_state.md R18, R19; 41_memory_ops.md R164). -/
structure State.Executes (i : Instr) (s : State) : Prop where
  ip : s.ipInRange = true
  ir : s.ir = (encode i).code
  arg : i.mode ≠ .none → s.wireArg = i.arg
  opr : i.mode = .labelValue → s.opr = i.arg

theorem State.Executes.opcodeOf_ir {i : Instr} {s : State} (h : s.Executes i) : opcodeOf s.ir = i.opcode.index := by
  rw [h.ir]
  exact opcodeOf_encodeCode i.opcode i.mode

/-- A word does a tick of an instruction wherever the instruction is executed and the ROM goes on. -/
def WordDoes (i : Instr) (w : ControlWord) (f : State → TickResult) : Prop :=
  ∀ s : State, s.Executes i → s.mip + 1 < referenceMicrocode.rom.length → applyWord referenceMicrocode w s = f s

theorem wordDoes_alu {i : Instr} {fn : AluFn} (hfn : aluFnOf i.opcode.index = fn) :
    WordDoes i (aluWord false 0) (unaryTick fn) :=
  fun _ hs hrom => applyWord_aluWord_operand (by rw [hs.opcodeOf_ir, hfn]) false hrom

/-- In mode `LABEL_VALUE` the operand on `OPR` is the argument (R164; log 11). -/
theorem wordDoes_operand {i : Instr} {fn : AluFn} (hfn : aluFnOf i.opcode.index = fn) :
    WordDoes i (aluWord true 0) (operandTick fn i) := by
  intro s hs hrom
  rw [applyWord_aluWord_operand (by rw [hs.opcodeOf_ir, hfn]) true hrom]
  unfold operandTick
  by_cases hm : i.mode = .labelValue
  · rw [if_pos hm, hs.opr hm]
    rfl
  · rw [if_neg hm]
    rfl

theorem wordDoes_input {i : Instr} (hfn : aluFnOf i.opcode.index = .pass) (q : InQueue) :
    WordDoes i (aluWord false q.select) (inputTick q) :=
  fun _ hs hrom => applyWord_aluWord_input (by rw [hs.opcodeOf_ir, hfn]) q hrom

theorem wordDoes_modeTicks (i : Instr) : List.Forall₂ (WordDoes i) (modeWords i.mode) (modeTicks i) := by
  have hfirst (hm : i.mode ≠ .none) : WordDoes i (readWord true) (argCellTick i.arg) := fun s hs hrom => by
    rw [applyWord_readWord true hrom]
    exact congrArg (readCellTick · s) (hs.arg hm)
  have hsecond : WordDoes i (readWord false) pointerCellTick := fun s _ hrom => applyWord_readWord false hrom
  unfold modeTicks modeWords
  cases hm : i.mode with
  | none | labelValue => exact .nil
  | direct | labelAddr => exact .cons (hfirst (by simp [hm])) .nil
  | indirect => exact .cons (hfirst (by simp [hm])) (.cons hsecond .nil)

theorem wordDoes_operationTicks (i : Instr) : List.Forall₂ (WordDoes i) (operationWords i.opcode) (operationTicks i) := by
  unfold operationTicks operationWords
  cases ho : i.opcode with
  | inc | dec | cls | neg => exact .cons (wordDoes_alu (by rw [ho]; rfl)) .nil
  | add | sub | load => exact .cons (wordDoes_operand (by rw [ho]; rfl)) .nil
  | store => exact .cons (fun _ _ hrom => applyWord_storeWord hrom) .nil
  | input | port1In | port2In => exact .cons (wordDoes_input (by rw [ho]; rfl) _) .nil
  | output | port1Out | port2Out => exact .cons (fun _ _ hrom => applyWord_outputWord _ hrom) .nil
  | jmp | jmpz | hlt => exact .nil

theorem wordDoes_middleTicks (i : Instr) :
    List.Forall₂ (WordDoes i) (modeWords i.mode ++ operationWords i.opcode) (middleTicks i) :=
  List.rel_append (wordDoes_modeTicks i) (wordDoes_operationTicks i)

/-- The selects of the last word of a block choose the address that the last tick latches (31_control_word.md R91, R92). -/
theorem ipMux_lastWord {i : Instr} {s : State} (hs : s.Executes i) : ipMux (lastWord i.opcode) s = nextAddress i s := by
  have harg (hop : i.opcode = .jmp ∨ i.opcode = .jmpz) : s.wireArg = i.arg := by
    refine hs.arg fun hm => ?_
    have hlegal := i.legalPair_all
    obtain ho | ho := hop <;> simp [ho, hm, legalPair] at hlegal
  unfold nextAddress
  cases ho : i.opcode with
  | jmp => exact harg (.inl ho)
  | jmpz =>
    rw [← harg (.inr ho)]
    simp [ipMux, jumpMux, lastWord, State.nextIp]
  | _ => rfl

/-- A middle tick that completes leads to the next word of the block of the same instruction. -/
theorem State.Executes.countTick {i : Instr} {f : State → TickResult} (hf : f ∈ middleTicks i) {s t : State}
    (hs : s.Executes i) (h : f s = .done t) : t.countTick.Executes i ∧ t.countTick.mip = s.mip + 1 := by
  have hframe := middleFrame_of_mem_middleTicks hf s
  have hresult := middleResult_of_mem_middleTicks hf s
  rw [h] at hframe hresult
  obtain ⟨⟨hcfg, -, -⟩, himem, hip, hir, -⟩ : MiddleFrame s t := hframe
  cases hresult with
  | done mip opr =>
    have hwire : t.wireArg = s.wireArg := by
      rw [State.wireArg, State.wireArg, State.imemRead_congr himem, hip]
    have hrange : t.ipInRange = s.ipInRange := by
      rw [State.ipInRange, State.ipInRange, hcfg, hip]
    exact ⟨⟨hrange.trans hs.ip, hir.trans hs.ir, fun hm => hwire.trans (hs.arg hm), fun hm => (opr hm).trans (hs.opr hm)⟩, mip⟩

/-- The first element of a stretch of a list stands at its place, and the others from the next place on. -/
theorem getElem?_of_cons_prefix_drop {α : Type} {ws l : List α} {w : α} {k : Nat} (h : w :: ws <+: l.drop k) :
    l[k]? = some w ∧ ws <+: l.drop (k + 1) := by
  obtain ⟨rest, hrest⟩ := h
  constructor
  · rw [← Nat.add_zero k, ← List.getElem?_drop, ← hrest]
    rfl
  · rw [← List.tail_drop, ← hrest]
    exact List.prefix_append ws rest

/-- Words that do middle ticks, and after them the last one of its block, do the rest of the instruction. -/
theorem romDoes_block {i : Instr} {ws : List ControlWord} {fs : List (State → TickResult)} (h : List.Forall₂ (WordDoes i) ws fs)
    (hfs : ∀ f ∈ fs, f ∈ middleTicks i) {s : State} (hs : s.Executes i)
    (hws : ws ++ [lastWord i.opcode] <+: referenceMicrocode.rom.drop s.mip) :
    RomDoes referenceMicrocode (fs ++ [fun t => latchTick (nextAddress i t) t]) s := by
  induction h generalizing s with
  | nil =>
    obtain ⟨hword, -⟩ := getElem?_of_cons_prefix_drop hws
    refine .cons hs.ip hword ?_ (fun t _ => .nil _)
    rw [applyWord_eq_latchTick referenceMicrocode (List.mem_of_getElem? hword) rfl, ipMux_lastWord hs]
  | @cons w f ws fs hw _ ih =>
    obtain ⟨hword, hrest⟩ : _ ∧ ws ++ [lastWord i.opcode] <+: _ := getElem?_of_cons_prefix_drop hws
    have hrom : s.mip + 1 < referenceMicrocode.rom.length := by
      have hlength := hrest.length_le
      rw [List.length_append, List.length_singleton, List.length_drop] at hlength
      omega
    refine .cons hs.ip hword (hw s hs hrom) (fun t ht => ?_)
    obtain ⟨hnext, hmip⟩ := hs.countTick (hfs f List.mem_cons_self) ht
    exact ih (fun g hg => hfs g (List.mem_cons_of_mem f hg)) hnext (hmip ▸ hrest)

/-! The fetch word. -/

/-- The fetch word (R121). -/
def fetchWord : ControlWord := { ControlWord.adv with latchIr := true, microSelIp := 1 }

theorem referenceMicrocode_rom_zero : referenceMicrocode.rom[0]? = some fetchWord := rfl

section

variable {s : State}

theorem applyWord_fetchWord (s : State) :
    applyWord referenceMicrocode fetchWord s =
      (primLatchIr fetchWord s).andThen (primMicroLatchIp referenceMicrocode fetchWord) := applyWord_eq_actions _ _ s

/-- At a padding word the fetch word raises with nothing written (R95). -/
theorem applyWord_fetchWord_padding (hip : s.ip ≥ (s.progLen : Int)) :
    applyWord referenceMicrocode fetchWord s = .raised (.fetchOutsideProgram s.ip) s := by
  have hset : fetchWord.latchIr = true := rfl
  rw [applyWord_fetchWord, primLatchIr, if_pos hset, if_pos hip, TickResult.andThen_raised]

/-- Inside the program the fetch word latches the code, which halts the machine or is looked up in the decode index (R95, R105). -/
theorem applyWord_fetchWord_program (hip : s.ip < (s.progLen : Int)) :
    applyWord referenceMicrocode fetchWord s =
      if haltCode s.wireCode then .raised .normalHalt (s.setIr s.wireCode)
      else primMicroLatchIp referenceMicrocode fetchWord (s.setIr s.wireCode) := by
  have hset : fetchWord.latchIr = true := rfl
  rw [applyWord_fetchWord, primLatchIr, if_pos hset, if_neg (not_le.2 hip)]
  split <;> rfl

/-- The look-up of the code in `IR` (R105). -/
theorem primMicroLatchIp_fetchWord (s : State) :
    primMicroLatchIp referenceMicrocode fetchWord s =
      (referenceMicrocode.entry s.ir.toNat).elim (.raised (.decodeIndexMiss s.ir) s) fun offset =>
        if offset < referenceMicrocode.rom.length then .done (s.setMip offset)
        else .raised (.microAddrOutOfRange offset) s := by
  have hset : fetchWord.microLatchIp = true := rfl
  have hsel : fetchWord.microSelIp = 1 := rfl
  cases he : referenceMicrocode.entry s.ir.toNat <;> simp [primMicroLatchIp, hset, hsel, he]

/-- At an illegal code the fetch word raises with the code latched (30_encoding.md R65; R105). -/
theorem applyWord_fetchWord_illegal (hip : s.ip < (s.progLen : Int)) (hcode : legalCode s.wireCode = false) :
    applyWord referenceMicrocode fetchWord s = .raised (.decodeIndexMiss s.wireCode) (s.setIr s.wireCode) := by
  have hhalt : haltCode s.wireCode = false := by simp [haltCode, hcode]
  rw [applyWord_fetchWord_program hip, hhalt, primMicroLatchIp_fetchWord, State.setIr_ir,
    referenceMicrocode_entry_illegal _ hcode]
  rfl

/-- At the code of HLT the fetch word is the halting fetch (43_control.md R204). -/
theorem applyWord_fetchWord_hlt (hip : s.ip < (s.progLen : Int)) (hcode : s.wireCode = 160) :
    applyWord referenceMicrocode fetchWord s = haltTick 160 s := by
  rw [applyWord_fetchWord_program hip, hcode, if_pos ((haltCode_iff 160).2 rfl), haltTick_eq]

theorem encode_code_ne_hlt {i : Instr} (hi : i ≠ .hlt) : (encode i).code ≠ 160 := by
  cases i with
  | hlt => exact absurd rfl hi
  | _ => exact of_decide_eq_true rfl

/-- At the code of any other instruction the fetch word is the fetch tick into its block (R143). -/
theorem applyWord_fetchWord_instr {i : Instr} (hi : i ≠ .hlt) (hip : s.ip < (s.progLen : Int))
    (hcode : s.wireCode = (encode i).code) :
    applyWord referenceMicrocode fetchWord s = fetchTick (encode i).code (entryOffset i) s := by
  rw [applyWord_fetchWord_program hip, hcode, if_neg (mt (haltCode_iff _).1 (encode_code_ne_hlt hi)),
    primMicroLatchIp_fetchWord, State.setIr_ir, referenceMicrocode_entry_encode]
  exact if_pos (entryOffset_lt hi)

/-! The step and the ticks. -/

/-- What a fetch that finds an instruction has found: its code and its argument at an `IP` inside the program (R95, R68). -/
theorem fetch_instr {i : Instr} (h : s.fetch = .instr i) :
    s.ip < (s.progLen : Int) ∧ s.wireCode = (encode i).code ∧ (i.mode ≠ .none → s.wireArg = i.arg) := by
  obtain ⟨-, he⟩ | ⟨-, -, he⟩ | ⟨-, hprog, j, hj, he⟩ | ⟨-, -, -, he⟩ := s.fetch_cases <;> cases h.symm.trans he
  obtain ⟨hcode, harg⟩ := decode_ok hj
  exact ⟨hprog, hcode, harg⟩

/-- At a staged boundary the reference ROM does the ticks of the instruction that the fetch finds. -/
theorem romDoes_blockTicks {i : Instr} (hi : i ≠ .hlt) (hmip : s.mip = 0) (hip : s.ipInRange = true) (hopr : s.ArgStaged)
    (h : s.fetch = .instr i) : RomDoes referenceMicrocode (blockTicks i (entryOffset i)) s := by
  obtain ⟨hprog, hcode, harg⟩ := fetch_instr h
  refine .cons hip (hmip ▸ referenceMicrocode_rom_zero) (applyWord_fetchWord_instr hi hprog hcode) fun t ht => ?_
  cases ht
  have hexecutes : (s.fetched (encode i).code (entryOffset i)).Executes i :=
    ⟨hip, rfl, harg, fun hm => hopr.trans (harg (by simp [hm]))⟩
  exact romDoes_block (wordDoes_middleTicks i) (fun _ hf => hf) hexecutes (blockWords_prefix hi)

/-- The step at a staged boundary where the fetch finds an instruction (R229). -/
theorem step_eq_ticksFor {i : Instr} (hrun : s.status = .running) (hmip : s.mip = 0) (hip : s.ipInRange = true)
    (hopr : s.ArgStaged) (h : s.fetch = .instr i) : step s = ticksFor referenceMicrocode (ticksOf i) s := by
  rw [step_of_fetch_instr hrun hmip hip h]
  by_cases hi : i = .hlt
  · subst hi
    obtain ⟨hprog, hcode, -⟩ := fetch_instr h
    have hdoes : RomDoes referenceMicrocode [haltTick 160] s :=
      .cons hip (hmip ▸ referenceMicrocode_rom_zero) (applyWord_fetchWord_hlt hprog hcode) fun t _ => .nil _
    refine (ticksFor_eq_runTicks hdoes hrun fun f hf u => ?_).symm
    rw [List.mem_singleton.1 hf]
    exact (uncountedTick_halt 160 u).frame
  · have hlength : (blockTicks i (entryOffset i)).length = ticksOf i := by simp [blockTicks, ticksOf_eq_middleTicks hi]
    rw [exec_eq_blockTicks_entryOffset hi, ← hlength]
    exact (ticksFor_eq_runTicks (romDoes_blockTicks hi hmip hip hopr h) hrun
      fun f hf u => controllerFrame_of_mem_blockTicks hf u).symm

/-- The one tick at a boundary where the fetch stops (R225, R95, R105). -/
theorem ticksFor_one_of_fetch_stop {t : State} (hrun : s.status = .running) (hmip : s.mip = 0) (hip : s.ipInRange = true)
    (h : s.fetch = .stop t) : ticksFor referenceMicrocode 1 s = .next t := by
  rw [ticksFor_succ (tickOf_of_running hrun hip (hmip ▸ referenceMicrocode_rom_zero))]
  refine congrArg Host.Outcome.next ?_
  obtain ⟨hat, he⟩ | ⟨hat, hpad, he⟩ | ⟨-, -, i, -, he⟩ | ⟨hat, hprog, hcode, he⟩ := s.fetch_cases <;> cases h.symm.trans he
  · exact controlTick_ceiling hrun hat
  · exact controlTick_raised hrun hat (applyWord_fetchWord_padding hpad)
  · exact controlTick_raised hrun hat (applyWord_fetchWord_illegal hprog hcode)

end

/-- Settles O33: the words of the reference ROM do the ticks of the instruction one by one, and its fetch word the stop of a fetch
that finds none. -/
theorem stepIsTheTicksOfItsInstruction : Obligations.StepIsTheTicksOfItsInstruction := by
  intro s hboundary hip hstaged
  simp only [State.atBoundary, Bool.and_eq_true, decide_eq_true_eq] at hboundary
  obtain ⟨hrun, hmip⟩ := hboundary
  have hopr : s.ArgStaged := of_decide_eq_true hstaged hmip
  exact ⟨fun i h => step_eq_ticksFor hrun hmip hip hopr h, fun t h =>
    (step_of_fetch_stop hrun hmip hip h).trans (ticksFor_one_of_fetch_stop hrun hmip hip h).symm⟩

end Sys2Proof.Machine
end

section
/-! PROOFS. Events at the ends of an instruction (60_exceptions.md R251 to R253) and what a STORE leaves for the LOAD after it
(70_reset_and_hazards.md R285): the ceiling before its first tick, the empty queue in its operation tick, the latch outside
instruction memory in its last tick; and the bound of R261 on the instruction counter. -/

namespace Sys2Proof.Machine

variable {i : Instr} {s t : State}

/-! The instruction counter. -/

/-- Settles O37: the counter's part of a sound state. -/
theorem instructionCountIsBoundedByTicks : Obligations.InstructionCountIsBoundedByTicks := by
  intro s hs
  obtain ⟨-, -, -, -, hlow, hhigh, -⟩ := s.sound_iff.1 hs
  exact ⟨hlow, by omega⟩

/-! The LOAD after a STORE. -/

/-- A STORE after which the machine runs has had the cell at its effective address to read (R166). -/
theorem exists_dmemRead_of_exec_store (hop : i.opcode = .store) (h : exec i s = .next t) (hrun : t.status = .running) :
    ∃ ea old, s.effectiveAddr i.mode i.arg = some ea ∧ s.dmemRead ea = some old := by
  have hi : i ≠ .hlt := by
    rintro rfl
    cases hop
  cases (exec_eq_blockTicks_entryOffset hi s).symm.trans h
  obtain ⟨u, hmiddle, -, -⟩ := completes_blockTicks_iff.1 (completes_of_running hrun)
  obtain ⟨v, hmode, -⟩ := hmiddle.of_append
  obtain ⟨ea, old, hea, hold, -⟩ := (completes_modeTicks_store hop).1 hmode
  exact ⟨ea, old, (s.effectiveAddr_fetched _ _ _ _).symm.trans hea, hold⟩

/-- What a STORE after which the machine runs has stored is what a read of the same cell then finds (R55, R166). -/
theorem dmemRead_of_exec_store {ea : Int} (hop : i.opcode = .store) (hsound : s.memorySound = true)
    (hrun : s.status = .running) (hea : s.effectiveAddr i.mode i.arg = some ea) (h : exec i s = .next t)
    (hrun' : t.status = .running) : t.dmemRead ea = some s.acc := by
  obtain ⟨-, hcell, -⟩ := storeChangesOneCell i s t hop hsound h
  obtain ⟨hcfg, -⟩ := everyInstructionFrame i s t h
  obtain ⟨a, old, ha, hold⟩ := exists_dmemRead_of_exec_store hop h hrun'
  cases ha.symm.trans hea
  exact State.dmemRead_eq_some.2 ⟨hcfg ▸ (State.dmemRead_eq_some.1 hold).1, hcell ea hea hrun hrun'⟩

/-- Settles O14: the operand of the LOAD is the cell that the STORE has written. -/
theorem loadAfterStoreLoadsWhatWasStored : Obligations.LoadAfterStoreLoadsWhatWasStored := by
  intro i j ea s t hi hj hsound hrun hea h hea' hready
  have hread := dmemRead_of_exec_store hi hsound hrun hea h ((t.readyFor_iff _).1 hready).1
  have hvalue : j.mode ≠ .labelValue := by
    intro hm
    rw [hm] at hea'
    cases hea'
  have hoperand : t.operand j.mode j.arg = some s.acc := by
    rw [t.operand_eq_bind hvalue, hea']
    exact hread
  have hload := loadLoadsOperandInEveryMode j t s.acc hj hoperand hready
  rw [hea'] at hload
  exact ⟨_, hload, rfl, rfl, rfl⟩

/-! The ceiling. -/

/-- At the ceiling an instruction does not begin its first tick (R225). -/
theorem exec_of_atCeiling (hrun : s.status = .running) (hat : s.atCeiling = true) (i : Instr) :
    exec i s = .next (s.stop .tickCeilingExceeded) := by
  by_cases hi : i = .hlt
  · rw [hi, exec_hlt, runTicks_ceiling hrun hat]
  · rw [exec_eq_blockTicks_entryOffset hi, blockTicks, runTicks_ceiling hrun hat]

theorem tickOf_of_atCeiling {m : Microcode} (hrun : s.status = .running) (hat : s.atCeiling = true)
    (hip : s.ipInRange = true) (hmip : s.mip < m.rom.length) : tickOf m s = .next (s.stop .tickCeilingExceeded) := by
  rw [tickOf_of_running hrun hip (List.getElem?_eq_getElem hmip), controlTick_ceiling hrun hat]

/-- At the ceiling the fetch at a boundary stops, and so does the tick in the middle of a block (R225). -/
theorem step_of_atCeiling (hrun : s.status = .running) (hat : s.atCeiling = true) (hip : s.ipInRange = true)
    (hmip : s.mip < referenceMicrocode.rom.length) : step s = .next (s.stop .tickCeilingExceeded) := by
  by_cases h0 : s.mip = 0
  · exact step_of_fetch_stop hrun h0 hip (if_pos hat)
  · have htick : step s = tick s := by simp [step, hrun, hip, h0]
    exact htick.trans (tickOf_of_atCeiling hrun hat hip hmip)

/-- Settles O26: the instruction, the tick and the step each test the ceiling before they do anything else. -/
theorem ceilingStopsBeforeTheTick : Obligations.CeilingStopsBeforeTheTick :=
  fun _ hrun hat => ⟨exec_of_atCeiling hrun hat, fun _ => tickOf_of_atCeiling hrun hat, step_of_atCeiling hrun hat⟩

/-! An empty queue. -/

/-- An input tick on an empty queue raises with nothing written (42_io.md R181). -/
theorem inputTick_of_nil {q : InQueue} (h : s.inQueue q = []) : inputTick q s = .raised (.bufferUnderrun q) s := by
  obtain ⟨v, rest, hcons, -⟩ | ⟨-, he⟩ := inputTick_cases q s
  · cases h.symm.trans hcons
  · exact he

/-- An input instruction on an empty queue stops in the state that its fetch leaves (R251). -/
theorem exec_input_of_nil {q : InQueue} (hmiddle : middleTicks i = [inputTick q]) (hrun : s.status = .running)
    (hticks : s.hasTicks 2 = true) (h : s.inQueue q = []) :
    exec i s = .next ((s.fetched (encode i).code (entryOffset i)).stop (.bufferUnderrun q)) :=
  exec_of_middleTick_raised (fs := []) (gs := []) hmiddle hrun hticks (.nil _)
    (inputTick_of_nil ((s.inQueue_fetched _ _ q).trans h))

/-- Settles O24: each of the three on its own queue. -/
theorem emptyQueueStopsInputInstruction : Obligations.EmptyQueueStopsInputInstruction :=
  fun _ hrun hticks =>
    ⟨exec_input_of_nil (i := .input) (q := .in0) rfl hrun hticks,
      exec_input_of_nil (i := .port1In) (q := .p1in) rfl hrun hticks,
      exec_input_of_nil (i := .port2In) (q := .p2in) rfl hrun hticks⟩

/-! What the middle ticks of an instruction leave for its latch. -/

/-- The results that an operation tick may have: it leaves `MDR` and `OPR` as they were, or it raises a cause that is not that of
the `IP` latch (40_arithmetic.md R143). -/
inductive OperationResult (s : State) : TickResult → Prop where
  | done {t : State} (mdr : t.mdr = s.mdr) (opr : t.opr = s.opr) : OperationResult s (.done t)
  | raised {c : Cause} {t : State} (cause : ∀ v, c ≠ .instrAddrOutOfRange v) : OperationResult s (.raised c t)

theorem operationResult_operand (fn : AluFn) (s : State) : OperationResult s (operandTick fn i s) := by
  unfold operandTick
  split <;> exact .done rfl rfl

theorem operationResult_input (q : InQueue) (s : State) : OperationResult s (inputTick q s) := by
  obtain ⟨v, rest, -, he⟩ | ⟨-, he⟩ := inputTick_cases q s <;> rw [he]
  exacts [.done (by simp) (by simp), .raised nofun]

theorem operationResult_output (q : OutQueue) (s : State) : OperationResult s (outputTick q s) :=
  .done (s.appendOut_mdr q s.acc) (s.appendOut_opr q s.acc)

theorem operationResult_store (s : State) : OperationResult s (storeTick s) := by
  obtain ⟨t, ht, he⟩ | ⟨-, he⟩ := storeTick_cases s <;> rw [he]
  · obtain ⟨-, rfl⟩ := State.dmemWrite_eq_some.1 ht
    exact .done rfl rfl
  · exact .raised nofun

theorem operationResult_of_mem_operationTicks {f : State → TickResult} (hf : f ∈ operationTicks i) (s : State) :
    OperationResult s (f s) := by
  unfold operationTicks at hf
  cases ho : i.opcode <;> rw [ho] at hf
  case jmp | jmpz | hlt => cases hf
  all_goals rw [List.mem_singleton.1 hf]
  case inc | dec | cls | neg => exact .done rfl rfl
  case add | sub | load => exact operationResult_operand _ s
  case store => exact operationResult_store s
  case input | port1In | port2In => exact operationResult_input _ s
  case output | port1Out | port2Out => exact operationResult_output _ s

/-- Operation ticks that complete leave `MDR` and `OPR` to the mode program (41_memory_ops.md R164). -/
theorem Completes.mdr_opr {fs : List (State → TickResult)} (h : Completes fs s t)
    (hfs : ∀ f ∈ fs, ∀ u, OperationResult u (f u)) : t.mdr = s.mdr ∧ t.opr = s.opr := by
  induction h with
  | nil => exact ⟨rfl, rfl⟩
  | @cons f fs s v t tick _ ih =>
    have hf := hfs f List.mem_cons_self s
    rw [tick] at hf
    obtain ⟨hmdr, hopr⟩ := ih fun g hg => hfs g (List.mem_cons_of_mem f hg)
    cases hf with
    | done mdr opr => exact ⟨hmdr.trans mdr, hopr.trans opr⟩

/-- Only the last tick of a block raises the cause of the `IP` latch (R253). -/
theorem ne_instrAddrOutOfRange_of_mem_middleTicks {f : State → TickResult} (hf : f ∈ middleTicks i) {c : Cause}
    (h : f s = .raised c t) (v : Int) : c ≠ .instrAddrOutOfRange v := by
  obtain hf | hf := List.mem_append.1 hf
  · obtain ⟨a, ha⟩ : ∃ a, f s = readCellTick a s := by
      obtain rfl | rfl := eq_of_mem_modeTicks hf <;> exact ⟨_, rfl⟩
    obtain ⟨w, -, he⟩ | ⟨-, he⟩ := readCellTick_cases a s <;> cases h.symm.trans (ha.trans he)
    exact nofun
  · have hresult := operationResult_of_mem_operationTicks hf s
    rw [h] at hresult
    cases hresult with
    | raised cause => exact cause v

/-- Middle ticks that complete go through the words of the block (32_microcode_rom.md R123). -/
theorem Completes.mip_eq {fs : List (State → TickResult)} (h : Completes fs s t)
    (hfs : ∀ f ∈ fs, f ∈ middleTicks i) : t.mip = s.mip + fs.length := by
  induction h with
  | nil => rfl
  | @cons f fs s v t tick _ ih =>
    have hf := middleResult_of_mem_middleTicks (hfs f List.mem_cons_self) s
    rw [tick] at hf
    have hrest : t.mip = v.mip + fs.length := ih fun g hg => hfs g (List.mem_cons_of_mem f hg)
    cases hf with
    | done mip =>
      rw [hrest, mip, List.length_cons]
      omega

/-- Middle ticks that complete leave `OPR` as it was in the modes that read no memory (R164). -/
theorem opr_of_completes_middleTicks (hmode : i.mode = .none ∨ i.mode = .labelValue) (h : Completes (middleTicks i) s t) :
    t.opr = s.opr := by
  have hmiddle : middleTicks i = operationTicks i := by
    obtain hm | hm := hmode <;> simp [middleTicks, modeTicks, hm]
  rw [hmiddle] at h
  exact (h.mdr_opr fun _ hf u => operationResult_of_mem_operationTicks hf u).2

/-- Middle ticks that complete leave the operand just read in `MDR` and `OPR` in the memory modes (R164). -/
theorem operand_of_completes_middleTicks (hmode : i.mode = .direct ∨ i.mode = .labelAddr ∨ i.mode = .indirect)
    (h : Completes (middleTicks i) s t) : s.operand i.mode i.arg = some t.opr ∧ t.mdr = t.opr := by
  obtain ⟨u, hprogram, hoperation⟩ := h.of_append
  obtain ⟨hmdr, hopr⟩ := hoperation.mdr_opr fun _ hf v => operationResult_of_mem_operationTicks hf v
  have hnone : i.mode ≠ .none := by
    intro hm
    simp [hm] at hmode
  have hvalue : i.mode ≠ .labelValue := by
    intro hm
    simp [hm] at hmode
  obtain ⟨v, hv⟩ := exists_operand_of_completes hnone hprogram
  obtain ⟨ea, hea, -⟩ := Option.bind_eq_some_iff.1 ((s.operand_eq_bind hvalue i.arg).symm.trans hv)
  cases hprogram.unique (completes_modeTicks hv)
  rw [hea] at hmdr hopr
  rw [hmdr, hopr]
  exact ⟨hv, rfl⟩

/-! A latch outside instruction memory. -/

/-- Ticks that stop a running machine with another cause than the ceiling's have completed up to one of them, which has raised it
(50_control_unit.md R225, R226). -/
theorem exists_raised_of_runTicks_stopped {fs : List (State → TickResult)} {c : Cause}
    (hframe : ∀ f ∈ fs, ∀ u, ControllerFrame u (f u).state) (hc : c ≠ .tickCeilingExceeded) (hrun : s.status = .running)
    (h : (runTicks fs s).status = .stopped c) :
    ∃ before f after u v, fs = before ++ f :: after ∧ Completes before s u ∧ f u = .raised c v ∧
      runTicks fs s = v.stop c := by
  induction fs generalizing s with
  | nil => cases hrun.symm.trans h
  | cons f fs ih =>
    have hf := hframe f List.mem_cons_self s
    rw [runTicks_cons] at h ⊢
    obtain ⟨d, hs, -⟩ | ⟨-, -, he⟩ | ⟨-, -, v, hv, he⟩ | ⟨-, -, d, v, hv, he⟩ := controlTick_cases f s
    · cases hrun.symm.trans hs
    · rw [he, runTicks_stopped rfl] at h
      cases h
      exact absurd rfl hc
    · rw [hv] at hf
      rw [he] at h ⊢
      have hrunning : v.countTick.status = .running := hf.status.trans hrun
      obtain ⟨before, g, after, u, w, rfl, hbefore, hraised, heq⟩ :=
        ih (fun g hg => hframe g (List.mem_cons_of_mem f hg)) hrunning h
      exact ⟨f :: before, g, after, u, w, rfl, .cons hv hbefore, hraised, heq⟩
    · rw [he, runTicks_stopped rfl] at h ⊢
      cases h
      exact ⟨[], f, fs, s, v, rfl, .nil s, hv, rfl⟩

/-- An element of a list is its last one, with all the others before it, or one of those. -/
theorem eq_last_or_mem_of_eq_append_cons {α : Type} {xs before after : List α} {x y : α}
    (h : xs ++ [x] = before ++ y :: after) : (before = xs ∧ y = x) ∨ y ∈ xs := by
  obtain rfl | ⟨rest, z, rfl⟩ := after.eq_nil_or_concat'
  · obtain ⟨rfl, ⟨⟩⟩ := List.append_inj' h rfl
    exact .inl ⟨rfl, rfl⟩
  · rw [← List.cons_append, ← List.append_assoc] at h
    rw [List.append_inj_left' h rfl]
    exact .inr (by simp)

/-- An instruction that stops a running machine with the cause of the `IP` latch has completed all its ticks but the last, which
has found its next address outside instruction memory and left everything as it was (R253). -/
theorem exists_completes_of_exec_instrAddrOutOfRange {v : Int} (hrun : s.status = .running) (h : exec i s = .next t)
    (hstop : t.status = .stopped (.instrAddrOutOfRange v)) :
    i ≠ .hlt ∧ ∃ u, Completes (middleTicks i) (s.fetched (encode i).code (entryOffset i)) u ∧
      inRange u.cfg.instrMemSize v = false ∧ v = nextAddress i u ∧ t = u.stop (.instrAddrOutOfRange v) := by
  by_cases hi : i = .hlt
  · subst hi
    cases hat : s.atCeiling with
    | true =>
      cases (exec_of_atCeiling hrun hat .hlt).symm.trans h
      cases hstop
    | false =>
      cases (exec_hlt_of_hasTicks hrun (by rw [s.hasTicks_one, hat]; rfl)).symm.trans h
      cases hstop
  · refine ⟨hi, ?_⟩
    cases (exec_eq_blockTicks_entryOffset hi s).symm.trans h
    obtain ⟨before, f, after, u, w, hblock, hbefore, hraised, heq⟩ :=
      exists_raised_of_runTicks_stopped (c := .instrAddrOutOfRange v) (fun _ hf => controllerFrame_of_mem_blockTicks hf)
        nofun hrun hstop
    obtain ⟨rfl, rfl⟩ | hmem := eq_last_or_mem_of_eq_append_cons ((List.cons_append ..).trans hblock)
    · obtain ⟨⟩ | ⟨⟨⟩, hmiddle⟩ := hbefore
      obtain ⟨-, he⟩ | ⟨hout, he⟩ := latchTick_cases (nextAddress i u) u <;> cases hraised.symm.trans he
      exact ⟨u, hmiddle, hout, rfl, heq⟩
    · obtain rfl | hmem := List.mem_cons.1 hmem
      · cases hraised
      · exact absurd rfl (ne_instrAddrOutOfRange_of_mem_middleTicks hmem hraised v)

theorem middleTicks_of_jmpz (hop : i.opcode = .jmpz) : middleTicks i = [] := by
  cases i with
  | jmpzLabelValue => rfl
  | _ => cases hop

/-- The address that an instruction latches, on the state before it (31_control_word.md R91; 43_control.md R202, R203). -/
theorem nextAddress_of_completes {u : State} {entry : Nat}
    (h : Completes (middleTicks i) (s.fetched (encode i).code entry) u) : nextAddress i u = nextAddress i s := by
  have hframe := h.middleFrame fun f hf v => middleFrame_of_mem_middleTicks hf v
  have hnext : u.nextIp = s.nextIp := State.nextIp_congr hframe.ip hframe.cfg
  cases ho : i.opcode with
  | jmpz =>
    rw [middleTicks_of_jmpz ho] at h
    cases h
    simp only [nextAddress, ho]
    rfl
  | _ => simp only [nextAddress, ho, hnext]

/-- Settles O25: the block has completed but for its latch, which has raised on the address that it was to write. -/
theorem latchOutsideMemoryStopsInLastTick : Obligations.LatchOutsideMemoryStopsInLastTick := by
  intro i s t v hrun h hstop
  obtain ⟨hi, u, hmiddle, hout, hv, rfl⟩ := exists_completes_of_exec_instrAddrOutOfRange hrun h hstop
  have hframe := hmiddle.middleFrame fun f hf w => middleFrame_of_mem_middleTicks hf w
  have hticks : u.ticks = s.ticks + 1 + (middleTicks i).length := hframe.ticks
  have hmip : u.mip = entryOffset i + (middleTicks i).length := hmiddle.mip_eq fun _ hf => hf
  have hcount := ticksOf_eq_middleTicks hi
  have hopr := fun hmode => opr_of_completes_middleTicks hmode hmiddle
  have hoperand := fun hmode => operand_of_completes_middleTicks hmode hmiddle
  rw [hframe.cfg] at hout
  rw [nextAddress_of_completes hmiddle] at hv
  refine ⟨hout, hframe.ip, hframe.icount, ?_, fun entry hentry => ?_, hopr, hoperand, fun ho => ?_, fun ho => ?_,
    fun hjmp hjmpz => hv.trans (nextAddress_eq_nextIp hjmp hjmpz s)⟩
  · rw [State.stop_ticks]
    omega
  · rw [State.stop_mip, eq_entryOffset hentry]
    omega
  · simpa [nextAddress, ho] using hv
  · simpa [nextAddress, ho] using hv

end Sys2Proof.Machine
end
